-- ==== Sys2Proof/Word.lean ====
section
/-! DEFINITION. The words of PRQC: bytes (the fields of the control word), 32-bit registers and
64-bit items (00_scope.md R7 to R9). -/

namespace Sys2Proof

/-- A field of the control word, a status code, or one byte lane (R8). -/
abbrev Byte := BitVec 8

/-- A register, the control word or a command word (R7, R9 `REG_W`). -/
abbrev Word := BitVec 32

/-- An item: what one slot holds (R9 `ITEM_W`). -/
abbrev Item := BitVec 64

end Sys2Proof
end

