-- ==== Sys2Proof/Config.lean ====
section
/-! DEFINITION. What an implementation of PRQC fixes (00_scope.md R9), the choices the spec leaves to
the outside world (40_command_execution.md R160), and the free choice of the next step. -/

namespace Sys2Proof

/-- The two OPEN parameters of R9: the number of ports and the bus address of register offset 0. -/
structure Config where
  /-- `NPORTS`, 1 to 255 (D8). -/
  nports : Nat
  /-- `BLOCK_BASE`, aligned to 4 bytes (20_memory.md R81). -/
  blockBase : Nat
deriving DecidableEq, Repr

/-- R9 and R81: the parameter values the spec admits. -/
def Config.Valid (c : Config) : Bool :=
  decide (1 ≤ c.nports) && decide (c.nports ≤ 255) && decide (c.blockBase % 4 = 0)

/-- DESIGN CHOICE (log 6): the parameters of `State.reset`. The spec leaves both OPEN; two ports is what
95_test_vectors.md takes. -/
def Config.reference : Config := ⟨2, 0⟩

/-- `CAP_MAX` (R9). -/
def Config.capMax : Nat := 127

/-- `NSLOTS` (R9): the slots are 0 to 126. -/
def Config.nslots : Nat := 127

/-- The direction of a register access, with a write's data (30_encoding.md R140). -/
inductive AccessKind where
  | read
  | write (data : Word)
deriving DecidableEq, Repr, Inhabited

/-- A register-access transaction as the requester sends it (R140): the bus address (20_memory.md R81:
BLOCK_BASE plus the offset), the size in bytes and the direction. -/
structure Access where
  addr : Nat
  size : Nat
  kind : AccessKind
deriving DecidableEq, Repr, Inhabited

/-- One choice of the next step (40_command_execution.md R160): a requester's access, a micro-step of port
`p` with the draw `spurious` its SCW uses if it makes one (20_memory.md R91, R102), or reset. -/
inductive Event where
  | access (a : Access)
  | port (p : Nat) (spurious : Bool)
  | reset
deriving DecidableEq, Repr, Inhabited

/-- FREE VALUE (log 2): the choice the world makes when the state lists none. It has no body, so that
nothing proved of the machine rests on any schedule or draw (R17, R160). -/
opaque Config.freeEvent : Nat → Event

end Sys2Proof
end

