-- ==== Sys2Proof/Machine/State.lean ====
section
/-! DEFINITION. Every piece of state of PRQC (10_state.md R30) as plain data, its reset value (R50), and the
ways a step can stop. -/

namespace Sys2Proof.Machine

open Sys2Proof

/-- The phases of a port's sequencer (10_state.md R45); a phase names the port's next micro-step (R48). -/
inductive Phase where
  | idle | start
  | e1LL | e1SC | e1Yield | eWrite | e2LL | e2SC | e2Yield
  | dLL | dRead | dSC | dYield
  | pRdw | pRead
deriving DecidableEq, Repr

/-- The status codes (60_exceptions.md R271), by name; their values stand in Machine/Flags.lean. -/
inductive StatusCode where
  | success | nullObject | noMemory | retry | noData | badAlignment | busy | tooMany | badParam | illegalCmd
deriving DecidableEq, Repr

/-- The registers of the register map (30_encoding.md R142). -/
inductive Reg where
  | qword | qcfg | qparam
  | cmd (p : Nat) | status (p : Nat)
  | dinHi (p : Nat) | dinLo (p : Nat)
  | doutHi (p : Nat) | doutLo (p : Nat)
deriving DecidableEq, Repr

/-- What an access gets back (30_encoding.md R140). -/
inductive Response where
  /-- OK, with the 32 bits read. -/
  | okRead (data : Word)
  /-- OK to a write. -/
  | okWrite
  /-- The bus error response (20_memory.md R84). -/
  | err
deriving DecidableEq, Repr

/-- The slot store (10_state.md R39): pairs of a slot index and its item, indices rising; a slot not
listed is unwritten (log 8). -/
abbrev Memory := List (Nat × Item)

/-- One port: its host registers (10_state.md R42 to R44), its sequencer and latches (R45) and its
reservation (R46). CMD has no storage (R41). -/
structure Port where
  /-- STATUS.BUSY. -/
  busy : Bool
  /-- STATUS.OVR. -/
  ovr : Bool
  /-- STATUS.CODE. -/
  code : Byte
  dinHi : Word
  dinLo : Word
  doutHi : Word
  doutLo : Word
  phase : Phase
  /-- The latched command word. -/
  cw : Word
  /-- The latched item. -/
  din : Item
  /-- The word the last LLW or RDW read. -/
  v : Word
  /-- The word to be stored. -/
  vn : Word
  /-- A slot index. -/
  s : BitVec 7
  /-- An item read from a slot. -/
  d : Item
  /-- RES. -/
  res : Bool
deriving DecidableEq, Repr

/-- The MODEL's own (log 4): which port's micro-step runs now, and the draw of this micro-step
(20_memory.md R91). -/
structure Turn where
  port : Nat
  spurious : Bool
deriving DecidableEq, Repr

structure State where
  /-- QWORD (10_state.md R31). -/
  qword : Word
  /-- QCFG.VALID (R35, R37). -/
  valid : Bool
  /-- QCFG.CAP (R35, R36). -/
  cap : BitVec 7
  /-- SLOT[0..126] (R39). -/
  slots : Memory
  /-- The ports; their number is NPORTS (00_scope.md R9), which no step changes. -/
  ports : List Port
  /-- BLOCK_BASE (20_memory.md R81), which no step changes. -/
  blockBase : Nat
  /-- MODEL's own (log 1): the choices of the next steps, the first first. -/
  agenda : List Event
  /-- MODEL's own (log 2): how many free choices were taken. -/
  ticks : Nat
  /-- MODEL's own (log 4): the micro-step that runs now. -/
  turn : Turn
  /-- MODEL's own (log 5): the response to the last access. -/
  resp : Option Response
deriving DecidableEq, Repr

/-- Why the model stops with a fault. No step from a state that reset reaches takes either (10_state.md
R56). -/
inductive Fault where
  /-- SlotRead of a slot that was never written (10_state.md R39, 20_memory.md R95). Raised by D_READ and
  P_READ. Safe: the spec itself makes it a model fault. -/
  | unwrittenSlot (i : Nat)
  /-- SlotRead or SlotWrite of an index outside 0..126 (20_memory.md R95, R96; log 9). Raised by D_READ, P_READ
  and E_WRITE when the latch `s` holds 127. Safe: the spec says that no such slot exists. -/
  | noSuchSlot (i : Nat)
deriving DecidableEq, Repr

/-- Why an instruction has no meaning. -/
inductive Refusal where
  /-- Raised by exec's arm of an instruction that has no meaning yet; no arm does. Safe: the run stops. -/
  | notModelled (mnemonic : String)
deriving DecidableEq, Repr

/-- What a step answers. -/
abbrev Result := Host.Outcome State Fault Refusal

/-- A port after reset (10_state.md R50). The latches, to which R50 gives no value, are 0 by DESIGN CHOICE
(log 7). -/
def Port.reset : Port where
  busy := false
  ovr := false
  code := 0x00#8
  dinHi := 0
  dinLo := 0
  doutHi := 0
  doutLo := 0
  phase := .idle
  cw := 0
  din := 0
  v := 0
  vn := 0
  s := 0
  d := 0
  res := false

/-- The machine right after reset (10_state.md R50), for any values of the OPEN parameters. -/
def State.resetWith (c : Config) : State where
  qword := 0x00000000#32
  valid := false
  cap := 0
  slots := []
  ports := List.replicate c.nports Port.reset
  blockBase := c.blockBase
  agenda := []
  ticks := 0
  turn := ⟨0, false⟩
  resp := none

/-- The machine right after reset, with the parameters of `Config.reference` (DESIGN CHOICE, log 6). -/
def State.reset : State := State.resetWith Config.reference

end Sys2Proof.Machine
end

