-- ==== Sys2Proof/Machine/Operands.lean ====
section
/-! DEFINITION. The operand forms: the fields of the control word (10_state.md R33), the pointer increment
(00_scope.md R16), the conditions and store words of the queue commands, the halves of an item
(20_memory.md R83) and the register map (30_encoding.md R142). -/

namespace Sys2Proof.Machine

open Sys2Proof

/-- R33: bits 31:24. -/
def Qword.wc (q : Word) : Byte := q.extractLsb' 24 8

/-- R33: bits 23:16. -/
def Qword.wp (q : Word) : Byte := q.extractLsb' 16 8

/-- R33: bits 15:8. -/
def Qword.rc (q : Word) : Byte := q.extractLsb' 8 8

/-- R33: bits 7:0. -/
def Qword.rp (q : Word) : Byte := q.extractLsb' 0 8

/-- 00_scope.md R13. The fields are bytes, so that a value written to one is taken modulo 256 (R12). -/
def pack (wc wp rc rp : Byte) : Word := wc ++ wp ++ rc ++ rp

/-- 00_scope.md R16: the circular increment on the current capacity, on integers, written to 8 bits. -/
def inc (cap : BitVec 7) (x : Byte) : Byte :=
  if x.toNat + 1 = cap.toNat then 0 else x + 1

/-- A pointer as the 7-bit latch `s` holds it (10_state.md R45; R12: modulo 2^7). -/
def slotIndex (x : Byte) : BitVec 7 := x.setWidth 7

/-- 42_enqueue.md R213: not full, and no other enqueue in its window. -/
def phase1Cond (cap : BitVec 7) (v : Word) : Bool :=
  decide ((Qword.wc v).toNat < cap.toNat) && decide (Qword.wc v = Qword.rc v)

/-- 42_enqueue.md R214: the phase-1 store word. -/
def phase1Word (cap : BitVec 7) (v : Word) : Word :=
  pack (Qword.wc v + 1) (inc cap (Qword.wp v)) (Qword.rc v) (Qword.rp v)

/-- 42_enqueue.md R218: the gap check, on the integers of the unsigned fields. -/
def phase2Cond (v : Word) : Bool :=
  decide (((Qword.wc v).toNat : Int) - ((Qword.rc v).toNat : Int) ≤ 1)

/-- 42_enqueue.md R219: the phase-2 store word. -/
def phase2Word (v : Word) : Word :=
  pack (Qword.wc v) (Qword.wp v) (Qword.rc v + 1) (Qword.rp v)

/-- 43_dequeue.md R242: a committed item is there. -/
def deqCond (v : Word) : Bool := decide (0 < (Qword.rc v).toNat)

/-- 43_dequeue.md R243: the dequeue store word. -/
def deqWord (cap : BitVec 7) (v : Word) : Word :=
  pack (Qword.wc v - 1) (Qword.wp v) (Qword.rc v - 1) (inc cap (Qword.rp v))

/-- 10_state.md R43: `DIN = DIN_HI : DIN_LO`. -/
def Port.dinItem (q : Port) : Item := q.dinHi ++ q.dinLo

/-- 10_state.md R44: `DOUT = DOUT_HI : DOUT_LO`. -/
def Port.doutItem (q : Port) : Item := q.doutHi ++ q.doutLo

/-- The more significant half of an item (20_memory.md R83). -/
def itemHi (d : Item) : Word := d.extractLsb' 32 32

/-- The less significant half of an item (20_memory.md R83). -/
def itemLo (d : Item) : Word := d.extractLsb' 0 32

/-- 30_encoding.md R142: the offset of a register from BLOCK_BASE. -/
def Reg.offset (r : Reg) : Nat :=
  match r with
  | .qword => 0x000
  | .qcfg => 0x004
  | .qparam => 0x008
  | .cmd p => 0x100 + 0x20 * p + 0x00
  | .status p => 0x100 + 0x20 * p + 0x04
  | .dinHi p => 0x100 + 0x20 * p + 0x08
  | .dinLo p => 0x100 + 0x20 * p + 0x0C
  | .doutHi p => 0x100 + 0x20 * p + 0x10
  | .doutLo p => 0x100 + 0x20 * p + 0x14

/-- 30_encoding.md R142: the register of port `p` at an offset inside its 0x20 bytes. -/
def Reg.ofPortOffset (p k : Nat) : Option Reg :=
  match k with
  | 0x00 => some (.cmd p)
  | 0x04 => some (.status p)
  | 0x08 => some (.dinHi p)
  | 0x0C => some (.dinLo p)
  | 0x10 => some (.doutHi p)
  | 0x14 => some (.doutLo p)
  | _ => none

/-- 30_encoding.md R142: the register at an offset, if the window of `nports` ports maps one there. -/
def Reg.ofOffset (nports o : Nat) : Option Reg :=
  if o < 0x100 then
    match o with
    | 0x000 => some .qword
    | 0x004 => some .qcfg
    | 0x008 => some .qparam
    | _ => none
  else if o < 0x100 + 0x20 * nports then
    Reg.ofPortOffset ((o - 0x100) / 0x20) ((o - 0x100) % 0x20)
  else none

end Sys2Proof.Machine
end

