-- ==== Sys2Proof/Machine/Flags.lean ====
section
/-! DEFINITION. The status codes and the read-only registers composed of flags: STATUS, QCFG and QPARAM
(10_state.md R35, R38, R42; 60_exceptions.md R271). -/

namespace Sys2Proof.Machine

open Sys2Proof

/-- 60_exceptions.md R271. -/
def StatusCode.value (c : StatusCode) : Byte :=
  match c with
  | .success => 0x00#8
  | .nullObject => 0x01#8
  | .noMemory => 0x02#8
  | .retry => 0x03#8
  | .noData => 0x04#8
  | .badAlignment => 0x05#8
  | .busy => 0x06#8
  | .tooMany => 0x07#8
  | .badParam => 0x08#8
  | .illegalCmd => 0x09#8

/-- 10_state.md R42: BUSY in bit 31, OVR in bit 30, 29:8 zero, CODE in 7:0. -/
def Port.statusWord (q : Port) : Word :=
  BitVec.ofBool q.busy ++ BitVec.ofBool q.ovr ++ 0#22 ++ q.code

/-- 10_state.md R35: VALID in bit 31, 30:7 zero, CAP in 6:0. -/
def State.qcfgWord (s : State) : Word := BitVec.ofBool s.valid ++ 0#24 ++ s.cap

/-- 10_state.md R38: 31:16 zero, CAP_MAX in 15:8, NPORTS in 7:0. -/
def State.qparamWord (s : State) : Word :=
  0#16 ++ BitVec.ofNat 8 Config.capMax ++ BitVec.ofNat 8 s.ports.length

end Sys2Proof.Machine
end

