-- ==== Sys2Proof/Machine/Ops.lean ====
section
/-! DEFINITION. The named operations: one port's record, the slot store, the LL/SC micro-steps on QWORD
(20_memory.md R90 to R96), completion (40_command_execution.md R166, which stands in the place of an
exception entry, 00_scope.md R15) and the total reset (70_reset_and_hazards.md R300). -/

namespace Sys2Proof.Machine

open Sys2Proof

/-- Changes the record of port `p` and nothing else. -/
def updPort (s : State) (p : Nat) (f : Port → Port) : State :=
  { s with ports := s.ports.modify p f }

/-- `phase[p] <- ph` (00_scope.md R15). -/
def setPhase (p : Nat) (ph : Phase) (s : State) : State :=
  updPort s p (fun q => { q with phase := ph })

/-- `RES[q] <- 0` for every port `q` (20_memory.md R92). -/
def clearReservations (s : State) : State :=
  { s with ports := s.ports.map (fun q => { q with res := false }) }

/-- 40_command_execution.md R166. -/
def complete (p : Nat) (c : StatusCode) (s : State) : State :=
  updPort s p (fun q => { q with code := c.value, busy := false, res := false, phase := .idle })

/-- 20_memory.md R90: the word read, and the state with the reservation of `p` set. -/
def llw (p : Nat) (s : State) : Word × State :=
  (s.qword, updPort s p (fun q => { q with res := true }))

/-- Whether port `p` holds its reservation (10_state.md R46). -/
def reserved (p : Nat) (s : State) : Bool :=
  match s.ports[p]? with
  | some q => q.res
  | none => false

/-- 20_memory.md R91: whether the store was made, and the state after it. The draw is the one of this
turn. -/
def scw (p : Nat) (vn : Word) (s : State) : Bool × State :=
  if reserved p s && !s.turn.spurious then
    (true, clearReservations { s with qword := vn })
  else
    (false, updPort s p (fun q => { q with res := false }))

/-- 20_memory.md R93. -/
def rdw (s : State) : Word := s.qword

/-- The item an index holds: none if the slot is unwritten. -/
def Memory.read (m : Memory) (i : Nat) : Option Item :=
  match m with
  | [] => none
  | (k, d) :: rest => if k = i then some d else Memory.read rest i

/-- The store with one slot written, its indices still rising. -/
def Memory.write (m : Memory) (i : Nat) (d : Item) : Memory :=
  match m with
  | [] => [(i, d)]
  | (k, e) :: rest =>
    if i < k then (i, d) :: (k, e) :: rest
    else if i = k then (i, d) :: rest
    else (k, e) :: Memory.write rest i d

/-- Every index of `m` is above `lo` and they rise. -/
def Memory.risingFrom (lo : Nat) (m : Memory) : Bool :=
  match m with
  | [] => true
  | (k, _) :: rest => decide (lo ≤ k) && Memory.risingFrom (k + 1) rest

/-- The canonical form: the indices rise, and each is one of the slots 0..126. -/
def Memory.wf (m : Memory) : Bool :=
  Memory.risingFrom 0 m && m.all (fun c => decide (c.1 < Config.nslots))

/-- 20_memory.md R95: the item of slot `i`, handed to the rest of the micro-step. -/
def slotRead (i : Nat) (s : State) (k : Item → State) : Result :=
  if i < Config.nslots then
    match s.slots.read i with
    | some d => .next (k d)
    | none => .fault (.unwrittenSlot i)
  else .fault (.noSuchSlot i)

/-- 20_memory.md R96: slot `i` written, and the rest of the micro-step. -/
def slotWrite (i : Nat) (d : Item) (s : State) (k : State → State) : Result :=
  if i < Config.nslots then .next (k { s with slots := s.slots.write i d })
  else .fault (.noSuchSlot i)

/-- DOUT_HI and DOUT_LO of port `p` take the halves of an item (43_dequeue.md R244, 44_peek.md R262). -/
def setDout (p : Nat) (d : Item) (s : State) : State :=
  updPort s p (fun q => { q with doutHi := itemHi d, doutLo := itemLo d })

/-- 41_lifecycle.md R197: some port other than `p` is not IDLE. -/
def othersBusy (p : Nat) (s : State) : Bool :=
  (s.ports.eraseIdx p).any (fun q => decide (q.phase ≠ .idle))

/-- 40_command_execution.md R161: the command word `w` is accepted by port `p`. -/
def accept (p : Nat) (w : Word) (s : State) : State :=
  updPort s p (fun q =>
    { q with cw := w, din := q.dinItem, busy := true, ovr := false, phase := .start })

/-- 70_reset_and_hazards.md R300: every piece of PRQC's state takes its reset value; the OPEN parameters
and the model's own fields stay (log 13). -/
def resetBlock (s : State) : State :=
  { State.resetWith ⟨s.ports.length, s.blockBase⟩ with
    agenda := s.agenda, ticks := s.ticks, turn := s.turn, resp := s.resp }

/-- Runs a micro-step of the port whose turn it is. A turn that names no port is not an enabled step
(40_command_execution.md R160) and changes nothing (log 3). -/
def onTurn (s : State) (f : Nat → Port → Result) : Result :=
  match s.ports[s.turn.port]? with
  | some q => f s.turn.port q
  | none => .next s

end Sys2Proof.Machine
end

