-- ==== Sys2Proof/Machine/Bus.lean ====
section
/-! DEFINITION. The register interface: which register an access reaches (20_memory.md R81, R84;
30_encoding.md R142), what a read returns, what a write does (R148), acceptance and dropping of a
command (40_command_execution.md R161, R162). -/

namespace Sys2Proof.Machine

open Sys2Proof

/-- A field of port `p`'s record as a register shows it (0 where the port is not there: the register map
names only ports that are). -/
def portField (s : State) (p : Nat) (f : Port → Word) : Word :=
  match s.ports[p]? with
  | some q => f q
  | none => 0

/-- What a read of a register returns (10_state.md R31 to R44). CMD reads 0 (R41). -/
def readReg (r : Reg) (s : State) : Word :=
  match r with
  | .qword => s.qword
  | .qcfg => s.qcfgWord
  | .qparam => s.qparamWord
  | .cmd _ => 0x00000000#32
  | .status p => portField s p Port.statusWord
  | .dinHi p => portField s p Port.dinHi
  | .dinLo p => portField s p Port.dinLo
  | .doutHi p => portField s p Port.doutHi
  | .doutLo p => portField s p Port.doutLo

/-- A write of `w` to P[p].CMD: accepted if the port is IDLE (40_command_execution.md R161), else dropped
(R162). -/
def writeCmd (p : Nat) (w : Word) (s : State) : State :=
  match s.ports[p]? with
  | some q =>
    if q.phase = .idle then accept p w s else updPort s p (fun q => { q with ovr := true })
  | none => s

/-- What a write of a register does (30_encoding.md R148). -/
def writeReg (r : Reg) (w : Word) (s : State) : State :=
  match r with
  | .cmd p => writeCmd p w s
  | .dinHi p => updPort s p (fun q => { q with dinHi := w })
  | .dinLo p => updPort s p (fun q => { q with dinLo := w })
  | .qword | .qcfg | .qparam | .status _ | .doutHi _ | .doutLo _ => s

/-- The register an access reaches, if it is served (20_memory.md R81, R84): 32 bits, an aligned offset from
BLOCK_BASE, inside the window and mapped. -/
def Access.target (a : Access) (s : State) : Option Reg :=
  if a.size = 4 ∧ s.blockBase ≤ a.addr ∧ (a.addr - s.blockBase) % 4 = 0 then
    Reg.ofOffset s.ports.length (a.addr - s.blockBase)
  else none

/-- One requester access (20_memory.md R84 to R86). The response is kept in the model's own field `resp`
(log 5). -/
def busAccess (a : Access) (s : State) : State :=
  match Access.target a s with
  | none => { s with resp := some .err }
  | some r =>
    match a.kind with
    | .read => { s with resp := some (.okRead (readReg r s)) }
    | .write w => { writeReg r w s with resp := some .okWrite }

end Sys2Proof.Machine
end

