-- ==== Sys2Proof/Syntax.lean ====
section
/-! DEFINITION. The commands of PRQC: one constructor per row of the opcode table (30_encoding.md R133). -/

namespace Sys2Proof

/-- A legal command. INIT carries its requested capacity, an unsigned integer (R132); no other
command has an operand in its word. -/
inductive Instr where
  | init (cap : Nat)
  | destroy
  | enq
  | tryenq
  | deq
  | trydeq
  | peek
deriving DecidableEq, Repr

end Sys2Proof
end

