-- ==== Sys2Proof/WellFormed.lean ====
section
/-! DEFINITION. Which commands a command word can express. -/

namespace Sys2Proof

/-- R132: INIT's capacity is the 16-bit ARG, 0 to 65535. -/
def WellFormed (i : Instr) : Bool :=
  match i with
  | .init cap => decide (cap < 65536)
  | .destroy => true
  | .enq => true
  | .tryenq => true
  | .deq => true
  | .trydeq => true
  | .peek => true

end Sys2Proof
end

