-- ==== Sys2Proof/Decode.lean ====
section
/-! DEFINITION. The command word: its fields, the decoder that START uses (30_encoding.md R131 to R136,
40_command_execution.md R163), the encoder, and the byte lanes of a 32-bit value (20_memory.md R82). -/

namespace Sys2Proof

/-- R131: bits 31:16. -/
def cmdArg (w : Word) : BitVec 16 := w.extractLsb' 16 16

/-- R131: bits 15:4. -/
def cmdRsvd (w : Word) : BitVec 12 := w.extractLsb' 4 12

/-- R131: bits 3:0. -/
def cmdOp (w : Word) : BitVec 4 := w.extractLsb' 0 4

/-- R134: the words that encode a command. -/
def legal (w : Word) : Bool :=
  decide (1 ≤ (cmdOp w).toNat) && decide ((cmdOp w).toNat ≤ 7) && decide (cmdRsvd w = 0) &&
    (decide (cmdArg w = 0) || decide (cmdOp w = 1))

/-- Why a word is no command (R135), or why bytes hold none. -/
inductive Reject where
  /-- OP is 0 or 8 to 15. -/
  | illegalOp
  /-- A bit of 15:4 is set. -/
  | reservedBits
  /-- ARG is not 0 on a command other than INIT. -/
  | argNotZero
  /-- Fewer than four bytes. -/
  | short
deriving DecidableEq, Repr

/-- A command without an operand: its ARG must be 0 (R131). -/
def decodeBare (w : Word) (i : Instr) : Except Reject Instr :=
  if cmdArg w = 0 then .ok i else .error .argNotZero

/-- R133 to R135: the command a word encodes, or the reason it is illegal. -/
def decodeWord (w : Word) : Except Reject Instr :=
  if cmdRsvd w = 0 then
    match (cmdOp w).toNat with
    | 1 => .ok (.init (cmdArg w).toNat)
    | 2 => decodeBare w .destroy
    | 3 => decodeBare w .enq
    | 4 => decodeBare w .tryenq
    | 5 => decodeBare w .deq
    | 6 => decodeBare w .trydeq
    | 7 => decodeBare w .peek
    | _ => .error .illegalOp
  else .error .reservedBits

/-- R82: a 32-bit value as bytes, the byte at the lowest offset first (bits 31:24). -/
def lanes (w : Word) : List Byte :=
  [w.extractLsb' 24 8, w.extractLsb' 16 8, w.extractLsb' 8 8, w.extractLsb' 0 8]

/-- R82: the 32-bit value of four byte lanes. -/
def ofLanes (b0 b1 b2 b3 : Byte) : Word := b0 ++ b1 ++ b2 ++ b3

/-- The decoder over bytes: the command of the first four byte lanes and the bytes after it (R136: every
command is one 32-bit word). -/
def decodeBytes (bs : List Byte) : Except Reject (Instr × List Byte) :=
  match bs with
  | b0 :: b1 :: b2 :: b3 :: rest => (decodeWord (ofLanes b0 b1 b2 b3)).map (fun i => (i, rest))
  | _ => .error .short

/-- R133: the OP of a command. -/
def opcode (i : Instr) : BitVec 4 :=
  match i with
  | .init _ => 0x1#4
  | .destroy => 0x2#4
  | .enq => 0x3#4
  | .tryenq => 0x4#4
  | .deq => 0x5#4
  | .trydeq => 0x6#4
  | .peek => 0x7#4

/-- R131, R132: the ARG of a command. -/
def argOf (i : Instr) : BitVec 16 :=
  match i with
  | .init cap => BitVec.ofNat 16 cap
  | .destroy | .enq | .tryenq | .deq | .trydeq | .peek => 0#16

/-- R131: the command word of a command. -/
def encode (i : Instr) : Word := argOf i ++ 0#12 ++ opcode i

/-- The command word as the byte lanes of a bus carry it (R82). -/
def encodeBytes (i : Instr) : List Byte := lanes (encode i)

/-- The instruction the decoder reads from a table row's word of `nbits` bits (at most the one command
word of 32 bits, R136), laid out in the bus's byte lanes. -/
def decodeTableWord (nbits w : Nat) : Option Instr :=
  match decodeBytes (lanes (BitVec.ofNat 32 (w % 2 ^ nbits))) with
  | .ok (i, _) => some i
  | .error _ => none

end Sys2Proof
end

