-- ==== Sys2Proof/Machine/Micro.lean ====
section
/-! DEFINITION. The micro-steps that the phases name (files 42 to 44 of the spec), and the choice of the
micro-step by the phase (40_command_execution.md R160). In each, `p` is the port, `q` its record as the
step finds it (its latches), and `s` the state. -/

namespace Sys2Proof.Machine

open Sys2Proof

/-- START of the commands that need a queue and a loop: 40_command_execution.md R164, then R165. -/
def startOnQueue (p : Nat) (ph : Phase) (s : State) : State :=
  if s.valid then setPhase p ph s else complete p .nullObject s

/-- 42_enqueue.md R212. -/
def e1LL (op : BitVec 4) (p : Nat) (s : State) : State :=
  let (v, s) := llw p s
  let s := updPort s p (fun q => { q with v := v })
  if phase1Cond s.cap v then
    updPort s p (fun q =>
      { q with s := slotIndex (Qword.wp v), vn := phase1Word s.cap v, phase := .e1SC })
  else if op = opcode .tryenq then complete p .retry s
  else setPhase p .e1Yield s

/-- 42_enqueue.md R215. -/
def e1SC (p : Nat) (q : Port) (s : State) : State :=
  let (stored, s) := scw p q.vn s
  if stored then setPhase p .eWrite s else setPhase p .e1LL s

/-- 42_enqueue.md R221. -/
def e1Yield (p : Nat) (s : State) : State := setPhase p .e1LL s

/-- 42_enqueue.md R216. -/
def eWrite (p : Nat) (q : Port) (s : State) : Result :=
  slotWrite q.s.toNat q.din s (fun s => setPhase p .e2LL s)

/-- 42_enqueue.md R217. -/
def e2LL (p : Nat) (s : State) : State :=
  let (v, s) := llw p s
  let s := updPort s p (fun q => { q with v := v })
  if phase2Cond v then updPort s p (fun q => { q with vn := phase2Word v, phase := .e2SC })
  else setPhase p .e2Yield s

/-- 42_enqueue.md R220. -/
def e2SC (p : Nat) (q : Port) (s : State) : State :=
  let (stored, s) := scw p q.vn s
  if stored then complete p .success s else setPhase p .e2LL s

/-- 42_enqueue.md R221. -/
def e2Yield (p : Nat) (s : State) : State := setPhase p .e2LL s

/-- 43_dequeue.md R241. -/
def dLL (op : BitVec 4) (p : Nat) (s : State) : State :=
  let (v, s) := llw p s
  let s := updPort s p (fun q => { q with v := v })
  if deqCond v then
    updPort s p (fun q =>
      { q with s := slotIndex (Qword.rp v), vn := deqWord s.cap v, phase := .dRead })
  else if op = opcode .trydeq then complete p .retry s
  else setPhase p .dYield s

/-- 43_dequeue.md R245. -/
def dRead (p : Nat) (q : Port) (s : State) : Result :=
  slotRead q.s.toNat s (fun d => updPort s p (fun q => { q with d := d, phase := .dSC }))

/-- 43_dequeue.md R244. -/
def dSC (p : Nat) (q : Port) (s : State) : State :=
  let (stored, s) := scw p q.vn s
  if stored then complete p .success (setDout p q.d s) else setPhase p .dLL s

/-- 43_dequeue.md R246. -/
def dYield (p : Nat) (s : State) : State := setPhase p .dLL s

/-- 44_peek.md R261. -/
def pRdw (p : Nat) (s : State) : State :=
  let v := rdw s
  let s := updPort s p (fun q => { q with v := v })
  if (Qword.rc v).toNat = 0 then complete p .noData s
  else updPort s p (fun q => { q with s := slotIndex (Qword.rp v), phase := .pRead })

/-- 44_peek.md R262. -/
def pRead (p : Nat) (q : Port) (s : State) : Result :=
  slotRead q.s.toNat s (fun d =>
    complete p .success (setDout p d (updPort s p (fun q => { q with d := d }))))

/-- 40_command_execution.md R160: the one micro-step that the phase of port `p` names, for a command whose
OP is `op` and whose START step gives `onStart`. An IDLE port takes no step (log 3). -/
def runPhase (op : BitVec 4) (onStart : State) (p : Nat) (q : Port) (s : State) : Result :=
  match q.phase with
  | .idle => .next s
  | .start => .next onStart
  | .e1LL => .next (e1LL op p s)
  | .e1SC => .next (e1SC p q s)
  | .e1Yield => .next (e1Yield p s)
  | .eWrite => eWrite p q s
  | .e2LL => .next (e2LL p s)
  | .e2SC => .next (e2SC p q s)
  | .e2Yield => .next (e2Yield p s)
  | .dLL => .next (dLL op p s)
  | .dRead => dRead p q s
  | .dSC => .next (dSC p q s)
  | .dYield => .next (dYield p s)
  | .pRdw => .next (pRdw p s)
  | .pRead => pRead p q s

/-- A turn of a port whose latched word is no command: START completes it with ILLEGAL_CMD
(40_command_execution.md R163). In any other phase, which no run reaches with such a word, the phase names
the micro-step as ever (R160, log 11). -/
def execIllegal (s : State) : Result :=
  onTurn s fun p q => runPhase (cmdOp q.cw) (complete p .illegalCmd s) p q s

end Sys2Proof.Machine
end

