-- ==== Sys2Proof/Machine/Dequeue.lean ====
section
/-! DEFINITION. DEQ and TRYDEQ (43_dequeue.md): one micro-step of the command, the one its port's phase names. -/

namespace Sys2Proof.Machine

open Sys2Proof

/-- DEQ (43_dequeue.md R240). -/
def execDeq (s : State) : Result :=
  onTurn s fun p q => runPhase (opcode .deq) (startOnQueue p .dLL s) p q s

/-- TRYDEQ (43_dequeue.md R240, R247). -/
def execTrydeq (s : State) : Result :=
  onTurn s fun p q => runPhase (opcode .trydeq) (startOnQueue p .dLL s) p q s

end Sys2Proof.Machine
end

