-- ==== Sys2Proof/Machine/Enqueue.lean ====
section
/-! DEFINITION. ENQ and TRYENQ (42_enqueue.md): one micro-step of the command, the one its port's phase names. -/

namespace Sys2Proof.Machine

open Sys2Proof

/-- ENQ (42_enqueue.md R210). -/
def execEnq (s : State) : Result :=
  onTurn s fun p q => runPhase (opcode .enq) (startOnQueue p .e1LL s) p q s

/-- TRYENQ (42_enqueue.md R211). -/
def execTryenq (s : State) : Result :=
  onTurn s fun p q => runPhase (opcode .tryenq) (startOnQueue p .e1LL s) p q s

end Sys2Proof.Machine
end

