-- ==== Sys2Proof/Machine/Lifecycle.lean ====
section
/-! DEFINITION. INIT and DESTROY (41_lifecycle.md). Both finish inside their START step. -/

namespace Sys2Proof.Machine

open Sys2Proof

/-- 41_lifecycle.md R191. -/
def initStart (cap : Nat) (p : Nat) (s : State) : State :=
  if othersBusy p s then complete p .busy s
  else if Config.capMax < cap then complete p .tooMany s
  else if cap = 0 then complete p .badParam s
  else
    complete p .success
      (clearReservations
        { s with qword := pack 0 0 0 0, cap := BitVec.ofNat 7 cap, valid := true })

/-- 41_lifecycle.md R195, after the test of 40_command_execution.md R164. -/
def destroyStart (p : Nat) (s : State) : State :=
  if !s.valid then complete p .nullObject s
  else if othersBusy p s then complete p .busy s
  else
    complete p .success
      (clearReservations { s with qword := 0x00000000#32, cap := 0, valid := false })

/-- INIT with the requested capacity `cap` (41_lifecycle.md R190). -/
def execInit (cap : Nat) (s : State) : Result :=
  onTurn s fun p q => runPhase (opcode (.init cap)) (initStart cap p s) p q s

/-- DESTROY (41_lifecycle.md R195). -/
def execDestroy (s : State) : Result :=
  onTurn s fun p q => runPhase (opcode .destroy) (destroyStart p s) p q s

end Sys2Proof.Machine
end

