-- ==== Sys2Proof/Machine/Peek.lean ====
section
/-! DEFINITION. PEEK (44_peek.md): one micro-step of the command, the one its port's phase names. -/

namespace Sys2Proof.Machine

open Sys2Proof

/-- PEEK (44_peek.md R260). -/
def execPeek (s : State) : Result :=
  onTurn s fun p q => runPhase (opcode .peek) (startOnQueue p .pRdw s) p q s

end Sys2Proof.Machine
end

