-- ==== Sys2Proof/Machine/Dispatch.lean ====
section
/-! DEFINITION. The meaning of each command: one micro-step of the port whose turn it is
(40_command_execution.md R160, R165). -/

namespace Sys2Proof.Machine

open Sys2Proof

def exec (i : Instr) (s : State) : Host.Outcome State Fault Refusal :=
  match i with
  | .init cap => Sys2Proof.Machine.execInit cap s
  | .destroy => Sys2Proof.Machine.execDestroy s
  | .enq => Sys2Proof.Machine.execEnq s
  | .tryenq => Sys2Proof.Machine.execTryenq s
  | .deq => Sys2Proof.Machine.execDeq s
  | .trydeq => Sys2Proof.Machine.execTrydeq s
  | .peek => Sys2Proof.Machine.execPeek s

end Sys2Proof.Machine
end

