-- ==== Sys2Proof/Machine/Fetch.lean ====
section
/-! DEFINITION. What the next step is about: the choice of the agent (40_command_execution.md R160) and the
command that the port whose turn it is has latched (R163). -/

namespace Sys2Proof.Machine

open Sys2Proof

/-- The next choice and the state without it: the head of the agenda, or a free choice when the agenda is
empty (log 1, log 2). -/
def nextEvent (s : State) : Event × State :=
  match s.agenda with
  | e :: es => (e, { s with agenda := es })
  | [] => (Config.freeEvent s.ticks, { s with ticks := s.ticks + 1 })

/-- The command, legal or not, in progress on the port whose turn it is: none if the port is IDLE or not
there. -/
def fetch (s : State) : Option (Except Reject Instr) :=
  match s.ports[s.turn.port]? with
  | some q => if q.phase = .idle then none else some (decodeWord q.cw)
  | none => none

/-- Gives port `p` the turn, with the draw of its micro-step (log 4). -/
def takeTurn (p : Nat) (spurious : Bool) (s : State) : State :=
  { s with turn := ⟨p, spurious⟩ }

/-- The word `w` stands latched in port 0, just accepted (40_command_execution.md R161), and port 0 has
the next turn (log 10). -/
def placeCommand (w : Word) (s : State) : State :=
  { accept 0 w s with agenda := .port 0 false :: s.agenda }

end Sys2Proof.Machine
end

