-- ==== Sys2Proof/Machine/Turns.lean ====
section
/-! DEFINITION. The three kinds of step (40_command_execution.md R160): a port's micro-step, a register access, reset. -/

namespace Sys2Proof.Machine

open Sys2Proof

/-- The micro-step of the port whose turn it is: of the command it has latched. An IDLE port takes no step
(log 3). -/
def runTurn (s : State) : Result :=
  match fetch s with
  | none => .next s
  | some (.ok i) => exec i s
  | some (.error _) => execIllegal s

/-- One step of the given kind. -/
def runEvent (e : Event) (s : State) : Result :=
  match e with
  | .access a => .next (busAccess a s)
  | .port p spurious => runTurn (takeTurn p spurious s)
  | .reset => .next (resetBlock s)

end Sys2Proof.Machine
end

