-- ==== Sys2Proof/Machine/Step.lean ====
section
/-! DEFINITION. One step of PRQC (40_command_execution.md R160, 20_memory.md R97), and how the host places a
command to be run next. -/

namespace Sys2Proof.Machine

open Sys2Proof

/-- One atomic step: the next choice is taken and made. -/
def step (s : State) : Host.Outcome State Fault Refusal :=
  runEvent (nextEvent s).1 (nextEvent s).2

/-- The state with the command word `w` (bits above `nbits` zero) latched where the next step runs it:
in port 0, which has the next turn (log 10). -/
def State.withFetchWord (s : State) (nbits w : Nat) : State :=
  placeCommand (BitVec.ofNat 32 (w % 2 ^ nbits)) s

end Sys2Proof.Machine
end

