-- ==== Sys2Proof/Machine/Requester.lean ====
section
/-! DEFINITION. The requester assembly of 30_encoding.md R150 and its pseudo-instructions (R151). A requester
stands outside PRQC: its registers and its program are no part of State (log 14). -/

namespace Sys2Proof.Machine

open Sys2Proof

/-- R150. A label is a number here. -/
inductive Asm where
  | wr (r : Reg) (v : Word)
  | rd (k : Fin 16) (r : Reg)
  | bnz (k : Fin 16) (bit : Fin 32) (name : Nat)
  | label (name : Nat)
deriving DecidableEq, Repr

/-- A requester: r0..r15, its program and its place in it. -/
structure Requester where
  regs : Vector Word 16
  pc : Nat
  prog : List Asm
deriving DecidableEq, Repr

/-- R151. -/
inductive Pseudo where
  | cmd (p : Nat) (i : Instr)
  | wait (p : Nat)
  | push (p : Nat) (v : Item)
  | pull (p : Nat)
  | init (p n : Nat)
  | destroy (p : Nat)
  | enq (p : Nat) (v : Item)
  | tryenq (p : Nat) (v : Item)
  | deq (p : Nat)
  | trydeq (p : Nat)
  | peek (p : Nat)
deriving DecidableEq, Repr

/-- R151: `cmd p, M`. -/
def asmCmd (p : Nat) (i : Instr) : List Asm := [.wr (.cmd p) (encode i)]

/-- R151: `wait p`, with the number `l` for its label. -/
def asmWait (p l : Nat) : List Asm := [.label l, .rd 15 (.status p), .bnz 15 31 l]

/-- R151: `push p, v`. -/
def asmPush (p : Nat) (v : Item) : List Asm :=
  [.wr (.dinHi p) (itemHi v), .wr (.dinLo p) (itemLo v)]

/-- R151: `pull p`. -/
def asmPull (p : Nat) : List Asm := [.rd 13 (.doutHi p), .rd 14 (.doutLo p)]

/-- R151: the expansion of a pseudo-instruction, with the number `l` for the label of its wait loop. -/
def Pseudo.expand (l : Nat) (i : Pseudo) : List Asm :=
  match i with
  | .cmd p i => asmCmd p i
  | .wait p => asmWait p l
  | .push p v => asmPush p v
  | .pull p => asmPull p
  | .init p n => asmCmd p (.init n) ++ asmWait p l
  | .destroy p => asmCmd p .destroy ++ asmWait p l
  | .enq p v => asmPush p v ++ asmCmd p .enq ++ asmWait p l
  | .tryenq p v => asmPush p v ++ asmCmd p .tryenq ++ asmWait p l
  | .deq p => asmCmd p .deq ++ asmWait p l ++ asmPull p
  | .trydeq p => asmCmd p .trydeq ++ asmWait p l ++ asmPull p
  | .peek p => asmCmd p .peek ++ asmWait p l ++ asmPull p

/-- A program of pseudo-instructions, each wait loop with a label of its own. -/
def assemble (l : Nat) (is : List Pseudo) : List Asm :=
  match is with
  | [] => []
  | i :: rest => i.expand l ++ assemble (l + 1) rest

/-- The 32-bit access to a register at its place in the window (20_memory.md R81). -/
def regAccess (s : State) (r : Reg) (k : AccessKind) : Access :=
  ⟨s.blockBase + r.offset, 4, k⟩

/-- Where a label stands in a program: the first `label` of that name, the end if there is none. -/
def labelIndex (name : Nat) (prog : List Asm) : Nat :=
  prog.findIdx (fun a => decide (a = .label name))

/-- The requester's next instruction. An access is one step of PRQC; a branch or a label is none. A program
that has ended does nothing. A read that gets ERR leaves the register as it was (log 14). -/
def Requester.step (r : Requester) (s : State) : Requester × State :=
  match r.prog[r.pc]? with
  | none => (r, s)
  | some (.label _) => ({ r with pc := r.pc + 1 }, s)
  | some (.wr reg v) => ({ r with pc := r.pc + 1 }, busAccess (regAccess s reg (.write v)) s)
  | some (.rd k reg) =>
    let t := busAccess (regAccess s reg .read) s
    match t.resp with
    | some (.okRead d) => ({ r with pc := r.pc + 1, regs := r.regs.set k d }, t)
    | some .okWrite => ({ r with pc := r.pc + 1 }, t)
    | some .err => ({ r with pc := r.pc + 1 }, t)
    | none => ({ r with pc := r.pc + 1 }, t)
  | some (.bnz k bit name) =>
    if (r.regs.get k).getLsbD bit then ({ r with pc := labelIndex name r.prog }, s)
    else ({ r with pc := r.pc + 1 }, s)

end Sys2Proof.Machine
end

