-- ==== Sys2Proof/Safety.lean ====
section
/-! DEFINITION. The terms in which claims speak: a port at a phase, the invariants of 10_state.md R51 to R56,
the items of the queue, runs and the fairness assumptions of 40_command_execution.md R170. -/

namespace Sys2Proof.Safety

open Sys2Proof Sys2Proof.Machine

/-- The port whose turn it is has the record `q`, at phase `ph`. -/
def Running (s : State) (q : Port) (ph : Phase) : Prop :=
  s.ports[s.turn.port]? = some q ∧ q.phase = ph

/-- Every port other than the one whose turn it is stands IDLE (41_lifecycle.md R197). -/
def Alone (s : State) : Prop :=
  ∀ r q, r ≠ s.turn.port → s.ports[r]? = some q → q.phase = .idle

/-- The record of a port whose command has just ended with a code (40_command_execution.md R166). -/
def ended (q : Port) (code : Byte) : Port :=
  { q with code := code, busy := false, res := false, phase := .idle }

/-- The state in which only the record of the port whose turn it is has changed, to `q`. -/
def withRunning (s : State) (q : Port) : State :=
  { s with ports := s.ports.set s.turn.port q }

/-- The state in which `w` was stored to QWORD: every reservation is gone (20_memory.md R92). -/
def storedQword (s : State) (w : Word) : State :=
  { s with qword := w, ports := s.ports.map (fun q => { q with res := false }) }

/-- The port a register belongs to, if it is a port's (30_encoding.md R142). -/
def regPort (r : Reg) : Option Nat :=
  match r with
  | .qword | .qcfg | .qparam => none
  | .cmd p | .status p | .dinHi p | .dinLo p | .doutHi p | .doutLo p => some p

/-- What a micro-step leaves alone outside the queue and its own port: the OPEN parameters, the model's own
fields, and all of every other port but its reservation (60_exceptions.md R283). -/
def KeepsOthers (s t : State) : Prop :=
  t.blockBase = s.blockBase ∧ t.agenda = s.agenda ∧ t.ticks = s.ticks ∧ t.turn = s.turn ∧
  t.resp = s.resp ∧ t.ports.length = s.ports.length ∧
  ∀ r x, r ≠ s.turn.port → s.ports[r]? = some x → ∃ b, t.ports[r]? = some { x with res := b }

/-- The phases a command goes through after START (42_enqueue.md R210, R211; 43_dequeue.md R240; 44_peek.md
R260; INIT and DESTROY end in START, 40_command_execution.md R165). -/
def ownPhase (i : Instr) (ph : Phase) : Bool :=
  match i with
  | .init _ | .destroy => false
  | .enq | .tryenq =>
    match ph with
    | .e1LL | .e1SC | .e1Yield | .eWrite | .e2LL | .e2SC | .e2Yield => true
    | _ => false
  | .deq | .trydeq =>
    match ph with
    | .dLL | .dRead | .dSC | .dYield => true
    | _ => false
  | .peek =>
    match ph with
    | .pRdw | .pRead => true
    | _ => false

/-- The phases in which an enqueue is in its window (10_state.md R54). -/
def windowPhase (ph : Phase) : Bool :=
  match ph with
  | .eWrite | .e2LL | .e2SC | .e2Yield => true
  | _ => false

/-- The phases whose micro-step is a store-conditional. -/
def storePhase (ph : Phase) : Bool :=
  match ph with
  | .e1SC | .e2SC | .dSC => true
  | _ => false

/-- The OPEN parameters are in the range the spec admits (00_scope.md R9, 20_memory.md R81). -/
def ParamsInv (s : State) : Prop :=
  1 ≤ s.ports.length ∧ s.ports.length ≤ 255 ∧ s.blockBase % 4 = 0

/-- 10_state.md R45 (BUSY exactly when not IDLE), R46 (an IDLE port holds no reservation) and 60_exceptions.md
R271, R273 (CODE is one of the codes that are ever written), for one port. -/
def StatusOk (q : Port) : Prop :=
  q.busy = decide (q.phase ≠ .idle) ∧ (q.phase = .idle → q.res = false) ∧
    q.code ∈ [0x00#8, 0x01#8, 0x03#8, 0x04#8, 0x06#8, 0x07#8, 0x08#8, 0x09#8]

/-- Every port's STATUS and reservation agree with its phase. -/
def StatusInv (s : State) : Prop := ∀ q ∈ s.ports, StatusOk q

/-- A port past START runs a legal command and is at a phase of that command. -/
def CommandOk (q : Port) : Prop :=
  q.phase = .idle ∨ q.phase = .start ∨ ∃ i, decodeWord q.cw = .ok i ∧ ownPhase i q.phase = true

/-- Every port is at a phase of its own command. -/
def CommandInv (s : State) : Prop := ∀ q ∈ s.ports, CommandOk q

/-- 10_state.md R51: no queue. -/
def NoQueue (s : State) : Prop :=
  s.qword = 0x00000000#32 ∧ s.cap = 0 ∧
    ∀ q ∈ s.ports, (q.phase = .idle ∨ q.phase = .start) ∧ q.res = false

/-- 10_state.md R52 and R53: the fields of QWORD while VALID = 1. -/
def FieldsOk (s : State) : Prop :=
  1 ≤ s.cap.toNat ∧ s.cap.toNat ≤ 127 ∧
  (Qword.rc s.qword).toNat ≤ (Qword.wc s.qword).toNat ∧
  (Qword.wc s.qword).toNat ≤ s.cap.toNat ∧
  (Qword.wc s.qword).toNat ≤ (Qword.rc s.qword).toNat + 1 ∧
  (Qword.wp s.qword).toNat < s.cap.toNat ∧ (Qword.rp s.qword).toNat < s.cap.toNat ∧
  (Qword.wp s.qword).toNat =
    ((Qword.rp s.qword).toNat + (Qword.wc s.qword).toNat) % s.cap.toNat

/-- 10_state.md R54: wc − rc is the number of ports in the window. -/
def WindowOk (s : State) : Prop :=
  s.ports.countP (fun q => windowPhase q.phase) + (Qword.rc s.qword).toNat =
    (Qword.wc s.qword).toNat

/-- What a port's latches say while its reservation holds, and the slot a port in the window has reserved
(10_state.md R55). -/
def LatchOk (s : State) (q : Port) : Prop :=
  (q.phase = .e1SC → q.res = true →
    phase1Cond s.cap s.qword = true ∧ q.vn = phase1Word s.cap s.qword ∧
      q.s = slotIndex (Qword.wp s.qword)) ∧
  (q.phase = .e2SC → q.res = true → q.vn = phase2Word s.qword) ∧
  (q.phase = .dRead ∨ q.phase = .dSC → q.res = true →
    deqCond s.qword = true ∧ q.vn = deqWord s.cap s.qword ∧
      q.s = slotIndex (Qword.rp s.qword)) ∧
  (windowPhase q.phase = true →
    q.s.toNat = ((Qword.rp s.qword).toNat + (Qword.rc s.qword).toNat) % s.cap.toNat)

/-- 10_state.md R51 to R54, with what the latches say. -/
def QueueInv (s : State) : Prop :=
  (s.valid = false → NoQueue s) ∧
  (s.valid = true → FieldsOk s ∧ WindowOk s ∧ ∀ q ∈ s.ports, LatchOk s q)

/-- 10_state.md R55 and R56, for one port: the slots its latch `s` names are written, with the item they
must hold. -/
def SlotOk (s : State) (q : Port) : Prop :=
  (q.phase = .e2LL ∨ q.phase = .e2SC ∨ q.phase = .e2Yield →
    s.slots.read q.s.toNat = some q.din) ∧
  (q.phase = .dRead ∨ q.phase = .dSC ∨ q.phase = .pRead →
    (s.slots.read q.s.toNat).isSome = true) ∧
  (q.phase = .dSC → q.res = true → s.slots.read q.s.toNat = some q.d)

/-- 10_state.md R55 and R56: every committed slot is written, and each port's latched slot is. -/
def SlotInv (s : State) : Prop :=
  (s.valid = true → ∀ k, k < (Qword.rc s.qword).toNat →
    (s.slots.read (((Qword.rp s.qword).toNat + k) % s.cap.toNat)).isSome = true) ∧
  ∀ q ∈ s.ports, SlotOk s q

/-- All the invariants together. -/
def BlockInv (s : State) : Prop :=
  ParamsInv s ∧ s.slots.wf = true ∧ StatusInv s ∧ CommandInv s ∧ QueueInv s ∧ SlotInv s

/-- The committed items, oldest first: the slots rp, rp + 1, ... of 10_state.md R55. -/
def contents (s : State) : List (Option Item) :=
  (List.range (Qword.rc s.qword).toNat).map
    (fun k => s.slots.read (((Qword.rp s.qword).toNat + k) % s.cap.toNat))

/-- `k` steps, stopping at the first that does not answer a next state. -/
def steps (k : Nat) (s : State) : Result :=
  match k with
  | 0 => .next s
  | k + 1 =>
    match step s with
    | .next t => steps k t
    | .fault f => .fault f
    | .refused r => .refused r

/-- An endless run: the choices and the states between them (20_memory.md R97: one total order of steps). -/
def IsRun (e : Nat → Event) (σ : Nat → State) : Prop :=
  ∀ n, runEvent (e n) (σ n) = .next (σ (n + 1))

/-- At time `n`, port `p` has the record `q`. -/
def At (σ : Nat → State) (n p : Nat) (q : Port) : Prop := (σ n).ports[p]? = some q

/-- The choice at time `n` is a turn of port `p`. -/
def TurnOf (e : Nat → Event) (n p : Nat) : Prop := ∃ spurious, e n = .port p spurious

/-- FAIR-PORT (40_command_execution.md R170): a port that is not IDLE takes a step eventually. -/
def FairPort (e : Nat → Event) (σ : Nat → State) : Prop :=
  ∀ p n q, At σ n p q → q.phase ≠ .idle → ∃ m, n ≤ m ∧ TurnOf e m p

/-- FINITE-SPURIOUS (R170): from some time on no store-conditional of a port draws `spurious`. -/
def FiniteSpurious (e : Nat → Event) (σ : Nat → State) : Prop :=
  ∀ p, ∃ n, ∀ m q, n ≤ m → At σ m p q → storePhase q.phase = true → e m ≠ .port p true

/-- The LL/SC loops of PRQC: the two of the enqueue and the one of the dequeue (42_enqueue.md R212, R217;
43_dequeue.md R241). -/
inductive Loop where
  | reserve | commit | dequeue
deriving DecidableEq, Repr

/-- The loop a phase belongs to, if any. -/
def loopOf (ph : Phase) : Option Loop :=
  match ph with
  | .e1LL | .e1SC | .e1Yield => some .reserve
  | .e2LL | .e2SC | .e2Yield => some .commit
  | .dLL | .dRead | .dSC | .dYield => some .dequeue
  | .idle | .start | .eWrite | .pRdw | .pRead => none

/-- Port `p` is in loop `l` at time `n`. -/
def InLoop (σ : Nat → State) (p : Nat) (l : Loop) (n : Nat) : Prop :=
  ∃ q, At σ n p q ∧ loopOf q.phase = some l

/-- Port `p` makes a store-conditional at time `m`, with the record `q`. -/
def StoreAttempt (e : Nat → Event) (σ : Nat → State) (p m : Nat) (q : Port) : Prop :=
  At σ m p q ∧ storePhase q.phase = true ∧ TurnOf e m p

/-- The store-conditionals that port `p` makes in the loop `l` it enters after time `n`: it has been in the
loop at every time since. -/
def AttemptOfLoop (e : Nat → Event) (σ : Nat → State) (p : Nat) (l : Loop) (n m : Nat) (q : Port) : Prop :=
  n < m ∧ (∀ k, n < k → k ≤ m → InLoop σ p l k) ∧ StoreAttempt e σ p m q

/-- FINITE-CONTENTION (R170; log 12): every LL/SC loop that makes a store-conditional makes some whose
reservation still holds, that is, with no store by another port since its load-reserve (20_memory.md R92).
The draw of that one is not constrained: it may be spurious. -/
def FiniteContention (e : Nat → Event) (σ : Nat → State) : Prop :=
  ∀ p l n, ¬InLoop σ p l n → (∃ m q, AttemptOfLoop e σ p l n m q) →
    ∃ m q, AttemptOfLoop e σ p l n m q ∧ q.res = true

/-- Port `p` is IDLE at time `n` or later: the command it had at time `n` has ended (R171). -/
def EndsAfter (σ : Nat → State) (n p : Nat) : Prop := ∃ m q, n ≤ m ∧ At σ m p q ∧ q.phase = .idle

/-- At time `n` or later a store-conditional of port `p` fails only because its draw is `spurious`: its
reservation still holds (20_memory.md R91, R102). -/
def FailsSpuriously (e : Nat → Event) (σ : Nat → State) (n p : Nat) : Prop :=
  ∃ m q, n ≤ m ∧ StoreAttempt e σ p m q ∧ q.res = true ∧ e m = .port p true

/-- Port `p` makes store-conditionals for ever, and from some time on each has lost its reservation
(20_memory.md R92, R101). -/
def ContendedForEver (e : Nat → Event) (σ : Nat → State) (p : Nat) : Prop :=
  (∀ n, ∃ m q, n ≤ m ∧ StoreAttempt e σ p m q) ∧
  ∃ n, ∀ m q, n ≤ m → StoreAttempt e σ p m q → q.res = false

/-- Port `p` has a command to run on a queue that exists: it is at START of it with VALID = 1, or in the
loop `l`. -/
def StartsOrIn (s : State) (l : Loop) (q : Port) : Prop :=
  (q.phase = .start ∧ s.valid = true) ∨ loopOf q.phase = some l

/-- The queue is full, or a port other than `p` is in its window (42_enqueue.md R213). -/
def FullOrInWindow (s : State) (p : Nat) : Prop :=
  (Qword.wc s.qword).toNat = s.cap.toNat ∨
    ∃ r x, r ≠ p ∧ s.ports[r]? = some x ∧ windowPhase x.phase = true

/-- 40_command_execution.md R171: every port is IDLE. -/
def Quiescent (s : State) : Prop := ∀ q ∈ s.ports, q.phase = .idle

end Sys2Proof.Safety
end

