-- ==== Sys2Proof/Certificates/Slice0/Obligations.lean ====
section
/-! DEFINITION. The statements about PRQC that are to be proved, in the terms of Safety.lean. A statement speaks of one
micro-step through `exec` and `Running` (the port whose turn it is stands at a phase), of one step of any kind through
`runEvent` and `step`. -/

open Sys2Proof Sys2Proof.Machine Sys2Proof.Safety

/-! ### Encoding -/

/-- 30_encoding.md section 1 and 2: the decoder reads back every well-formed command from its word and from
its bytes. -/
def Obligations.DecodeOfEncodeIsTheCommand : Prop :=
  ∀ (i : Instr) (rest : List Byte), WellFormed i = true →
    decodeWord (encode i) = .ok i ∧ decodeBytes (encodeBytes i ++ rest) = .ok (i, rest)

/-- 30_encoding.md section 1 and 2: no bit of a word that decodes is lost. -/
def Obligations.EncodeOfDecodeIsTheWord : Prop :=
  ∀ (w : Word) (i : Instr), decodeWord w = .ok i → encode i = w ∧ WellFormed i = true

/-- 30_encoding.md R134: which words are legal, by fields and by match and mask, with INIT's operand R132;
START tests it. -/
def Obligations.LegalWordsAreTheCommands : Prop :=
  ∀ w : Word,
    ((∃ i, decodeWord w = .ok i) ↔
      (1 ≤ (w.extractLsb' 0 4).toNat ∧ (w.extractLsb' 0 4).toNat ≤ 7) ∧ w.extractLsb' 4 12 = 0#12 ∧
        (w.extractLsb' 16 16 = 0#16 ∨ w.extractLsb' 0 4 = 1#4)) ∧
    (∀ cap, decodeWord w = .ok (.init cap) ↔
      w &&& 0x0000FFFF#32 = 0x00000001#32 ∧ cap = (w.extractLsb' 16 16).toNat) ∧
    (decodeWord w = .ok .destroy ↔ w = 0x00000002#32) ∧
    (decodeWord w = .ok .enq ↔ w = 0x00000003#32) ∧
    (decodeWord w = .ok .tryenq ↔ w = 0x00000004#32) ∧
    (decodeWord w = .ok .deq ↔ w = 0x00000005#32) ∧
    (decodeWord w = .ok .trydeq ↔ w = 0x00000006#32) ∧
    (decodeWord w = .ok .peek ↔ w = 0x00000007#32) ∧
    (∀ s q, Running s q .start → q.cw = w →
      (∀ i, decodeWord w = .ok i → runTurn s = exec i s) ∧
      ((∀ i, decodeWord w ≠ .ok i) → runTurn s = .next (withRunning s (ended q 0x09#8))))

/-- 30_encoding.md R135, 40_command_execution.md R163: START ends an illegal word with ILLEGAL_CMD, and nothing
else changes. -/
def Obligations.IllegalWordsEndWithIllegalCmd : Prop :=
  ∀ s q, Running s q .start →
    ((q.cw.extractLsb' 0 4).toNat = 0 ∨ 8 ≤ (q.cw.extractLsb' 0 4).toNat ∨
      q.cw.extractLsb' 4 12 ≠ 0#12 ∨
      (q.cw.extractLsb' 16 16 ≠ 0#16 ∧ q.cw.extractLsb' 0 4 ≠ 1#4)) →
    runTurn s = .next (withRunning s (ended q 0x09#8))

/-- 30_encoding.md R152: worked encodings. -/
def Obligations.WorkedEncodingsDecode : Prop :=
  decodeWord 0x00010001#32 = .ok (.init 1) ∧ decodeWord 0x00030001#32 = .ok (.init 3) ∧
  decodeWord 0x007F0001#32 = .ok (.init 127) ∧ decodeWord 0x00800001#32 = .ok (.init 128) ∧
  decodeWord 0x00000001#32 = .ok (.init 0) ∧ decodeWord 0x00000002#32 = .ok .destroy ∧
  decodeWord 0x00000003#32 = .ok .enq ∧ decodeWord 0x00000004#32 = .ok .tryenq ∧
  decodeWord 0x00000005#32 = .ok .deq ∧ decodeWord 0x00000006#32 = .ok .trydeq ∧
  decodeWord 0x00000007#32 = .ok .peek ∧
  decodeWord 0x00000000#32 = .error .illegalOp ∧ decodeWord 0x00000008#32 = .error .illegalOp ∧
  decodeWord 0x00000013#32 = .error .reservedBits ∧ decodeWord 0x00010003#32 = .error .argNotZero

/-- 20_memory.md section 2: the byte lanes of QWORD are wc, wp, rc, rp in that order, and a command
decodes from the lanes of its word. -/
def Obligations.ByteLanesAreBigEndian : Prop :=
  (∀ wc wp rc rp : Byte, lanes (pack wc wp rc rp) = [wc, wp, rc, rp]) ∧
  ∀ (w : Word) (rest : List Byte),
    decodeBytes (lanes w ++ rest) = (decodeWord w).map (fun i => (i, rest))

/-! ### Steps, reset and the register interface -/

/-- 40_command_execution.md R160: a turn is the micro-step of the port it names. For a busy port it is one of
the command it has latched, and at START a latched word that is no command ends with ILLEGAL_CMD. The
agenda and the turn are the model's own (logs 1, 4, 10). -/
def Obligations.StepRunsTheLatchedCommand : Prop :=
  ∀ s p b rest, s.agenda = .port p b :: rest →
    step s = runTurn { s with agenda := rest, turn := ⟨p, b⟩ } ∧
    ∀ q, s.ports[p]? = some q →
      (∀ i, q.phase ≠ .idle → decodeWord q.cw = .ok i →
        step s = exec i { s with agenda := rest, turn := ⟨p, b⟩ }) ∧
      (q.phase = .start → (∀ i, decodeWord q.cw ≠ .ok i) →
        step s = .next (withRunning { s with agenda := rest, turn := ⟨p, b⟩ } (ended q 0x09#8)))

/-- 40_command_execution.md R160: the step is the next choice, an access is one step, an IDLE port or a port
that is not there takes none (the model's own convention, log 3), and without a listed choice the choice
is free (log 2). -/
def Obligations.StepMakesTheNextChoice : Prop :=
  (∀ s a rest, s.agenda = .access a :: rest →
    step s = .next (busAccess a { s with agenda := rest })) ∧
  (∀ s p b rest, s.agenda = .port p b :: rest → (∀ q, s.ports[p]? = some q → q.phase = .idle) →
    step s = .next { s with agenda := rest, turn := ⟨p, b⟩ }) ∧
  (∀ s, s.agenda = [] → step s = runEvent (Config.freeEvent s.ticks) { s with ticks := s.ticks + 1 })

/-- 10_state.md section 8 (R50): what reset leaves, for every number of ports and every base address. The
latches, to which R50 gives no value, are left out. -/
def Obligations.ResetStateHasTheResetValues : Prop :=
  ∀ c : Config,
    (State.resetWith c).qword = 0x00000000#32 ∧ (State.resetWith c).valid = false ∧
    (State.resetWith c).cap = 0#7 ∧ (∀ a, (State.resetWith c).slots.read a = none) ∧
    (State.resetWith c).ports.length = c.nports ∧ (State.resetWith c).blockBase = c.blockBase ∧
    ∀ p, p < c.nports → ∃ q, (State.resetWith c).ports[p]? = some q ∧
      q.busy = false ∧ q.ovr = false ∧ q.code = 0x00#8 ∧ q.dinHi = 0x00000000#32 ∧
      q.dinLo = 0x00000000#32 ∧ q.doutHi = 0x00000000#32 ∧ q.doutLo = 0x00000000#32 ∧
      q.phase = .idle ∧ q.res = false

/-- 70_reset_and_hazards.md R300: reset from any state. That the number of ports, BLOCK_BASE and the model's own
fields stay is read from the rule by inference (log 13); the choice is taken from the agenda (log 1). -/
def Obligations.ResetStepRestoresTheBlock : Prop :=
  ∀ s rest, s.agenda = .reset :: rest → ∃ t, step s = .next t ∧
    t.qword = 0x00000000#32 ∧ t.valid = false ∧ t.cap = 0#7 ∧ (∀ a, t.slots.read a = none) ∧
    t.ports.length = s.ports.length ∧ t.blockBase = s.blockBase ∧ t.agenda = rest ∧
    t.ticks = s.ticks ∧ t.turn = s.turn ∧ t.resp = s.resp ∧
    ∀ q ∈ t.ports, q.busy = false ∧ q.ovr = false ∧ q.code = 0x00#8 ∧ q.dinHi = 0x00000000#32 ∧
      q.dinLo = 0x00000000#32 ∧ q.doutHi = 0x00000000#32 ∧ q.doutLo = 0x00000000#32 ∧
      q.phase = .idle ∧ q.res = false

/-- 30_encoding.md R142, 10_state.md sections 2, 3 and 5, 20_memory.md R86: what a read of each register answers; nothing
changes but the response, which is kept in the model's own field (log 5). -/
def Obligations.ReadsReturnTheRegisters : Prop :=
  ∀ s : State,
    busAccess ⟨s.blockBase + 0x000, 4, .read⟩ s = { s with resp := some (.okRead s.qword) } ∧
    (∃ w, busAccess ⟨s.blockBase + 0x004, 4, .read⟩ s = { s with resp := some (.okRead w) } ∧
      w.getLsbD 31 = s.valid ∧ w.extractLsb' 7 24 = 0#24 ∧ w.extractLsb' 0 7 = s.cap) ∧
    (∃ w, busAccess ⟨s.blockBase + 0x008, 4, .read⟩ s = { s with resp := some (.okRead w) } ∧
      w.extractLsb' 16 16 = 0#16 ∧ w.extractLsb' 8 8 = 0x7F#8 ∧
      w.extractLsb' 0 8 = BitVec.ofNat 8 s.ports.length) ∧
    ∀ p q, s.ports[p]? = some q →
      busAccess ⟨s.blockBase + (0x100 + 0x20 * p), 4, .read⟩ s =
        { s with resp := some (.okRead 0x00000000#32) } ∧
      (∃ w, busAccess ⟨s.blockBase + (0x104 + 0x20 * p), 4, .read⟩ s =
          { s with resp := some (.okRead w) } ∧
        w.getLsbD 31 = q.busy ∧ w.getLsbD 30 = q.ovr ∧ w.extractLsb' 8 22 = 0#22 ∧
        w.extractLsb' 0 8 = q.code) ∧
      busAccess ⟨s.blockBase + (0x108 + 0x20 * p), 4, .read⟩ s =
        { s with resp := some (.okRead q.dinHi) } ∧
      busAccess ⟨s.blockBase + (0x10C + 0x20 * p), 4, .read⟩ s =
        { s with resp := some (.okRead q.dinLo) } ∧
      busAccess ⟨s.blockBase + (0x110 + 0x20 * p), 4, .read⟩ s =
        { s with resp := some (.okRead q.doutHi) } ∧
      busAccess ⟨s.blockBase + (0x114 + 0x20 * p), 4, .read⟩ s =
        { s with resp := some (.okRead q.doutLo) }

/-- 20_memory.md R84, with the unmapped offsets of 30_encoding.md R142: the accesses that get the bus error
response, and that they change nothing. That an address below BLOCK_BASE is one of them is an inference
(log 16), and the response is kept in the model's own field (log 5). -/
def Obligations.BadAccessesGetABusError : Prop :=
  ∀ (s : State) (a : Access),
    let bad : Prop :=
      a.size ≠ 4 ∨ a.addr < s.blockBase ∨ (a.addr - s.blockBase) % 4 ≠ 0 ∨
      0x100 + 0x20 * s.ports.length ≤ a.addr - s.blockBase ∨
      (0x00C ≤ a.addr - s.blockBase ∧ a.addr - s.blockBase ≤ 0x0FF) ∨
      (0x100 ≤ a.addr - s.blockBase ∧ 0x18 ≤ (a.addr - s.blockBase - 0x100) % 0x20)
    (bad → busAccess a s = { s with resp := some .err }) ∧
    (¬bad → (busAccess a s).resp ≠ some .err)

/-- 30_encoding.md R148, with 40_command_execution.md R161 and R162: what an aligned 32-bit write to each
register does. -/
def Obligations.WritesFollowTheRegisterMap : Prop :=
  ∀ (s : State) (w : Word),
    (∀ o, o = 0x000 ∨ o = 0x004 ∨ o = 0x008 →
      busAccess ⟨s.blockBase + o, 4, .write w⟩ s = { s with resp := some .okWrite }) ∧
    ∀ p q, s.ports[p]? = some q →
      (∀ k, k = 0x104 ∨ k = 0x110 ∨ k = 0x114 →
        busAccess ⟨s.blockBase + (k + 0x20 * p), 4, .write w⟩ s = { s with resp := some .okWrite }) ∧
      busAccess ⟨s.blockBase + (0x108 + 0x20 * p), 4, .write w⟩ s =
        { s with ports := s.ports.set p { q with dinHi := w }, resp := some .okWrite } ∧
      busAccess ⟨s.blockBase + (0x10C + 0x20 * p), 4, .write w⟩ s =
        { s with ports := s.ports.set p { q with dinLo := w }, resp := some .okWrite } ∧
      (q.phase = .idle →
        busAccess ⟨s.blockBase + (0x100 + 0x20 * p), 4, .write w⟩ s =
          { s with
            ports := s.ports.set p
              { q with cw := w, din := q.dinHi ++ q.dinLo, busy := true, ovr := false,
                       phase := .start },
            resp := some .okWrite }) ∧
      (q.phase ≠ .idle →
        busAccess ⟨s.blockBase + (0x100 + 0x20 * p), 4, .write w⟩ s =
          { s with ports := s.ports.set p { q with ovr := true }, resp := some .okWrite })

/-- 30_encoding.md R142: every register stands at its offset and at no other, a port's registers for the
ports there are. -/
def Obligations.RegisterMapIsExact : Prop :=
  ∀ (n o : Nat) (r : Reg),
    Reg.ofOffset n o = some r ↔ r.offset = o ∧ ∀ p, regPort r = some p → p < n

/-- 30_encoding.md R151, 70_reset_and_hazards.md R310: the first three instructions of `enq p, v` on an IDLE
port leave the item latched and the command accepted. -/
def Obligations.PushThenCommandLatchesTheItem : Prop :=
  ∀ (s : State) (p : Nat) (q : Port) (v : Item) (l : Nat) (regs : Vector Word 16),
    s.ports[p]? = some q → q.phase = .idle →
    let a := Requester.step ⟨regs, 0, (Pseudo.enq p v).expand l⟩ s
    let b := a.1.step a.2
    let c := b.1.step b.2
    c.1.pc = 3 ∧ c.1.regs = regs ∧
    c.2 = { s with
      ports := s.ports.set p
        { q with dinHi := v.extractLsb' 32 32, dinLo := v.extractLsb' 0 32, din := v,
                 cw := 0x00000003#32, busy := true, ovr := false, phase := .start },
      resp := some .okWrite }

/-! ### START and the lifecycle commands -/

/-- 41_lifecycle.md R191: every answer of INIT, and where its capacity comes from. -/
def Obligations.InitAnswers : Prop :=
  ∀ s q cap, Running s q .start →
    (q.cw &&& 0x0000FFFF#32 = 0x00000001#32 → cap = (q.cw.extractLsb' 16 16).toNat →
      runTurn s = exec (.init cap) s) ∧
    (¬Alone s → exec (.init cap) s = .next (withRunning s (ended q 0x06#8))) ∧
    (Alone s → 127 < cap → exec (.init cap) s = .next (withRunning s (ended q 0x07#8))) ∧
    (Alone s → cap = 0 → exec (.init cap) s = .next (withRunning s (ended q 0x08#8))) ∧
    (Alone s → 1 ≤ cap → cap ≤ 127 →
      exec (.init cap) s =
        .next (withRunning
          (storedQword { s with cap := BitVec.ofNat 7 cap, valid := true } 0x00000000#32)
          (ended q 0x00#8)))

/-- 41_lifecycle.md R195, with the test of 40_command_execution.md R164: every answer of DESTROY. -/
def Obligations.DestroyAnswers : Prop :=
  ∀ s q, Running s q .start →
    (q.cw = 0x00000002#32 → runTurn s = exec .destroy s) ∧
    (s.valid = false → exec .destroy s = .next (withRunning s (ended q 0x01#8))) ∧
    (s.valid = true → ¬Alone s → exec .destroy s = .next (withRunning s (ended q 0x06#8))) ∧
    (s.valid = true → Alone s →
      exec .destroy s =
        .next (withRunning (storedQword { s with cap := 0#7, valid := false } 0x00000000#32)
          (ended q 0x00#8)))

/-- 40_command_execution.md R164: no command but INIT runs on a queue that does not exist. -/
def Obligations.NoQueueEndsWithNullObject : Prop :=
  ∀ s q i, Running s q .start → s.valid = false → (∀ cap, i ≠ .init cap) →
    exec i s = .next (withRunning s (ended q 0x01#8))

/-- 40_command_execution.md R165: the phase after START of the commands that go on. -/
def Obligations.StartEntersTheFirstPhase : Prop :=
  ∀ s q, Running s q .start → s.valid = true →
    exec .enq s = .next (withRunning s { q with phase := .e1LL }) ∧
    exec .tryenq s = .next (withRunning s { q with phase := .e1LL }) ∧
    exec .deq s = .next (withRunning s { q with phase := .dLL }) ∧
    exec .trydeq s = .next (withRunning s { q with phase := .dLL }) ∧
    exec .peek s = .next (withRunning s { q with phase := .pRdw })

/-! ### The micro-steps of the enqueue -/

/-- 42_enqueue.md R212 (with R213, R214, R222): step E1_LL. -/
def Obligations.EnqueueReserveRead : Prop :=
  ∀ s q, Running s q .e1LL →
    let v := s.qword
    ((Qword.wc v).toNat < s.cap.toNat ∧ Qword.wc v = Qword.rc v → ∀ i, i = .enq ∨ i = .tryenq →
      exec i s = .next (withRunning s
        { q with
          res := true, v := v, s := (Qword.wp v).setWidth 7,
          vn := pack (Qword.wc v + 1)
            (if (Qword.wp v).toNat + 1 = s.cap.toNat then 0 else Qword.wp v + 1)
            (Qword.rc v) (Qword.rp v),
          phase := .e1SC })) ∧
    (¬((Qword.wc v).toNat < s.cap.toNat ∧ Qword.wc v = Qword.rc v) →
      exec .enq s = .next (withRunning s { q with res := true, v := v, phase := .e1Yield }) ∧
      exec .tryenq s = .next (withRunning s { ended q 0x03#8 with v := v }))

/-- 42_enqueue.md R215: step E1_SC, with the store-conditional of 20_memory.md R91. -/
def Obligations.EnqueueReserveStore : Prop :=
  ∀ s q i, Running s q .e1SC → i = .enq ∨ i = .tryenq →
    (q.res = true ∧ s.turn.spurious = false →
      exec i s =
        .next (withRunning (storedQword s q.vn) { q with res := false, phase := .eWrite })) ∧
    (¬(q.res = true ∧ s.turn.spurious = false) →
      exec i s = .next (withRunning s { q with res := false, phase := .e1LL }))

/-- 42_enqueue.md R216: step E_WRITE, with SlotWrite of 20_memory.md R96. The latch can hold 127, which is
no slot: there the model faults (log 9). -/
def Obligations.EnqueuePayloadWrite : Prop :=
  ∀ s q i, Running s q .eWrite → i = .enq ∨ i = .tryenq →
    (q.s.toNat ≤ 126 → ∃ t, exec i s = .next t ∧
      (∀ a, t.slots.read a = if a = q.s.toNat then some q.din else s.slots.read a) ∧
      { t with slots := s.slots } = withRunning s { q with phase := .e2LL }) ∧
    (q.s.toNat = 127 → exec i s = .fault (.noSuchSlot 127))

/-- 42_enqueue.md R217 (with R218, R219): step E2_LL. -/
def Obligations.EnqueueCommitRead : Prop :=
  ∀ s q i, Running s q .e2LL → i = .enq ∨ i = .tryenq →
    let v := s.qword
    (((Qword.wc v).toNat : Int) - ((Qword.rc v).toNat : Int) ≤ 1 →
      exec i s = .next (withRunning s
        { q with res := true, v := v,
                 vn := pack (Qword.wc v) (Qword.wp v) (Qword.rc v + 1) (Qword.rp v),
                 phase := .e2SC })) ∧
    (1 < ((Qword.wc v).toNat : Int) - ((Qword.rc v).toNat : Int) →
      exec i s = .next (withRunning s { q with res := true, v := v, phase := .e2Yield }))

/-- 42_enqueue.md R220: step E2_SC, where ENQ and TRYENQ complete. -/
def Obligations.EnqueueCommitStore : Prop :=
  ∀ s q i, Running s q .e2SC → i = .enq ∨ i = .tryenq →
    (q.res = true ∧ s.turn.spurious = false →
      exec i s = .next (withRunning (storedQword s q.vn) (ended q 0x00#8))) ∧
    (¬(q.res = true ∧ s.turn.spurious = false) →
      exec i s = .next (withRunning s { q with res := false, phase := .e2LL }))

/-- 40_command_execution.md R167 (with 42_enqueue.md R221, 43_dequeue.md R246): a yield changes the phase and
nothing else. -/
def Obligations.YieldsChangeOnlyThePhase : Prop :=
  (∀ s q i, Running s q .e1Yield → i = .enq ∨ i = .tryenq →
    exec i s = .next (withRunning s { q with phase := .e1LL })) ∧
  (∀ s q i, Running s q .e2Yield → i = .enq ∨ i = .tryenq →
    exec i s = .next (withRunning s { q with phase := .e2LL })) ∧
  (∀ s q i, Running s q .dYield → i = .deq ∨ i = .trydeq →
    exec i s = .next (withRunning s { q with phase := .dLL }))

/-! ### The micro-steps of the dequeue and of PEEK -/

/-- 43_dequeue.md R241 (with R242, R243, R247): step D_LL. -/
def Obligations.DequeueReserveRead : Prop :=
  ∀ s q, Running s q .dLL →
    let v := s.qword
    (0 < (Qword.rc v).toNat → ∀ i, i = .deq ∨ i = .trydeq →
      exec i s = .next (withRunning s
        { q with
          res := true, v := v, s := (Qword.rp v).setWidth 7,
          vn := pack (Qword.wc v - 1) (Qword.wp v) (Qword.rc v - 1)
            (if (Qword.rp v).toNat + 1 = s.cap.toNat then 0 else Qword.rp v + 1),
          phase := .dRead })) ∧
    ((Qword.rc v).toNat = 0 →
      exec .deq s = .next (withRunning s { q with res := true, v := v, phase := .dYield }) ∧
      exec .trydeq s = .next (withRunning s { ended q 0x03#8 with v := v }))

/-- 43_dequeue.md R245, with SlotRead of 20_memory.md R95: step D_READ, and where the model faults. -/
def Obligations.DequeueSlotRead : Prop :=
  ∀ s q i, Running s q .dRead → i = .deq ∨ i = .trydeq →
    (∀ d, q.s.toNat ≤ 126 → s.slots.read q.s.toNat = some d →
      exec i s = .next (withRunning s { q with d := d, phase := .dSC })) ∧
    (q.s.toNat ≤ 126 → s.slots.read q.s.toNat = none →
      exec i s = .fault (.unwrittenSlot q.s.toNat)) ∧
    (q.s.toNat = 127 → exec i s = .fault (.noSuchSlot 127))

/-- 43_dequeue.md R244: step D_SC, where DEQ and TRYDEQ complete. -/
def Obligations.DequeueStore : Prop :=
  ∀ s q i, Running s q .dSC → i = .deq ∨ i = .trydeq →
    (q.res = true ∧ s.turn.spurious = false →
      exec i s = .next (withRunning (storedQword s q.vn)
        { ended q 0x00#8 with
          doutHi := q.d.extractLsb' 32 32, doutLo := q.d.extractLsb' 0 32 })) ∧
    (¬(q.res = true ∧ s.turn.spurious = false) →
      exec i s = .next (withRunning s { q with res := false, phase := .dLL }))

/-- 44_peek.md R261: step P_RDW. -/
def Obligations.PeekWordRead : Prop :=
  ∀ s q, Running s q .pRdw →
    let v := s.qword
    ((Qword.rc v).toNat = 0 →
      exec .peek s = .next (withRunning s { ended q 0x04#8 with v := v })) ∧
    ((Qword.rc v).toNat ≠ 0 →
      exec .peek s = .next (withRunning s
        { q with v := v, s := (Qword.rp v).setWidth 7, phase := .pRead }))

/-- 44_peek.md R262, with SlotRead of 20_memory.md R95: step P_READ, where PEEK completes, and where the model
faults. -/
def Obligations.PeekSlotRead : Prop :=
  ∀ s q, Running s q .pRead →
    (∀ d, q.s.toNat ≤ 126 → s.slots.read q.s.toNat = some d →
      exec .peek s = .next (withRunning s
        { ended q 0x00#8 with
          d := d, doutHi := d.extractLsb' 32 32, doutLo := d.extractLsb' 0 32 })) ∧
    (q.s.toNat ≤ 126 → s.slots.read q.s.toNat = none →
      exec .peek s = .fault (.unwrittenSlot q.s.toNat)) ∧
    (q.s.toNat = 127 → exec .peek s = .fault (.noSuchSlot 127))

/-- 20_memory.md R90 and R91: the load-reserve and the store-conditional, for a port that is there. -/
def Obligations.LoadReserveAndStoreConditional : Prop :=
  ∀ s p q w, s.ports[p]? = some q →
    llw p s = (s.qword, { s with ports := s.ports.set p { q with res := true } }) ∧
    (q.res = true ∧ s.turn.spurious = false → scw p w s = (true, storedQword s w)) ∧
    (¬(q.res = true ∧ s.turn.spurious = false) →
      scw p w s = (false, { s with ports := s.ports.set p { q with res := false } }))

/-! ### Frames and whole-machine rules -/

/-- 42_enqueue.md R210, R211 (state written): what a micro-step of ENQ or TRYENQ leaves alone. -/
def Obligations.FrameOfEnqueue : Prop :=
  ∀ i s t q ph, i = .enq ∨ i = .tryenq → Running s q ph → ph = .start ∨ ownPhase i ph = true →
    exec i s = .next t →
    KeepsOthers s t ∧ t.valid = s.valid ∧ t.cap = s.cap ∧
    (ph ≠ .e1SC → ph ≠ .e2SC → t.qword = s.qword) ∧
    (∀ a, (ph = .eWrite → a ≠ q.s.toNat) → t.slots.read a = s.slots.read a) ∧
    ∃ q', t.ports[s.turn.port]? = some q' ∧
      q'.ovr = q.ovr ∧ q'.dinHi = q.dinHi ∧ q'.dinLo = q.dinLo ∧ q'.doutHi = q.doutHi ∧
      q'.doutLo = q.doutLo ∧ q'.cw = q.cw ∧ q'.din = q.din ∧ q'.d = q.d ∧
      (q'.phase ≠ .idle → q'.busy = q.busy ∧ q'.code = q.code) ∧
      (ph ≠ .e1LL → q'.s = q.s) ∧
      (ph ≠ .e1LL → ph ≠ .e2LL → q'.v = q.v ∧ q'.vn = q.vn)

/-- 43_dequeue.md R240 (state written): what a micro-step of DEQ or TRYDEQ leaves alone. -/
def Obligations.FrameOfDequeue : Prop :=
  ∀ i s t q ph, i = .deq ∨ i = .trydeq → Running s q ph → ph = .start ∨ ownPhase i ph = true →
    exec i s = .next t →
    KeepsOthers s t ∧ t.valid = s.valid ∧ t.cap = s.cap ∧
    (ph ≠ .dSC → t.qword = s.qword) ∧ (∀ a, t.slots.read a = s.slots.read a) ∧
    ∃ q', t.ports[s.turn.port]? = some q' ∧
      q'.ovr = q.ovr ∧ q'.dinHi = q.dinHi ∧ q'.dinLo = q.dinLo ∧ q'.cw = q.cw ∧ q'.din = q.din ∧
      (q'.phase ≠ .idle → q'.busy = q.busy ∧ q'.code = q.code) ∧
      (q'.phase ≠ .idle ∨ ph ≠ .dSC → q'.doutHi = q.doutHi ∧ q'.doutLo = q.doutLo) ∧
      (ph ≠ .dRead → q'.d = q.d) ∧
      (ph ≠ .dLL → q'.v = q.v ∧ q'.vn = q.vn ∧ q'.s = q.s)

/-- 44_peek.md R260 (state written): what a micro-step of PEEK leaves alone. Every other port keeps all of
its state, its reservation too, and no reservation is taken. -/
def Obligations.FrameOfPeek : Prop :=
  ∀ s t q ph, Running s q ph → ph = .start ∨ ownPhase .peek ph = true → exec .peek s = .next t →
    KeepsOthers s t ∧ t.valid = s.valid ∧ t.cap = s.cap ∧ t.qword = s.qword ∧
    (∀ a, t.slots.read a = s.slots.read a) ∧
    (∀ r, r ≠ s.turn.port → t.ports[r]? = s.ports[r]?) ∧
    ∃ q', t.ports[s.turn.port]? = some q' ∧
      q'.ovr = q.ovr ∧ q'.dinHi = q.dinHi ∧ q'.dinLo = q.dinLo ∧ q'.cw = q.cw ∧ q'.din = q.din ∧
      q'.vn = q.vn ∧ (q'.res = true → q.res = true) ∧
      (q'.phase ≠ .idle → q'.busy = q.busy ∧ q'.code = q.code ∧ q'.res = q.res) ∧
      (ph ≠ .pRead → q'.doutHi = q.doutHi ∧ q'.doutLo = q.doutLo ∧ q'.d = q.d) ∧
      (ph ≠ .pRdw → q'.v = q.v ∧ q'.s = q.s)

/-- 41_lifecycle.md R190, R195 (state written): what INIT and DESTROY leave alone. With a failure code they
change their port's record and nothing else. -/
def Obligations.FrameOfLifecycle : Prop :=
  ∀ i s t q, (∃ cap, i = .init cap) ∨ i = .destroy → Running s q .start → exec i s = .next t →
    KeepsOthers s t ∧ (∀ a, t.slots.read a = s.slots.read a) ∧
    ∃ code, t.ports[s.turn.port]? = some (ended q code) ∧
      (code ≠ 0x00#8 → t = withRunning s (ended q code))

/-- 20_memory.md R92: the only ways a reservation changes. A port takes its own at a load-reserve. It is
lost by reset, by a store to QWORD (then every port's is), by the port's own store-conditional, or by
the end of the port's command. -/
def Obligations.ReservationsChangeOnlyAsListed : Prop :=
  ∀ e s t r q q', runEvent e s = .next t → s.ports[r]? = some q → t.ports[r]? = some q' →
    (q.res = false → q'.res = true →
      (∃ b, e = .port r b) ∧ (q.phase = .e1LL ∨ q.phase = .e2LL ∨ q.phase = .dLL)) ∧
    (q.res = true → q'.res = false →
      e = .reset ∨
      (∃ p b x, e = .port p b ∧ s.ports[p]? = some x ∧ (∀ y ∈ t.ports, y.res = false) ∧
        (storePhase x.phase = true ∧ x.res = true ∧ b = false ∧ t.qword = x.vn ∨
          x.phase = .start ∧ t.qword = 0x00000000#32)) ∨
      (∃ b, e = .port r b ∧ (storePhase q.phase = true ∨ q'.phase = .idle)))

/-- 10_state.md R32: the four things that write QWORD. -/
def Obligations.OnlyFourThingsWriteQword : Prop :=
  ∀ e s t, runEvent e s = .next t → t.qword ≠ s.qword →
    (e = .reset ∧ t.qword = 0x00000000#32) ∨
    ∃ p b q, e = .port p b ∧ s.ports[p]? = some q ∧
      (storePhase q.phase = true ∧ q.res = true ∧ b = false ∧ t.qword = q.vn ∨
        q.phase = .start ∧ t.qword = 0x00000000#32 ∧
          ((∃ cap, decodeWord q.cw = .ok (.init cap)) ∨ decodeWord q.cw = .ok .destroy))

/-- 10_state.md R36: what writes VALID and CAP, and that no other port has a command in progress then. -/
def Obligations.OnlyLifecycleWritesTheConfiguration : Prop :=
  ∀ e s t, runEvent e s = .next t → t.valid ≠ s.valid ∨ t.cap ≠ s.cap →
    (e = .reset ∧ t.valid = false ∧ t.cap = 0#7) ∨
    ∃ p b q, e = .port p b ∧ s.ports[p]? = some q ∧ q.phase = .start ∧
      (∀ r x, r ≠ p → s.ports[r]? = some x → x.phase = .idle) ∧
      ((∃ cap, decodeWord q.cw = .ok (.init cap) ∧ 1 ≤ cap ∧ cap ≤ 127 ∧ t.valid = true ∧
          t.cap.toNat = cap) ∨
        decodeWord q.cw = .ok .destroy ∧ t.valid = false ∧ t.cap = 0#7)

/-- 60_exceptions.md R272: the codes a legal command can end with. -/
def Obligations.CodesOfEachCommand : Prop :=
  ∀ i s t q ph q', Running s q ph → ph = .start ∨ ownPhase i ph = true → exec i s = .next t →
    t.ports[s.turn.port]? = some q' → q'.phase = .idle →
    q'.code ∈ (match i with
      | .init _ => [0x00#8, 0x06#8, 0x07#8, 0x08#8]
      | .destroy => [0x00#8, 0x01#8, 0x06#8]
      | .enq => [0x00#8, 0x01#8]
      | .tryenq => [0x00#8, 0x01#8, 0x03#8]
      | .deq => [0x00#8, 0x01#8]
      | .trydeq => [0x00#8, 0x01#8, 0x03#8]
      | .peek => [0x00#8, 0x01#8, 0x04#8])

/-- 60_exceptions.md R274: the micro-step that ends a command with a failure code changes nothing of the queue,
of DOUT and of the other ports, and stands at START, E1_LL, D_LL or P_RDW. -/
def Obligations.FailuresLeaveTheQueueAlone : Prop :=
  ∀ p b s t q q', runEvent (.port p b) s = .next t → s.ports[p]? = some q → q.phase ≠ .idle →
    t.ports[p]? = some q' → q'.phase = .idle → q'.code ≠ 0x00#8 →
    (q.phase = .start ∨ q.phase = .e1LL ∨ q.phase = .dLL ∨ q.phase = .pRdw) ∧
    t.qword = s.qword ∧ t.valid = s.valid ∧ t.cap = s.cap ∧ t.slots = s.slots ∧
    q'.doutHi = q.doutHi ∧ q'.doutLo = q.doutLo ∧ ∀ r, r ≠ p → t.ports[r]? = s.ports[r]?

/-- 00_scope.md R9, 10_state.md R38: no step changes the number of ports, BLOCK_BASE or QPARAM. -/
def Obligations.ParametersNeverChange : Prop :=
  ∀ s t, step s = .next t →
    t.ports.length = s.ports.length ∧ t.blockBase = s.blockBase ∧ t.qparamWord = s.qparamWord

/-- 60_exceptions.md R279 and R283: what a port's turn does depends on nothing of another port's data: with
other DIN, DOUT and item latches in another port, the turn does the same, and leaves those as they are. -/
def Obligations.PortsCannotSeeEachOthersData : Prop :=
  ∀ (s : State) (p r : Nat) (b : Bool) (h l h' l' : Word) (x y : Item), p ≠ r →
    let f : Port → Port := fun q =>
      { q with dinHi := h, dinLo := l, doutHi := h', doutLo := l', din := x, d := y }
    runEvent (.port p b) (updPort s r f) =
      (match runEvent (.port p b) s with
        | .next t => .next (updPort t r f)
        | .fault e => .fault e
        | .refused e => .refused e)

/-! ### Invariants -/

/-- 10_state.md section 9: the invariants hold after reset, for every legal choice of the parameters. -/
def Obligations.ResetMeetsTheInvariants : Prop :=
  ∀ c : Config, 1 ≤ c.nports → c.nports ≤ 255 → c.blockBase % 4 = 0 → BlockInv (State.resetWith c)

/-- Every step keeps the canonical form of the slot store (20_memory.md R96: only E_WRITE writes it). -/
def Obligations.StepKeepsTheSlotForm : Prop :=
  ∀ s t, s.slots.wf = true → step s = .next t → t.slots.wf = true

/-- 10_state.md R45, R46 and 60_exceptions.md R271, R273: every step keeps BUSY, the reservation and CODE as
the rules say. -/
def Obligations.StepKeepsTheStatus : Prop :=
  ∀ s t, StatusInv s → step s = .next t → StatusInv t

/-- 42_enqueue.md R210, 43_dequeue.md R240, 44_peek.md R260: every step keeps each port at a phase of the
command it has latched. -/
def Obligations.StepKeepsPhasesOfTheCommand : Prop :=
  ∀ s t, CommandInv s → step s = .next t → CommandInv t

/-- 10_state.md R51 to R54: every step keeps the invariants of the control word. -/
def Obligations.StepKeepsTheQueueInvariant : Prop :=
  ∀ s t, QueueInv s → step s = .next t → QueueInv t

/-- 10_state.md R51 to R56: every step keeps all the invariants. -/
def Obligations.StepKeepsTheInvariants : Prop :=
  ∀ s t, BlockInv s → step s = .next t → BlockInv t

/-- 10_state.md R56: with the invariants, no step faults or is refused. -/
def Obligations.NoStepFaults : Prop :=
  ∀ s, BlockInv s → ∃ t, step s = .next t

/-- 10_state.md R57, 20_memory.md R103, 43_dequeue.md R250: the committed items are a queue. The phase-2 store
adds its item at the end, the dequeue store takes the oldest and returns it in DOUT, reset and a START of
INIT or DESTROY that ends with SUCCESS empty it, and nothing else changes it. -/
def Obligations.QueueIsFirstInFirstOut : Prop :=
  ∀ e s t, BlockInv s → runEvent e s = .next t →
    (∀ a, e = .access a → contents t = contents s) ∧
    (e = .reset → contents t = []) ∧
    ∀ p b q, e = .port p b → s.ports[p]? = some q →
      (q.phase = .e2SC ∧ q.res = true ∧ b = false → contents t = contents s ++ [some q.din]) ∧
      (q.phase = .dSC ∧ q.res = true ∧ b = false →
        ∃ q', t.ports[p]? = some q' ∧ q'.phase = .idle ∧ q'.code = 0x00#8 ∧
          contents s = some (q'.doutHi ++ q'.doutLo) :: contents t) ∧
      (q.phase ≠ .start →
        ¬((q.phase = .e2SC ∨ q.phase = .dSC) ∧ q.res = true ∧ b = false) →
        contents t = contents s) ∧
      (q.phase = .start →
        ∃ q', t.ports[p]? = some q' ∧
          let emptied : Prop := q'.code = 0x00#8 ∧
            ((∃ cap, decodeWord q.cw = .ok (.init cap)) ∨ decodeWord q.cw = .ok .destroy)
          (emptied → contents t = []) ∧ (¬emptied → contents t = contents s))

/-- 42_enqueue.md R226: at E2_LL the gap is exactly 1, the phase-2 test passes, and E2_YIELD is never
entered. -/
def Obligations.CommitFindsAGapOfOne : Prop :=
  (∀ s q, BlockInv s → Running s q .e2LL →
    (Qword.wc s.qword).toNat = (Qword.rc s.qword).toNat + 1 ∧
    runTurn s = .next (withRunning s
      { q with res := true, v := s.qword,
               vn := pack (Qword.wc s.qword) (Qword.wp s.qword) (Qword.rc s.qword + 1)
                 (Qword.rp s.qword),
               phase := .e2SC })) ∧
  ∀ s t, BlockInv s → (∀ q ∈ s.ports, q.phase ≠ .e2Yield) → step s = .next t →
    ∀ q ∈ t.ports, q.phase ≠ .e2Yield

/-- 10_state.md R54 and R55: at most one port is in the window, and its slot is none of the committed ones. -/
def Obligations.OneEnqueueInTheWindow : Prop :=
  ∀ (s : State) (a : Nat) (x : Port), BlockInv s → s.ports[a]? = some x → windowPhase x.phase = true →
    (∀ (b : Nat) (y : Port), s.ports[b]? = some y → windowPhase y.phase = true → b = a) ∧
    ∀ k, k < (Qword.rc s.qword).toNat →
      x.s.toNat ≠ ((Qword.rp s.qword).toNat + k) % s.cap.toNat

/-! ### Whole commands -/

/-- 42_enqueue.md R210 to R220: six turns of a port with no other step between them and no spurious failure
take ENQ or TRYENQ from START to SUCCESS when there is room and no other enqueue is in its window. -/
def Obligations.EnqueueAloneCompletes : Prop :=
  ∀ s p q rest, s.ports[p]? = some q → q.phase = .start → s.valid = true →
    (q.cw = 0x00000003#32 ∨ q.cw = 0x00000004#32) →
    s.agenda = List.replicate 6 (.port p false) ++ rest →
    (Qword.wc s.qword).toNat < s.cap.toNat → Qword.wc s.qword = Qword.rc s.qword →
    (Qword.wp s.qword).toNat < s.cap.toNat →
    let wp' : Byte := if (Qword.wp s.qword).toNat + 1 = s.cap.toNat then 0 else Qword.wp s.qword + 1
    let w1 := pack (Qword.wc s.qword + 1) wp' (Qword.rc s.qword) (Qword.rp s.qword)
    let w2 := pack (Qword.wc s.qword + 1) wp' (Qword.rc s.qword + 1) (Qword.rp s.qword)
    ∃ t, steps 6 s = .next t ∧
      (∀ a, t.slots.read a =
        if a = (Qword.wp s.qword).toNat then some q.din else s.slots.read a) ∧
      { t with slots := s.slots } =
        { s with
          qword := w2, agenda := rest, turn := ⟨p, false⟩,
          ports := (s.ports.map (fun x => { x with res := false })).set p
            { ended q 0x00#8 with v := w1, vn := w2, s := (Qword.wp s.qword).setWidth 7 } }

/-- 43_dequeue.md R240 to R245: four turns of a port with no other step between them and no spurious failure
take DEQ or TRYDEQ from START to SUCCESS when an item is committed. -/
def Obligations.DequeueAloneCompletes : Prop :=
  ∀ s p q rest d, s.ports[p]? = some q → q.phase = .start → s.valid = true →
    (q.cw = 0x00000005#32 ∨ q.cw = 0x00000006#32) →
    s.agenda = List.replicate 4 (.port p false) ++ rest →
    0 < (Qword.rc s.qword).toNat → (Qword.rp s.qword).toNat < s.cap.toNat →
    s.slots.read (Qword.rp s.qword).toNat = some d →
    let rp' : Byte := if (Qword.rp s.qword).toNat + 1 = s.cap.toNat then 0 else Qword.rp s.qword + 1
    let w := pack (Qword.wc s.qword - 1) (Qword.wp s.qword) (Qword.rc s.qword - 1) rp'
    steps 4 s = .next
      { s with
        qword := w, agenda := rest, turn := ⟨p, false⟩,
        ports := (s.ports.map (fun x => { x with res := false })).set p
          { ended q 0x00#8 with
            v := s.qword, vn := w, s := (Qword.rp s.qword).setWidth 7, d := d,
            doutHi := d.extractLsb' 32 32, doutLo := d.extractLsb' 0 32 } }

/-- 44_peek.md R260 to R262: three turns of a port with no other step between them take PEEK from START to
SUCCESS when an item is committed, and the queue is as before. -/
def Obligations.PeekAloneCompletes : Prop :=
  ∀ s p q rest d, s.ports[p]? = some q → q.phase = .start → s.valid = true →
    q.cw = 0x00000007#32 → s.agenda = List.replicate 3 (.port p false) ++ rest →
    0 < (Qword.rc s.qword).toNat → (Qword.rp s.qword).toNat < s.cap.toNat →
    s.slots.read (Qword.rp s.qword).toNat = some d →
    steps 3 s = .next
      { s with
        agenda := rest, turn := ⟨p, false⟩,
        ports := s.ports.set p
          { ended q 0x00#8 with
            v := s.qword, s := (Qword.rp s.qword).setWidth 7, d := d,
            doutHi := d.extractLsb' 32 32, doutLo := d.extractLsb' 0 32 } }

/-- 44_peek.md R260, 40_command_execution.md R170: in a run with FAIR-PORT, every accepted PEEK ends. -/
def Obligations.PeekEndsIfPortsAreFair : Prop :=
  ∀ e σ p n q, IsRun e σ → FairPort e σ → At σ n p q → q.phase = .start →
    decodeWord q.cw = .ok .peek → EndsAfter σ n p

/-- 43_dequeue.md R247, 40_command_execution.md R170: in a run with FAIR-PORT and FINITE-SPURIOUS (log 12), every
accepted TRYDEQ ends, or makes store-conditionals for ever of which all but finitely many lost their
reservation. -/
def Obligations.TrydeqEndsOrIsContendedForEver : Prop :=
  ∀ e σ p n q, IsRun e σ → FairPort e σ → FiniteSpurious e σ →
    At σ n p q → q.phase = .start → decodeWord q.cw = .ok .trydeq →
    EndsAfter σ n p ∨ ContendedForEver e σ p

/-- 43_dequeue.md R247, 40_command_execution.md R170: in a run with FAIR-PORT and FINITE-CONTENTION (log 12), every
accepted TRYDEQ ends, or one of its store-conditionals failed spuriously with its reservation held. -/
def Obligations.TrydeqEndsOrFailsSpuriously : Prop :=
  ∀ e σ p n q, IsRun e σ → FairPort e σ → FiniteContention e σ →
    At σ n p q → q.phase = .start → decodeWord q.cw = .ok .trydeq →
    EndsAfter σ n p ∨ FailsSpuriously e σ n p

/-- 20_memory.md R101, 40_command_execution.md R170: the three assumptions, as log 12 reads them, do not give
that TRYDEQ ends. Its one free attempt may be the one that fails spuriously. -/
def Obligations.TrydeqMayNeverEnd : Prop :=
  ∃ e σ p q, IsRun e σ ∧ FairPort e σ ∧ FiniteSpurious e σ ∧ FiniteContention e σ ∧ BlockInv (σ 0) ∧
    At σ 0 p q ∧ q.phase = .start ∧ decodeWord q.cw = .ok .trydeq ∧ ¬EndsAfter σ 0 p

/-- 40_command_execution.md R170, last paragraph: in any run without a reset, an accepted ENQ does not end while
the queue is full or another enqueue is in its window, nor an accepted DEQ while rc = 0. -/
def Obligations.EnqAndDeqWait : Prop :=
  ∀ e σ p n k q, IsRun e σ → BlockInv (σ n) → At σ n p q → n ≤ k → (∀ m, n ≤ m → m < k → e m ≠ .reset) →
    (decodeWord q.cw = .ok .enq → StartsOrIn (σ n) .reserve q →
      (∀ m, n ≤ m → m < k → FullOrInWindow (σ m) p) →
      ∃ q', At σ k p q' ∧ q'.cw = q.cw ∧ StartsOrIn (σ k) .reserve q') ∧
    (decodeWord q.cw = .ok .deq → StartsOrIn (σ n) .dequeue q →
      (∀ m, n ≤ m → m < k → Qword.rc (σ m).qword = 0) →
      ∃ q', At σ k p q' ∧ q'.cw = q.cw ∧ StartsOrIn (σ k) .dequeue q')
end

