-- ==== Sys2Proof/Laws/Fields.lean ====
section
/-! SUPPORT. The fields of a packed control word, and the store words' arithmetic on integers. -/

namespace Sys2Proof.Machine

open Sys2Proof


theorem pack_toNat (a b c d : Byte) :
    (pack a b c d).toNat = a.toNat * 2 ^ 24 + b.toNat * 2 ^ 16 + c.toNat * 2 ^ 8 + d.toNat := by
  have := a.isLt; have := b.isLt; have := c.isLt; have := d.isLt
  unfold pack
  simp only [BitVec.toNat_append]
  rw [← Nat.shiftLeft_add_eq_or_of_lt (by omega), ← Nat.shiftLeft_add_eq_or_of_lt (by omega),
    ← Nat.shiftLeft_add_eq_or_of_lt (by omega)]
  simp only [Nat.shiftLeft_eq]
  omega

theorem wc_toNat (v : Word) : (Qword.wc v).toNat = v.toNat / 2^24 := by
  have := v.isLt
  simp [Qword.wc, BitVec.extractLsb'_toNat, Nat.shiftRight_eq_div_pow]; omega

theorem wp_toNat (v : Word) : (Qword.wp v).toNat = v.toNat / 2^16 % 2^8 := by
  simp [Qword.wp, BitVec.extractLsb'_toNat, Nat.shiftRight_eq_div_pow]

theorem rc_toNat (v : Word) : (Qword.rc v).toNat = v.toNat / 2^8 % 2^8 := by
  simp [Qword.rc, BitVec.extractLsb'_toNat, Nat.shiftRight_eq_div_pow]

theorem rp_toNat (v : Word) : (Qword.rp v).toNat = v.toNat % 2^8 := by
  simp [Qword.rp, BitVec.extractLsb'_toNat, Nat.shiftRight_eq_div_pow]

@[simp] theorem wc_pack (a b c d : Byte) : Qword.wc (pack a b c d) = a := by
  apply BitVec.eq_of_toNat_eq
  have := a.isLt; have := b.isLt; have := c.isLt; have := d.isLt
  rw [wc_toNat, pack_toNat]; omega

@[simp] theorem wp_pack (a b c d : Byte) : Qword.wp (pack a b c d) = b := by
  apply BitVec.eq_of_toNat_eq
  have := a.isLt; have := b.isLt; have := c.isLt; have := d.isLt
  rw [wp_toNat, pack_toNat]; omega

@[simp] theorem rc_pack (a b c d : Byte) : Qword.rc (pack a b c d) = c := by
  apply BitVec.eq_of_toNat_eq
  have := a.isLt; have := b.isLt; have := c.isLt; have := d.isLt
  rw [rc_toNat, pack_toNat]; omega

@[simp] theorem rp_pack (a b c d : Byte) : Qword.rp (pack a b c d) = d := by
  apply BitVec.eq_of_toNat_eq
  have := a.isLt; have := b.isLt; have := c.isLt; have := d.isLt
  rw [rp_toNat, pack_toNat]; omega

/-- A byte that does not overflow goes up by one. -/
theorem byte_add_one_toNat {x : Byte} (h : x.toNat < 255) : (x + 1).toNat = x.toNat + 1 := by
  rw [BitVec.toNat_add]
  simp
  omega

/-- A byte that is not 0 goes down by one. -/
theorem byte_sub_one_toNat {x : Byte} (h : 0 < x.toNat) : (x - 1).toNat = x.toNat - 1 := by
  have := x.isLt
  rw [BitVec.toNat_sub]
  simp
  omega

/-- 00_scope.md R16 on a pointer in range: the increment is circular on the capacity. -/
theorem inc_toNat {cap : BitVec 7} {x : Byte} (h : x.toNat < cap.toNat) :
    (inc cap x).toNat = (x.toNat + 1) % cap.toNat := by
  have := cap.isLt
  unfold inc
  split
  · next e => rw [e, Nat.mod_self]; rfl
  · rw [byte_add_one_toNat (by omega), Nat.mod_eq_of_lt (by omega)]

/-- A pointer below the capacity loses nothing in the 7-bit latch. -/
theorem slotIndex_toNat {cap : BitVec 7} {x : Byte} (h : x.toNat < cap.toNat) :
    (slotIndex x).toNat = x.toNat := by
  have := cap.isLt
  simp only [slotIndex, BitVec.toNat_setWidth]
  omega

theorem phase1Cond_iff {cap : BitVec 7} {v : Word} :
    phase1Cond cap v = true ↔ (Qword.wc v).toNat < cap.toNat ∧ Qword.wc v = Qword.rc v := by
  simp [phase1Cond]

theorem phase2Cond_iff {v : Word} :
    phase2Cond v = true ↔ (Qword.wc v).toNat ≤ (Qword.rc v).toNat + 1 := by
  simp only [phase2Cond, decide_eq_true_eq]
  omega

theorem deqCond_iff {v : Word} : deqCond v = true ↔ 0 < (Qword.rc v).toNat := by
  simp [deqCond]

/-- The two halves of an item make it again (20_memory.md R83). -/
theorem itemHi_append_itemLo (d : Item) : itemHi d ++ itemLo d = d := by
  apply BitVec.eq_of_getLsbD_eq
  intro i hi
  simp only [itemHi, itemLo, BitVec.getLsbD_append, BitVec.getLsbD_extractLsb']
  by_cases h : i < 32
  · simp [h]
  · have h1 : i - 32 < 32 := by omega
    have h2 : 32 + (i - 32) = i := by omega
    simp [h, h1, h2]

end Sys2Proof.Machine
end

