-- ==== Sys2Proof/Laws/State.lean ====
section
/-! SUPPORT. What each shared operation leaves of each field of the state, so that no proof unfolds a
record update. -/

namespace Sys2Proof.Machine

@[simp] theorem updPort_qword (s : State) (p : Nat) (f : Port → Port) : (updPort s p f).qword = s.qword := rfl
@[simp] theorem updPort_valid (s : State) (p : Nat) (f : Port → Port) : (updPort s p f).valid = s.valid := rfl
@[simp] theorem updPort_cap (s : State) (p : Nat) (f : Port → Port) : (updPort s p f).cap = s.cap := rfl
@[simp] theorem updPort_slots (s : State) (p : Nat) (f : Port → Port) : (updPort s p f).slots = s.slots := rfl
@[simp] theorem updPort_blockBase (s : State) (p : Nat) (f : Port → Port) : (updPort s p f).blockBase = s.blockBase := rfl
@[simp] theorem updPort_agenda (s : State) (p : Nat) (f : Port → Port) : (updPort s p f).agenda = s.agenda := rfl
@[simp] theorem updPort_ticks (s : State) (p : Nat) (f : Port → Port) : (updPort s p f).ticks = s.ticks := rfl
@[simp] theorem updPort_turn (s : State) (p : Nat) (f : Port → Port) : (updPort s p f).turn = s.turn := rfl
@[simp] theorem updPort_resp (s : State) (p : Nat) (f : Port → Port) : (updPort s p f).resp = s.resp := rfl

@[simp] theorem setPhase_qword (p : Nat) (ph : Phase) (s : State) : (setPhase p ph s).qword = s.qword := rfl
@[simp] theorem setPhase_valid (p : Nat) (ph : Phase) (s : State) : (setPhase p ph s).valid = s.valid := rfl
@[simp] theorem setPhase_cap (p : Nat) (ph : Phase) (s : State) : (setPhase p ph s).cap = s.cap := rfl
@[simp] theorem setPhase_slots (p : Nat) (ph : Phase) (s : State) : (setPhase p ph s).slots = s.slots := rfl
@[simp] theorem setPhase_blockBase (p : Nat) (ph : Phase) (s : State) : (setPhase p ph s).blockBase = s.blockBase := rfl
@[simp] theorem setPhase_agenda (p : Nat) (ph : Phase) (s : State) : (setPhase p ph s).agenda = s.agenda := rfl
@[simp] theorem setPhase_ticks (p : Nat) (ph : Phase) (s : State) : (setPhase p ph s).ticks = s.ticks := rfl
@[simp] theorem setPhase_turn (p : Nat) (ph : Phase) (s : State) : (setPhase p ph s).turn = s.turn := rfl
@[simp] theorem setPhase_resp (p : Nat) (ph : Phase) (s : State) : (setPhase p ph s).resp = s.resp := rfl

@[simp] theorem complete_qword (p : Nat) (c : StatusCode) (s : State) : (complete p c s).qword = s.qword := rfl
@[simp] theorem complete_valid (p : Nat) (c : StatusCode) (s : State) : (complete p c s).valid = s.valid := rfl
@[simp] theorem complete_cap (p : Nat) (c : StatusCode) (s : State) : (complete p c s).cap = s.cap := rfl
@[simp] theorem complete_slots (p : Nat) (c : StatusCode) (s : State) : (complete p c s).slots = s.slots := rfl
@[simp] theorem complete_blockBase (p : Nat) (c : StatusCode) (s : State) : (complete p c s).blockBase = s.blockBase := rfl
@[simp] theorem complete_agenda (p : Nat) (c : StatusCode) (s : State) : (complete p c s).agenda = s.agenda := rfl
@[simp] theorem complete_ticks (p : Nat) (c : StatusCode) (s : State) : (complete p c s).ticks = s.ticks := rfl
@[simp] theorem complete_turn (p : Nat) (c : StatusCode) (s : State) : (complete p c s).turn = s.turn := rfl
@[simp] theorem complete_resp (p : Nat) (c : StatusCode) (s : State) : (complete p c s).resp = s.resp := rfl

@[simp] theorem clearReservations_qword (s : State) : (clearReservations s).qword = s.qword := rfl
@[simp] theorem clearReservations_valid (s : State) : (clearReservations s).valid = s.valid := rfl
@[simp] theorem clearReservations_cap (s : State) : (clearReservations s).cap = s.cap := rfl
@[simp] theorem clearReservations_slots (s : State) : (clearReservations s).slots = s.slots := rfl
@[simp] theorem clearReservations_blockBase (s : State) : (clearReservations s).blockBase = s.blockBase := rfl
@[simp] theorem clearReservations_agenda (s : State) : (clearReservations s).agenda = s.agenda := rfl
@[simp] theorem clearReservations_ticks (s : State) : (clearReservations s).ticks = s.ticks := rfl
@[simp] theorem clearReservations_turn (s : State) : (clearReservations s).turn = s.turn := rfl
@[simp] theorem clearReservations_resp (s : State) : (clearReservations s).resp = s.resp := rfl

@[simp] theorem setDout_qword (p : Nat) (d : Item) (s : State) : (setDout p d s).qword = s.qword := rfl
@[simp] theorem setDout_valid (p : Nat) (d : Item) (s : State) : (setDout p d s).valid = s.valid := rfl
@[simp] theorem setDout_cap (p : Nat) (d : Item) (s : State) : (setDout p d s).cap = s.cap := rfl
@[simp] theorem setDout_slots (p : Nat) (d : Item) (s : State) : (setDout p d s).slots = s.slots := rfl
@[simp] theorem setDout_blockBase (p : Nat) (d : Item) (s : State) : (setDout p d s).blockBase = s.blockBase := rfl
@[simp] theorem setDout_agenda (p : Nat) (d : Item) (s : State) : (setDout p d s).agenda = s.agenda := rfl
@[simp] theorem setDout_ticks (p : Nat) (d : Item) (s : State) : (setDout p d s).ticks = s.ticks := rfl
@[simp] theorem setDout_turn (p : Nat) (d : Item) (s : State) : (setDout p d s).turn = s.turn := rfl
@[simp] theorem setDout_resp (p : Nat) (d : Item) (s : State) : (setDout p d s).resp = s.resp := rfl

@[simp] theorem accept_qword (p : Nat) (w : Word) (s : State) : (accept p w s).qword = s.qword := rfl
@[simp] theorem accept_valid (p : Nat) (w : Word) (s : State) : (accept p w s).valid = s.valid := rfl
@[simp] theorem accept_cap (p : Nat) (w : Word) (s : State) : (accept p w s).cap = s.cap := rfl
@[simp] theorem accept_slots (p : Nat) (w : Word) (s : State) : (accept p w s).slots = s.slots := rfl
@[simp] theorem accept_blockBase (p : Nat) (w : Word) (s : State) : (accept p w s).blockBase = s.blockBase := rfl
@[simp] theorem accept_agenda (p : Nat) (w : Word) (s : State) : (accept p w s).agenda = s.agenda := rfl
@[simp] theorem accept_ticks (p : Nat) (w : Word) (s : State) : (accept p w s).ticks = s.ticks := rfl
@[simp] theorem accept_turn (p : Nat) (w : Word) (s : State) : (accept p w s).turn = s.turn := rfl
@[simp] theorem accept_resp (p : Nat) (w : Word) (s : State) : (accept p w s).resp = s.resp := rfl

@[simp] theorem updPort_ports (s : State) (p : Nat) (f : Port → Port) :
    (updPort s p f).ports = s.ports.modify p f := rfl

@[simp] theorem clearReservations_ports (s : State) :
    (clearReservations s).ports = s.ports.map (fun q => { q with res := false }) := rfl

@[simp] theorem takeTurn_ports (p : Nat) (b : Bool) (s : State) : (takeTurn p b s).ports = s.ports := rfl
@[simp] theorem takeTurn_qword (p : Nat) (b : Bool) (s : State) : (takeTurn p b s).qword = s.qword := rfl
@[simp] theorem takeTurn_valid (p : Nat) (b : Bool) (s : State) : (takeTurn p b s).valid = s.valid := rfl
@[simp] theorem takeTurn_cap (p : Nat) (b : Bool) (s : State) : (takeTurn p b s).cap = s.cap := rfl
@[simp] theorem takeTurn_slots (p : Nat) (b : Bool) (s : State) : (takeTurn p b s).slots = s.slots := rfl
@[simp] theorem takeTurn_turn (p : Nat) (b : Bool) (s : State) : (takeTurn p b s).turn = ⟨p, b⟩ := rfl

/-- The state in which only the record of port `p` is another one. -/
abbrev putPort (s : State) (p : Nat) (q : Port) : State := { s with ports := s.ports.set p q }

/-- Changing a record that is there is setting it. -/
theorem updPort_eq_set {s : State} {p : Nat} {q : Port} (h : s.ports[p]? = some q) (f : Port → Port) :
    updPort s p f = putPort s p (f q) := by
  simp [updPort, List.modify_eq_set_getElem?, h]

/-- Two changes of one record are one. -/
theorem updPort_putPort {s : State} {p : Nat} {q : Port} (h : s.ports[p]? = some q) (q' : Port)
    (f : Port → Port) : updPort (putPort s p q') p f = putPort s p (f q') := by
  have := (List.getElem?_eq_some_iff.mp h).1
  simp [updPort, List.modify_eq_set_getElem?, this]

/-- The record that was set is there. -/
theorem get_set_self {l : List Port} {p : Nat} {q : Port} (h : l[p]? = some q) (q' : Port) :
    (l.set p q')[p]? = some q' := by
  have := (List.getElem?_eq_some_iff.mp h).1
  simp [this]

end Sys2Proof.Machine
end

