-- ==== Sys2Proof/Laws/Bus.lean ====
section
/-! SUPPORT. The register interface and reset: the words of the composed registers, the register an offset
reaches, and what an access or reset can do to a port and to the rest of the state. -/

namespace Sys2Proof.Machine

open Sys2Proof

/-- STATUS as a number (10_state.md R42). -/
theorem statusWord_toNat (q : Port) :
    q.statusWord.toNat = q.busy.toNat * 2 ^ 31 + q.ovr.toNat * 2 ^ 30 + q.code.toNat := by
  have := q.code.isLt
  have := Bool.toNat_lt q.ovr
  unfold Port.statusWord
  simp only [BitVec.toNat_append, BitVec.toNat_ofBool]
  rw [← Nat.shiftLeft_add_eq_or_of_lt (by omega), ← Nat.shiftLeft_add_eq_or_of_lt (by simp),
    ← Nat.shiftLeft_add_eq_or_of_lt (by omega)]
  simp [Nat.shiftLeft_eq]
  omega

/-- QCFG as a number (10_state.md R35). -/
theorem qcfgWord_toNat (s : State) : s.qcfgWord.toNat = s.valid.toNat * 2 ^ 31 + s.cap.toNat := by
  have := s.cap.isLt
  unfold State.qcfgWord
  simp only [BitVec.toNat_append, BitVec.toNat_ofBool]
  rw [← Nat.shiftLeft_add_eq_or_of_lt (by omega), ← Nat.shiftLeft_add_eq_or_of_lt (by simp)]
  simp [Nat.shiftLeft_eq]
  omega

/-- QPARAM as a number (10_state.md R38). -/
theorem qparamWord_toNat (s : State) :
    s.qparamWord.toNat = 127 * 2 ^ 8 + s.ports.length % 256 := by
  unfold State.qparamWord
  simp only [BitVec.toNat_append]
  rw [← Nat.shiftLeft_add_eq_or_of_lt (by simp; omega),
    ← Nat.shiftLeft_add_eq_or_of_lt (by simp [Config.capMax])]
  simp [Nat.shiftLeft_eq, Config.capMax]

/-- The offsets of a port's 0x20 bytes (30_encoding.md R142). -/
theorem ofOffset_port {n p k : Nat} (hp : p < n) (hk : k < 0x20) :
    Reg.ofOffset n (0x100 + 0x20 * p + k) = Reg.ofPortOffset p k := by
  unfold Reg.ofOffset
  rw [if_neg (by omega), if_pos (by omega)]
  rw [show (0x100 + 0x20 * p + k - 0x100) / 0x20 = p by omega,
    show (0x100 + 0x20 * p + k - 0x100) % 0x20 = k by omega]

/-- How an access can change a port's record: not at all, in its host registers only, or by the acceptance
of a command. Its reservation and CODE stay (20_memory.md R85, 40_command_execution.md R161, R162). -/
structure Accessed (y x : Port) : Prop where
  res : x.res = y.res
  code : x.code = y.code
  rest : x = y ∨
    (x.phase = y.phase ∧ x.busy = y.busy ∧ x.cw = y.cw ∧ x.vn = y.vn ∧ x.s = y.s ∧ x.din = y.din ∧
      x.d = y.d) ∨
    (y.phase = .idle ∧ x.phase = .start ∧ x.busy = true)

theorem Accessed.same (y : Port) : Accessed y y := ⟨rfl, rfl, .inl rfl⟩

/-- A record after one record was changed by `f`. -/
theorem get_updPort {s : State} {p : Nat} {f : Port → Port} {k : Nat} {x : Port}
    (h : (updPort s p f).ports[k]? = some x) : ∃ y, s.ports[k]? = some y ∧ (x = y ∨ x = f y) := by
  simp only [updPort, List.getElem?_modify] at h
  cases hk : s.ports[k]? with
  | none => simp [hk] at h
  | some y =>
    simp only [hk, Option.map_eq_map, Option.map_some, Option.some.injEq] at h
    refine ⟨y, rfl, ?_⟩
    split at h
    · exact .inr h.symm
    · exact .inl h.symm

/-- A change of host registers only leaves every port `Accessed`. -/
theorem accessed_updPort {s : State} {p : Nat} {f : Port → Port} (hf : ∀ y, Accessed y (f y)) {k : Nat}
    {x : Port} (h : (updPort s p f).ports[k]? = some x) :
    ∃ y, s.ports[k]? = some y ∧ Accessed y x := by
  obtain ⟨y, hy, rfl | rfl⟩ := get_updPort h
  · exact ⟨x, hy, .same x⟩
  · exact ⟨y, hy, hf y⟩

theorem writeReg_ports {r : Reg} {w : Word} {s : State} {k : Nat} {x : Port}
    (h : (writeReg r w s).ports[k]? = some x) : ∃ y, s.ports[k]? = some y ∧ Accessed y x := by
  cases r with
  | cmd p =>
    simp only [writeReg, writeCmd] at h
    split at h
    · next q hq =>
      split at h
      · next hi =>
        rw [accept, updPort_eq_set hq] at h
        by_cases hkp : k = p
        · subst hkp
          have := h.symm.trans (get_set_self hq _)
          injection this with this
          subst this
          exact ⟨q, hq, rfl, rfl, .inr (.inr ⟨hi, rfl, rfl⟩)⟩
        · refine ⟨x, ?_, .same x⟩
          rw [← h]
          exact (List.getElem?_set_ne (fun e => hkp e.symm)).symm
      · exact accessed_updPort (f := fun q => { q with ovr := true })
          (fun y => ⟨rfl, rfl, .inr (.inl ⟨rfl, rfl, rfl, rfl, rfl, rfl, rfl⟩)⟩) h
    · exact ⟨x, h, .same x⟩
  | dinHi p =>
    exact accessed_updPort (f := fun q => { q with dinHi := w })
      (fun y => ⟨rfl, rfl, .inr (.inl ⟨rfl, rfl, rfl, rfl, rfl, rfl, rfl⟩)⟩) h
  | dinLo p =>
    exact accessed_updPort (f := fun q => { q with dinLo := w })
      (fun y => ⟨rfl, rfl, .inr (.inl ⟨rfl, rfl, rfl, rfl, rfl, rfl, rfl⟩)⟩) h
  | qword => exact ⟨x, h, .same x⟩
  | qcfg => exact ⟨x, h, .same x⟩
  | qparam => exact ⟨x, h, .same x⟩
  | status p => exact ⟨x, h, .same x⟩
  | doutHi p => exact ⟨x, h, .same x⟩
  | doutLo p => exact ⟨x, h, .same x⟩

/-- What an access leaves of the state outside the ports (20_memory.md R85). -/
structure SameQueue (s t : State) : Prop where
  qword : t.qword = s.qword
  valid : t.valid = s.valid
  cap : t.cap = s.cap
  slots : t.slots = s.slots
  count : t.ports.length = s.ports.length
  base : t.blockBase = s.blockBase

theorem writeReg_rest (r : Reg) (w : Word) (s : State) : SameQueue s (writeReg r w s) := by
  cases r <;> simp only [writeReg, writeCmd] <;> (repeat' split) <;>
    exact ⟨rfl, rfl, rfl, rfl, by simp [updPort, accept], rfl⟩

theorem busAccess_ports {a : Access} {s : State} {k : Nat} {x : Port}
    (h : (busAccess a s).ports[k]? = some x) : ∃ y, s.ports[k]? = some y ∧ Accessed y x := by
  unfold busAccess at h
  split at h
  · exact ⟨x, h, .same x⟩
  · split at h
    · exact ⟨x, h, .same x⟩
    · exact writeReg_ports h

theorem busAccess_rest (a : Access) (s : State) : SameQueue s (busAccess a s) := by
  unfold busAccess
  split
  · exact ⟨rfl, rfl, rfl, rfl, rfl, rfl⟩
  · next r _ =>
    split
    · exact ⟨rfl, rfl, rfl, rfl, rfl, rfl⟩
    · next w _ =>
      have h := writeReg_rest r w s
      exact ⟨h.qword, h.valid, h.cap, h.slots, h.count, h.base⟩

/-- After reset every port is as at reset (10_state.md R50). -/
theorem resetBlock_ports {s : State} {x : Port} (h : x ∈ (resetBlock s).ports) : x = Port.reset := by
  simp only [resetBlock, State.resetWith, List.mem_replicate] at h
  exact h.2

/-- Taking the next choice touches nothing of PRQC. -/
theorem nextEvent_rest (s : State) : (nextEvent s).2.ports = s.ports ∧ SameQueue s (nextEvent s).2 := by
  unfold nextEvent
  split <;> exact ⟨rfl, rfl, rfl, rfl, rfl, rfl, rfl⟩

end Sys2Proof.Machine
end

