-- ==== Sys2Proof/Laws/Decode.lean ====
section
/-! SUPPORT. The fields of a command word, and when a word decodes to a command. -/

namespace Sys2Proof

theorem cmdOp_toNat (w : Word) : (cmdOp w).toNat = w.toNat % 2 ^ 4 := by
  simp [cmdOp, BitVec.extractLsb'_toNat]

theorem cmdRsvd_toNat (w : Word) : (cmdRsvd w).toNat = w.toNat / 2 ^ 4 % 2 ^ 12 := by
  simp [cmdRsvd, BitVec.extractLsb'_toNat, Nat.shiftRight_eq_div_pow]

theorem cmdArg_toNat (w : Word) : (cmdArg w).toNat = w.toNat / 2 ^ 16 := by
  have := w.isLt
  simp [cmdArg, BitVec.extractLsb'_toNat, Nat.shiftRight_eq_div_pow]
  omega

/-- A command word is its three fields (30_encoding.md R131). -/
theorem cmd_fields (w : Word) : cmdArg w ++ cmdRsvd w ++ cmdOp w = w := by
  apply BitVec.eq_of_toNat_eq
  have := w.isLt
  have := (cmdOp w).isLt
  have := (cmdRsvd w).isLt
  simp only [BitVec.toNat_append]
  rw [← Nat.shiftLeft_add_eq_or_of_lt (by omega), ← Nat.shiftLeft_add_eq_or_of_lt (by omega)]
  simp only [Nat.shiftLeft_eq, cmdOp_toNat, cmdRsvd_toNat, cmdArg_toNat] at *
  omega

theorem decodeBare_ok {w : Word} {i j : Instr} (h : decodeBare w i = .ok j) : cmdArg w = 0 ∧ i = j := by
  unfold decodeBare at h
  split at h
  · next ha => exact ⟨ha, by injection h⟩
  · cases h

/-- A word decodes to a command only if its fields are the ones 30_encoding.md R131 to R133 give it. -/
theorem decodeWord_ok {w : Word} {i : Instr} (h : decodeWord w = .ok i) :
    cmdRsvd w = 0 ∧ cmdOp w = opcode i ∧ cmdArg w = argOf i ∧ WellFormed i = true := by
  unfold decodeWord at h
  split at h
  · next hr =>
    refine ⟨hr, ?_⟩
    split at h
    · next ho =>
      cases h
      refine ⟨BitVec.eq_of_toNat_eq ho, ?_, ?_⟩
      · simp [argOf]
      · have := (cmdArg w).isLt
        simp only [WellFormed, decide_eq_true_eq]
        omega
    all_goals first
      | (next ho =>
          obtain ⟨ha, rfl⟩ := decodeBare_ok h
          exact ⟨BitVec.eq_of_toNat_eq ho, ha, rfl⟩)
      | cases h
  · cases h

theorem encode_toNat (i : Instr) :
    (encode i).toNat = (argOf i).toNat * 2 ^ 16 + (opcode i).toNat := by
  have := (opcode i).isLt
  unfold encode
  simp only [BitVec.toNat_append]
  rw [← Nat.shiftLeft_add_eq_or_of_lt (by omega), ← Nat.shiftLeft_add_eq_or_of_lt (by simp)]
  simp [Nat.shiftLeft_eq]
  omega

/-- The encoder puts OP in bits 3:0 (30_encoding.md R131). -/
theorem cmdOp_encode (i : Instr) : cmdOp (encode i) = opcode i := by
  apply BitVec.eq_of_toNat_eq
  have := (opcode i).isLt
  rw [cmdOp_toNat, encode_toNat]
  omega

/-- The encoder leaves bits 15:4 zero (30_encoding.md R131). -/
theorem cmdRsvd_encode (i : Instr) : cmdRsvd (encode i) = 0 := by
  apply BitVec.eq_of_toNat_eq
  have := (opcode i).isLt
  rw [cmdRsvd_toNat, encode_toNat]
  simp
  omega

/-- The encoder puts ARG in bits 31:16 (30_encoding.md R131). -/
theorem cmdArg_encode (i : Instr) : cmdArg (encode i) = argOf i := by
  apply BitVec.eq_of_toNat_eq
  have := (opcode i).isLt
  rw [cmdArg_toNat, encode_toNat]
  omega

end Sys2Proof
end

