-- ==== Sys2Proof/Laws/Memory.lean ====
section
/-! SUPPORT. The slot store: a read after a write, and the canonical form. -/

namespace Sys2Proof.Machine

open Sys2Proof

theorem Memory.read_write_self (m : Memory) (i : Nat) (d : Item) : (m.write i d).read i = some d := by
  induction m with
  | nil => simp [Memory.write, Memory.read]
  | cons c rest ih =>
    obtain ⟨k, e⟩ := c
    simp only [Memory.write]
    split
    · simp [Memory.read]
    · split
      · simp [Memory.read]
      · next h => simp [Memory.read, ih, Ne.symm h]

theorem Memory.read_write_ne (m : Memory) {i j : Nat} (d : Item) (h : j ≠ i) :
    (m.write i d).read j = m.read j := by
  induction m with
  | nil => simp [Memory.write, Memory.read, h.symm]
  | cons c rest ih =>
    obtain ⟨k, e⟩ := c
    simp only [Memory.write]
    split
    · simp [Memory.read, h.symm]
    · split
      · next hk => subst hk; simp [Memory.read, h.symm]
      · simp [Memory.read, ih]

theorem Memory.read_write (m : Memory) (i j : Nat) (d : Item) :
    (m.write i d).read j = if j = i then some d else m.read j := by
  split
  · next h => subst h; exact m.read_write_self j d
  · next h => exact m.read_write_ne d h

theorem Memory.risingFrom_mono {m : Memory} {a b : Nat} (h : a ≤ b) (hm : m.risingFrom b = true) :
    m.risingFrom a = true := by
  cases m with
  | nil => rfl
  | cons c rest =>
    simp only [Memory.risingFrom, Bool.and_eq_true, decide_eq_true_eq] at hm ⊢
    exact ⟨by omega, hm.2⟩

theorem Memory.risingFrom_write {m : Memory} {lo i : Nat} (d : Item) (h : lo ≤ i)
    (hm : m.risingFrom lo = true) : (m.write i d).risingFrom lo = true := by
  induction m generalizing lo with
  | nil => simp [Memory.write, Memory.risingFrom, h]
  | cons c rest ih =>
    obtain ⟨k, e⟩ := c
    simp only [Memory.risingFrom, Bool.and_eq_true, decide_eq_true_eq] at hm
    simp only [Memory.write]
    split
    · simp [Memory.risingFrom, h, hm.2]; omega
    · split
      · next hk => subst hk; simp [Memory.risingFrom, h, hm.2]
      · simp [Memory.risingFrom, hm.1, ih (by omega) hm.2]

theorem Memory.all_write {m : Memory} {i n : Nat} (d : Item) (h : i < n)
    (hm : m.all (fun c => decide (c.1 < n)) = true) :
    (m.write i d).all (fun c => decide (c.1 < n)) = true := by
  induction m with
  | nil => simp [Memory.write, h]
  | cons c rest ih =>
    obtain ⟨k, e⟩ := c
    simp only [List.all_cons, Bool.and_eq_true] at hm
    simp only [Memory.write]
    split
    · rw [List.all_cons, List.all_cons, hm.1, hm.2]; simp [h]
    · split
      · rw [List.all_cons, hm.2]; simp [h]
      · rw [List.all_cons, hm.1, ih hm.2]; rfl

/-- Every write of a slot keeps the canonical form. -/
theorem Memory.write_wf {m : Memory} {i : Nat} (d : Item) (h : i < Config.nslots) (hm : m.wf = true) :
    (m.write i d).wf = true := by
  simp only [Memory.wf, Bool.and_eq_true] at hm ⊢
  exact ⟨Memory.risingFrom_write d (Nat.zero_le i) hm.1, Memory.all_write d h hm.2⟩

/-- The empty store of reset has the canonical form. -/
theorem Memory.reset_wf : State.reset.slots.wf = true := by decide

/-- A slot that holds an item is one of the slots. -/
theorem Memory.lt_of_read {m : Memory} {i : Nat} {d : Item} (hm : m.wf = true) (h : m.read i = some d) :
    i < Config.nslots := by
  simp only [Memory.wf, Bool.and_eq_true] at hm
  have hall := hm.2
  clear hm
  induction m with
  | nil => simp [Memory.read] at h
  | cons c rest ih =>
    obtain ⟨k, e⟩ := c
    simp only [List.all_cons, Bool.and_eq_true, decide_eq_true_eq] at hall
    simp only [Memory.read] at h
    split at h
    · next hk => exact hk ▸ hall.1
    · exact ih h hall.2

end Sys2Proof.Machine
end

