-- ==== Sys2Proof/Laws/Ops.lean ====
section
/-! SUPPORT. What each shared operation does to a state whose running port is there: one lemma per operation,
cited in place of its definition. -/

namespace Sys2Proof.Machine

open Sys2Proof

variable {s : State} {p : Nat} {q : Port}

theorem onTurn_eq (h : s.ports[s.turn.port]? = some q) (f : Nat → Port → Result) :
    onTurn s f = f s.turn.port q := by
  simp [onTurn, h]

theorem setPhase_eq (h : s.ports[p]? = some q) (ph : Phase) :
    setPhase p ph s = putPort s p
      { q with phase := ph } :=
  updPort_eq_set h _

theorem complete_eq (h : s.ports[p]? = some q) (c : StatusCode) :
    complete p c s = putPort s p
      { q with code := c.value, busy := false, res := false, phase := .idle } :=
  updPort_eq_set h _

theorem reserved_eq (h : s.ports[p]? = some q) : reserved p s = q.res := by
  simp [reserved, h]

/-- 20_memory.md R91, the store made. -/
theorem scw_stored (h : s.ports[p]? = some q) (hr : q.res = true) (hs : s.turn.spurious = false)
    (vn : Word) : scw p vn s = (true, clearReservations { s with qword := vn }) := by
  simp [scw, reserved_eq h, hr, hs]

/-- 20_memory.md R91, the store not made. -/
theorem scw_failed (h : s.ports[p]? = some q) (hr : ¬(q.res = true ∧ s.turn.spurious = false))
    (vn : Word) :
    scw p vn s = (false, putPort s p
      { q with res := false }) := by
  have : (reserved p s && !s.turn.spurious) = false := by
    rw [reserved_eq h]
    cases hq : q.res <;> cases ht : s.turn.spurious <;> simp_all
  simp [scw, this, updPort_eq_set h]

/-- 20_memory.md R95 on a written slot. -/
theorem slotRead_some {i : Nat} {d : Item} (hi : i < Config.nslots) (h : s.slots.read i = some d)
    (k : Item → State) : slotRead i s k = .next (k d) := by
  simp [slotRead, hi, h]

/-- 20_memory.md R95: a slot read answers a next state only for a written slot. -/
theorem slotRead_next {i : Nat} {k : Item → State} {t : State} (h : slotRead i s k = .next t) :
    i < Config.nslots ∧ ∃ d, s.slots.read i = some d ∧ t = k d := by
  unfold slotRead at h
  split at h
  · next hi =>
    split at h
    · next d hd => exact ⟨hi, d, hd, by injection h with h; exact h.symm⟩
    · cases h
  · cases h

/-- 20_memory.md R96. -/
theorem slotWrite_next {i : Nat} {d : Item} {k : State → State} {t : State}
    (h : slotWrite i d s k = .next t) :
    i < Config.nslots ∧ t = k { s with slots := s.slots.write i d } := by
  unfold slotWrite at h
  split at h
  · next hi => exact ⟨hi, by injection h with h; exact h.symm⟩
  · cases h

/-- Whether some port other than `p` is not IDLE, said of the records. -/
theorem othersBusy_iff :
    othersBusy p s = true ↔ ∃ r q, r ≠ p ∧ s.ports[r]? = some q ∧ q.phase ≠ .idle := by
  simp only [othersBusy, List.any_eq_true, decide_eq_true_eq, List.mem_eraseIdx_iff_getElem?]
  constructor
  · rintro ⟨q, ⟨r, hr, hq⟩, hph⟩
    exact ⟨r, q, hr, hq, hph⟩
  · rintro ⟨r, q, hr, hq, hph⟩
    exact ⟨q, ⟨r, hr, hq⟩, hph⟩

theorem othersBusy_false_iff :
    othersBusy p s = false ↔ ∀ r q, r ≠ p → s.ports[r]? = some q → q.phase = .idle := by
  rw [← Bool.not_eq_true, othersBusy_iff]
  push Not
  rfl

end Sys2Proof.Machine
end

