-- ==== Sys2Proof/Laws/Micro.lean ====
section
/-! SUPPORT. Each micro-step as one update of the state, for a port that is there: one lemma per phase. -/

namespace Sys2Proof.Machine

open Sys2Proof

variable {s : State} {p : Nat} {q : Port}

theorem startOnQueue_eq (h : s.ports[p]? = some q) (ph : Phase) :
    startOnQueue p ph s = putPort s p
      (if s.valid then { q with phase := ph }
       else { q with code := 0x01#8, busy := false, res := false, phase := .idle }) := by
  unfold startOnQueue
  split
  · rw [setPhase_eq h]
  · rw [complete_eq h]; rfl

theorem setPhase_putPort (h : s.ports[p]? = some q) (q' : Port) (ph : Phase) :
    setPhase p ph (putPort s p q') = putPort s p { q' with phase := ph } :=
  updPort_putPort h q' _

theorem complete_putPort (h : s.ports[p]? = some q) (q' : Port) (c : StatusCode) :
    complete p c (putPort s p q') = putPort s p
      { q' with code := c.value, busy := false, res := false, phase := .idle } :=
  updPort_putPort h q' _

/-- 42_enqueue.md R212. -/
theorem e1LL_eq (h : s.ports[p]? = some q) (op : BitVec 4) :
    e1LL op p s = putPort s p
      (if phase1Cond s.cap s.qword then
        { q with res := true, v := s.qword, s := slotIndex (Qword.wp s.qword),
                 vn := phase1Word s.cap s.qword, phase := .e1SC }
       else if op = 0x4#4 then
        { q with v := s.qword, code := 0x03#8, busy := false, res := false, phase := .idle }
       else { q with res := true, v := s.qword, phase := .e1Yield }) := by
  simp only [e1LL, llw, opcode, updPort_eq_set h, updPort_putPort h, complete_putPort h,
    setPhase_putPort h]
  split
  · rfl
  · split <;> rfl

/-- 42_enqueue.md R217. -/
theorem e2LL_eq (h : s.ports[p]? = some q) :
    e2LL p s = putPort s p
      (if phase2Cond s.qword then
        { q with res := true, v := s.qword, vn := phase2Word s.qword, phase := .e2SC }
       else { q with res := true, v := s.qword, phase := .e2Yield }) := by
  simp only [e2LL, llw, updPort_eq_set h, updPort_putPort h, setPhase_putPort h]
  split <;> rfl

/-- 43_dequeue.md R241. -/
theorem dLL_eq (h : s.ports[p]? = some q) (op : BitVec 4) :
    dLL op p s = putPort s p
      (if deqCond s.qword then
        { q with res := true, v := s.qword, s := slotIndex (Qword.rp s.qword),
                 vn := deqWord s.cap s.qword, phase := .dRead }
       else if op = 0x6#4 then
        { q with v := s.qword, code := 0x03#8, busy := false, res := false, phase := .idle }
       else { q with res := true, v := s.qword, phase := .dYield }) := by
  simp only [dLL, llw, opcode, updPort_eq_set h, updPort_putPort h, complete_putPort h,
    setPhase_putPort h]
  split
  · rfl
  · split <;> rfl

/-- 44_peek.md R261. -/
theorem pRdw_eq (h : s.ports[p]? = some q) :
    pRdw p s = putPort s p
      (if (Qword.rc s.qword).toNat = 0 then
        { q with v := s.qword, code := 0x04#8, busy := false, res := false, phase := .idle }
       else { q with v := s.qword, s := slotIndex (Qword.rp s.qword), phase := .pRead }) := by
  simp only [pRdw, rdw, updPort_eq_set h, updPort_putPort h, complete_putPort h]
  split <;> rfl

/-- The state after a store to QWORD by port `p`, whose record becomes `q'`: every reservation is gone. -/
def afterStore (s : State) (p : Nat) (w : Word) (q' : Port) : State :=
  { s with qword := w, ports := (s.ports.map (fun r => { r with res := false })).set p q' }

theorem get_map_clear (h : s.ports[p]? = some q) :
    (s.ports.map (fun r => { r with res := false }))[p]? = some { q with res := false } := by
  simp [h]

/-- 42_enqueue.md R215, the store made. -/
theorem e1SC_stored (h : s.ports[p]? = some q) (hr : q.res = true) (hs : s.turn.spurious = false) :
    e1SC p q s = afterStore s p q.vn { q with res := false, phase := .eWrite } := by
  rw [e1SC, scw_stored h hr hs]
  exact setPhase_eq (s := clearReservations { s with qword := q.vn }) (get_map_clear h) _

/-- 42_enqueue.md R220, the store made. -/
theorem e2SC_stored (h : s.ports[p]? = some q) (hr : q.res = true) (hs : s.turn.spurious = false) :
    e2SC p q s =
      afterStore s p q.vn { q with code := 0x00#8, busy := false, res := false, phase := .idle } := by
  rw [e2SC, scw_stored h hr hs]
  exact complete_eq (s := clearReservations { s with qword := q.vn }) (get_map_clear h) .success

/-- 43_dequeue.md R244, the store made. -/
theorem dSC_stored (h : s.ports[p]? = some q) (hr : q.res = true) (hs : s.turn.spurious = false) :
    dSC p q s = afterStore s p q.vn
      { q with doutHi := itemHi q.d, doutLo := itemLo q.d, code := 0x00#8, busy := false,
               res := false, phase := .idle } := by
  rw [dSC, scw_stored h hr hs]
  simp only [setDout, if_true]
  rw [updPort_eq_set (s := clearReservations { s with qword := q.vn }) (get_map_clear h),
    complete_putPort (s := clearReservations { s with qword := q.vn }) (get_map_clear h)]
  rfl

theorem scw_failed_then (h : s.ports[p]? = some q) (hr : ¬(q.res = true ∧ s.turn.spurious = false))
    (ph : Phase) :
    setPhase p ph (scw p q.vn s).2 =
      putPort s p
      { q with res := false, phase := ph } := by
  rw [scw_failed h hr, setPhase_putPort h]

/-- 42_enqueue.md R215, the store not made. -/
theorem e1SC_failed (h : s.ports[p]? = some q) (hr : ¬(q.res = true ∧ s.turn.spurious = false)) :
    e1SC p q s = putPort s p
      { q with res := false, phase := .e1LL } := by
  rw [← scw_failed_then h hr, e1SC, scw_failed h hr]
  rfl

/-- 42_enqueue.md R220, the store not made. -/
theorem e2SC_failed (h : s.ports[p]? = some q) (hr : ¬(q.res = true ∧ s.turn.spurious = false)) :
    e2SC p q s = putPort s p
      { q with res := false, phase := .e2LL } := by
  rw [← scw_failed_then h hr, e2SC, scw_failed h hr]
  rfl

/-- 43_dequeue.md R244, the store not made. -/
theorem dSC_failed (h : s.ports[p]? = some q) (hr : ¬(q.res = true ∧ s.turn.spurious = false)) :
    dSC p q s = putPort s p
      { q with res := false, phase := .dLL } := by
  rw [← scw_failed_then h hr, dSC, scw_failed h hr]
  rfl

/-- 42_enqueue.md R216. -/
theorem eWrite_eq (h : s.ports[p]? = some q) (hi : q.s.toNat < Config.nslots) :
    eWrite p q s = .next { s with
      slots := s.slots.write q.s.toNat q.din, ports := s.ports.set p { q with phase := .e2LL } } := by
  simp only [eWrite, slotWrite, hi, if_true]
  rw [setPhase_eq (s := { s with slots := s.slots.write q.s.toNat q.din }) h]

/-- 43_dequeue.md R245, the rest of the step. -/
theorem dRead_rest (h : s.ports[p]? = some q) (d : Item) :
    updPort s p (fun q => { q with d := d, phase := .dSC }) =
      putPort s p
      { q with d := d, phase := .dSC } :=
  updPort_eq_set h _

/-- 44_peek.md R262, the rest of the step. -/
theorem pRead_rest (h : s.ports[p]? = some q) (d : Item) :
    complete p .success (setDout p d (updPort s p (fun q => { q with d := d }))) =
      putPort s p
      { q with d := d, doutHi := itemHi d, doutLo := itemLo d, code := 0x00#8, busy := false,
                 res := false, phase := .idle } := by
  rw [updPort_eq_set h, setDout, updPort_putPort h, complete_putPort h]
  rfl

end Sys2Proof.Machine
end

