-- ==== Sys2Proof/Laws/Exec.lean ====
section
/-! SUPPORT. Every command is its START step and the micro-steps its port's phase names: one equation for all
commands, and one for the turn of any port. -/

namespace Sys2Proof.Machine

open Sys2Proof

variable {s : State} {q : Port}

/-- The START step of a command, after the test of legality (40_command_execution.md R164, R165). -/
def startOf (i : Instr) (p : Nat) (s : State) : State :=
  match i with
  | .init cap => initStart cap p s
  | .destroy => destroyStart p s
  | .enq | .tryenq => startOnQueue p .e1LL s
  | .deq | .trydeq => startOnQueue p .dLL s
  | .peek => startOnQueue p .pRdw s

/-- The START step of a latched word (40_command_execution.md R163 to R165). -/
def startWord (w : Word) (p : Nat) (s : State) : State :=
  match decodeWord w with
  | .ok i => startOf i p s
  | .error _ => complete p .illegalCmd s

/-- What `exec` does for a port that is there. -/
theorem exec_eq (h : s.ports[s.turn.port]? = some q) (i : Instr) :
    exec i s = runPhase (opcode i) (startOf i s.turn.port s) s.turn.port q s := by
  cases i <;>
    simp only [exec, execInit, execDestroy, execEnq, execTryenq, execDeq, execTrydeq, execPeek,
      onTurn_eq h, startOf]

/-- What the turn of a port does: the command is the latched word's. -/
theorem runTurn_eq (h : s.ports[s.turn.port]? = some q) :
    runTurn s = runPhase (cmdOp q.cw) (startWord q.cw s.turn.port s) s.turn.port q s := by
  unfold runTurn fetch startWord
  simp only [h]
  by_cases hi : q.phase = .idle
  · simp [hi, runPhase]
  · simp only [hi, if_false]
    cases hd : decodeWord q.cw with
    | error r => simp only [execIllegal, onTurn_eq h]
    | ok i => simp only [exec_eq h, (decodeWord_ok hd).2.1]

/-- A turn that names no port changes nothing. -/
theorem runTurn_none (h : s.ports[s.turn.port]? = none) : runTurn s = .next s := by
  simp [runTurn, fetch, h]

/-- The phase after START of a command that goes on (40_command_execution.md R165). -/
def firstPhase (i : Instr) : Option Phase :=
  match i with
  | .init _ | .destroy => none
  | .enq | .tryenq => some .e1LL
  | .deq | .trydeq => some .dLL
  | .peek => some .pRdw

/-- What the turn of a port can do to the state: one case per outcome of a micro-step. -/
inductive Moves (s : State) (p : Nat) (q : Port) : State → Prop
  /-- An IDLE port takes no step (log 3). -/
  | still (hph : q.phase = .idle) : Moves s p q s
  /-- START ends the command with a failure code. -/
  | startFailed (hph : q.phase = .start) (c : Byte)
      (hc : c ∈ [0x01#8, 0x06#8, 0x07#8, 0x08#8, 0x09#8]) :
      Moves s p q
        (putPort s p { q with code := c, busy := false, res := false, phase := .idle })
  /-- START of a command that goes on. -/
  | started (hph : q.phase = .start) (i : Instr) (ph : Phase) (hi : decodeWord q.cw = .ok i)
      (hv : s.valid = true) (hf : firstPhase i = some ph) :
      Moves s p q (putPort s p { q with phase := ph })
  /-- INIT succeeds. -/
  | created (hph : q.phase = .start) (cap : Nat) (hi : decodeWord q.cw = .ok (.init cap))
      (ho : othersBusy p s = false) (h1 : 1 ≤ cap) (h2 : cap ≤ 127) :
      Moves s p q (afterStore { s with cap := BitVec.ofNat 7 cap, valid := true } p 0#32
        { q with code := 0x00#8, busy := false, res := false, phase := .idle })
  /-- DESTROY succeeds. -/
  | destroyed (hph : q.phase = .start) (hi : decodeWord q.cw = .ok .destroy)
      (hv : s.valid = true) (ho : othersBusy p s = false) :
      Moves s p q (afterStore { s with cap := 0, valid := false } p 0#32
        { q with code := 0x00#8, busy := false, res := false, phase := .idle })
  /-- E1_LL, the condition holds. -/
  | reserving (hph : q.phase = .e1LL) (hc : phase1Cond s.cap s.qword = true) :
      Moves s p q (putPort s p
        { q with res := true, v := s.qword, s := slotIndex (Qword.wp s.qword),
                 vn := phase1Word s.cap s.qword, phase := .e1SC })
  /-- E1_LL or D_LL of a try command, the condition fails. -/
  | retry (hph : q.phase = .e1LL ∧ phase1Cond s.cap s.qword = false ∧ cmdOp q.cw = 0x4#4 ∨
        q.phase = .dLL ∧ deqCond s.qword = false ∧ cmdOp q.cw = 0x6#4) :
      Moves s p q (putPort s p
        { q with v := s.qword, code := 0x03#8, busy := false, res := false, phase := .idle })
  /-- E1_LL, E2_LL or D_LL, the condition fails and the command waits. -/
  | waiting (ph : Phase)
      (hph : q.phase = .e1LL ∧ phase1Cond s.cap s.qword = false ∧ ph = .e1Yield ∨
        q.phase = .e2LL ∧ phase2Cond s.qword = false ∧ ph = .e2Yield ∨
        q.phase = .dLL ∧ deqCond s.qword = false ∧ ph = .dYield)
      (hop : (q.phase = .e1LL → cmdOp q.cw ≠ 0x4#4) ∧ (q.phase = .dLL → cmdOp q.cw ≠ 0x6#4)) :
      Moves s p q (putPort s p { q with res := true, v := s.qword, phase := ph })
  /-- A store-conditional that makes no store. -/
  | lost (ph : Phase) (hph : q.phase = .e1SC ∧ ph = .e1LL ∨ q.phase = .e2SC ∧ ph = .e2LL ∨
        q.phase = .dSC ∧ ph = .dLL)
      (hr : ¬(q.res = true ∧ s.turn.spurious = false)) :
      Moves s p q (putPort s p { q with res := false, phase := ph })
  /-- A yield. -/
  | yielded (ph : Phase) (hph : q.phase = .e1Yield ∧ ph = .e1LL ∨ q.phase = .e2Yield ∧ ph = .e2LL ∨
        q.phase = .dYield ∧ ph = .dLL) :
      Moves s p q (putPort s p { q with phase := ph })
  /-- E1_SC, the store made. -/
  | reservedSlot (hph : q.phase = .e1SC) (hr : q.res = true) (hs : s.turn.spurious = false) :
      Moves s p q (afterStore s p q.vn { q with res := false, phase := .eWrite })
  /-- E_WRITE. -/
  | wrote (hph : q.phase = .eWrite) (hi : q.s.toNat < Config.nslots) :
      Moves s p q (putPort { s with slots := s.slots.write q.s.toNat q.din } p
        { q with phase := .e2LL })
  /-- E2_LL, the condition holds. -/
  | committing (hph : q.phase = .e2LL) (hc : phase2Cond s.qword = true) :
      Moves s p q (putPort s p
        { q with res := true, v := s.qword, vn := phase2Word s.qword, phase := .e2SC })
  /-- E2_SC, the store made. -/
  | committed (hph : q.phase = .e2SC) (hr : q.res = true) (hs : s.turn.spurious = false) :
      Moves s p q (afterStore s p q.vn
        { q with code := 0x00#8, busy := false, res := false, phase := .idle })
  /-- D_LL, the condition holds. -/
  | taking (hph : q.phase = .dLL) (hc : deqCond s.qword = true) :
      Moves s p q (putPort s p
        { q with res := true, v := s.qword, s := slotIndex (Qword.rp s.qword),
                 vn := deqWord s.cap s.qword, phase := .dRead })
  /-- D_READ. -/
  | itemRead (d : Item) (hph : q.phase = .dRead) (hi : q.s.toNat < Config.nslots)
      (hd : s.slots.read q.s.toNat = some d) :
      Moves s p q (putPort s p { q with d := d, phase := .dSC })
  /-- D_SC, the store made. -/
  | taken (hph : q.phase = .dSC) (hr : q.res = true) (hs : s.turn.spurious = false) :
      Moves s p q (afterStore s p q.vn
        { q with doutHi := itemHi q.d, doutLo := itemLo q.d, code := 0x00#8, busy := false,
                 res := false, phase := .idle })
  /-- P_RDW of an empty queue. -/
  | noData (hph : q.phase = .pRdw) (hc : (Qword.rc s.qword).toNat = 0) :
      Moves s p q (putPort s p
        { q with v := s.qword, code := 0x04#8, busy := false, res := false, phase := .idle })
  /-- P_RDW of a queue with an item. -/
  | peeking (hph : q.phase = .pRdw) (hc : (Qword.rc s.qword).toNat ≠ 0) :
      Moves s p q (putPort s p
        { q with v := s.qword, s := slotIndex (Qword.rp s.qword), phase := .pRead })
  /-- P_READ. -/
  | peeked (d : Item) (hph : q.phase = .pRead) (hi : q.s.toNat < Config.nslots)
      (hd : s.slots.read q.s.toNat = some d) :
      Moves s p q (putPort s p
        { q with d := d, doutHi := itemHi d, doutLo := itemLo d, code := 0x00#8, busy := false,
                 res := false, phase := .idle })

/-- START's outcomes are among `Moves`. -/
theorem moves_of_start {p : Nat} (h : s.ports[p]? = some q) (hph : q.phase = .start) :
    Moves s p q (startWord q.cw p s) := by
  unfold startWord
  split
  · next i hi =>
    have queue : ∀ ph, firstPhase i = some ph → Moves s p q (startOnQueue p ph s) := by
      intro ph hf
      rw [startOnQueue_eq h]
      split
      · next hv => exact .started hph i ph hi hv hf
      · exact .startFailed hph 0x01#8 (by decide)
    cases i with
    | init cap =>
      simp only [startOf, initStart]
      split
      · rw [complete_eq h]; exact .startFailed hph 0x06#8 (by decide)
      · next ho =>
        split
        · rw [complete_eq h]; exact .startFailed hph 0x07#8 (by decide)
        · next h2 =>
          split
          · rw [complete_eq h]; exact .startFailed hph 0x08#8 (by decide)
          · next h1 =>
            rw [complete_eq (s := clearReservations
              { s with qword := pack 0 0 0 0, cap := BitVec.ofNat 7 cap, valid := true })
              (get_map_clear h)]
            exact .created hph cap hi (by simpa using ho) (by omega)
              (by simp only [Config.capMax] at h2; omega)
    | destroy =>
      simp only [startOf, destroyStart]
      split
      · rw [complete_eq h]; exact .startFailed hph 0x01#8 (by decide)
      · next hv =>
        split
        · rw [complete_eq h]; exact .startFailed hph 0x06#8 (by decide)
        · next ho =>
          rw [complete_eq (s := clearReservations
            { s with qword := 0x00000000#32, cap := 0, valid := false }) (get_map_clear h)]
          exact .destroyed hph hi (by simpa using hv) (by simpa using ho)
    | enq => exact queue .e1LL rfl
    | tryenq => exact queue .e1LL rfl
    | deq => exact queue .dLL rfl
    | trydeq => exact queue .dLL rfl
    | peek => exact queue .pRdw rfl
  · rw [complete_eq h]; exact .startFailed hph 0x09#8 (by decide)

/-- Whatever the turn of a port answers as a next state is one of the cases of `Moves`. -/
theorem moves_of_runTurn (h : s.ports[s.turn.port]? = some q) {t : State} (ht : runTurn s = .next t) :
    Moves s s.turn.port q t := by
  rw [runTurn_eq h] at ht
  cases hph : q.phase <;> simp only [runPhase, hph] at ht
  case idle => cases ht; exact .still hph
  case start => cases ht; exact moves_of_start h hph
  case e1LL =>
    cases ht
    rw [e1LL_eq h]
    split
    · next hc => exact .reserving hph hc
    · next hc =>
      split
      · next ho => exact .retry (.inl ⟨hph, by simpa using hc, ho⟩)
      · next ho =>
        exact .waiting .e1Yield (.inl ⟨hph, by simpa using hc, rfl⟩) ⟨fun _ => ho, by simp [hph]⟩
  case e1SC =>
    cases ht
    by_cases hr : q.res = true ∧ s.turn.spurious = false
    · rw [e1SC_stored h hr.1 hr.2]; exact .reservedSlot hph hr.1 hr.2
    · rw [e1SC_failed h hr]; exact .lost .e1LL (.inl ⟨hph, rfl⟩) hr
  case e1Yield =>
    cases ht
    rw [e1Yield, setPhase_eq h]; exact .yielded .e1LL (.inl ⟨hph, rfl⟩)
  case eWrite =>
    obtain ⟨hi, rfl⟩ := slotWrite_next ht
    rw [setPhase_eq (s := { s with slots := s.slots.write q.s.toNat q.din }) h]
    exact .wrote hph hi
  case e2LL =>
    cases ht
    rw [e2LL_eq h]
    split
    · next hc => exact .committing hph hc
    · next hc =>
      exact .waiting .e2Yield (.inr (.inl ⟨hph, by simpa using hc, rfl⟩)) (by simp [hph])
  case e2SC =>
    cases ht
    by_cases hr : q.res = true ∧ s.turn.spurious = false
    · rw [e2SC_stored h hr.1 hr.2]; exact .committed hph hr.1 hr.2
    · rw [e2SC_failed h hr]; exact .lost .e2LL (.inr (.inl ⟨hph, rfl⟩)) hr
  case e2Yield =>
    cases ht
    rw [e2Yield, setPhase_eq h]; exact .yielded .e2LL (.inr (.inl ⟨hph, rfl⟩))
  case dLL =>
    cases ht
    rw [dLL_eq h]
    split
    · next hc => exact .taking hph hc
    · next hc =>
      split
      · next ho => exact .retry (.inr ⟨hph, by simpa using hc, ho⟩)
      · next ho =>
        exact .waiting .dYield (.inr (.inr ⟨hph, by simpa using hc, rfl⟩)) ⟨by simp [hph], fun _ => ho⟩
  case dRead =>
    obtain ⟨hi, d, hd, rfl⟩ := slotRead_next ht
    rw [dRead_rest h]; exact .itemRead d hph hi hd
  case dSC =>
    cases ht
    by_cases hr : q.res = true ∧ s.turn.spurious = false
    · rw [dSC_stored h hr.1 hr.2]; exact .taken hph hr.1 hr.2
    · rw [dSC_failed h hr]; exact .lost .dLL (.inr (.inr ⟨hph, rfl⟩)) hr
  case dYield =>
    cases ht
    rw [dYield, setPhase_eq h]; exact .yielded .dLL (.inr (.inr ⟨hph, rfl⟩))
  case pRdw =>
    cases ht
    rw [pRdw_eq h]
    split
    · next hc => exact .noData hph hc
    · next hc => exact .peeking hph hc
  case pRead =>
    obtain ⟨hi, d, hd, rfl⟩ := slotRead_next ht
    rw [pRead_rest h]; exact .peeked d hph hi hd

/-- What a step of the given kind can do, when it answers a next state. -/
theorem runEvent_next {e : Event} {t : State} (ht : runEvent e s = .next t) :
    (∃ a, e = .access a ∧ t = busAccess a s) ∨
    (e = .reset ∧ t = resetBlock s) ∨
    (∃ p b, e = .port p b ∧ s.ports[p]? = none ∧ t = takeTurn p b s) ∨
    (∃ p b q, e = .port p b ∧ s.ports[p]? = some q ∧ Moves (takeTurn p b s) p q t) := by
  cases e with
  | access a => cases ht; exact .inl ⟨a, rfl, rfl⟩
  | reset => cases ht; exact .inr (.inl ⟨rfl, rfl⟩)
  | port p b =>
    right; right
    cases hq : s.ports[p]? with
    | none =>
      left
      have hn : runTurn (takeTurn p b s) = .next (takeTurn p b s) := runTurn_none hq
      refine ⟨p, b, rfl, hq, ?_⟩
      simp only [runEvent, hn] at ht
      cases ht
      rfl
    | some q => exact .inr ⟨p, b, q, rfl, hq, moves_of_runTurn (s := takeTurn p b s) hq ht⟩

end Sys2Proof.Machine
end

