-- ==== Sys2Proof/Laws/PerInstr.lean ====
section
/-! SUPPORT. What the encoder puts in each field of a command's word, command by command (30_encoding.md
R131 to R133). -/

namespace Sys2Proof.Laws.EncodedFields

open Sys2Proof

/-- The word of a command has its OP, its ARG and reserved bits 0, and a word whose bits 15:4 are not 0 is
never it. -/
def Statement (i : Instr) : Prop :=
  cmdOp (encode i) = opcode i ∧ cmdRsvd (encode i) = 0 ∧ cmdArg (encode i) = argOf i ∧
    ∀ w, cmdRsvd w ≠ 0 → w ≠ encode i

/-- The encoder writes the fields of every command. -/
theorem fields (i : Instr) : Statement i :=
  ⟨cmdOp_encode i, cmdRsvd_encode i, cmdArg_encode i,
    fun _ hw he => hw (by rw [he]; exact cmdRsvd_encode i)⟩

theorem init (cap : Nat) : Statement (.init cap) := fields _
theorem destroy : Statement .destroy := fields _
theorem enq : Statement .enq := fields _
theorem tryenq : Statement .tryenq := fields _
theorem deq : Statement .deq := fields _
theorem trydeq : Statement .trydeq := fields _
theorem peek : Statement .peek := fields _

end Sys2Proof.Laws.EncodedFields
end

