-- ==== Sys2Proof/Laws/Ports.lean ====
section
/-! SUPPORT. Lists of ports: a port of a list in which one record was set, and counting the ports with a
property. -/

namespace Sys2Proof.Machine

/-- A port of the list after one record was set is that record or an old one elsewhere. -/
theorem mem_set_cases {l : List Port} {p : Nat} {x q : Port} (h : q ∈ l.set p x) :
    q = x ∨ ∃ r, r ≠ p ∧ l[r]? = some q := by
  obtain ⟨r, hr⟩ := List.mem_iff_getElem?.mp h
  rw [List.getElem?_set] at hr
  split at hr
  · split at hr
    · left; injection hr with h; exact h.symm
    · cases hr
  · right; exact ⟨r, by omega, hr⟩

/-- Another port's record is the old one. -/
theorem get_set_ne {l : List Port} {p r : Nat} (x : Port) (h : r ≠ p) : (l.set p x)[r]? = l[r]? := by
  rw [List.getElem?_set, if_neg (Ne.symm h)]

/-- Counting after one record was set. -/
theorem countP_set_add {P : Port → Bool} {l : List Port} {p : Nat} {q : Port} (h : l[p]? = some q)
    (x : Port) :
    (l.set p x).countP P + (if P q then 1 else 0) = l.countP P + (if P x then 1 else 0) := by
  obtain ⟨hp, hq⟩ := List.getElem?_eq_some_iff.mp h
  have hpos : P q = true → 1 ≤ l.countP P := fun hP =>
    List.countP_pos_iff.mpr ⟨q, List.mem_iff_getElem?.mpr ⟨p, h⟩, hP⟩
  rw [List.countP_set hp, hq]
  by_cases hP : P q = true
  · have := hpos hP
    simp only [hP, if_true]
    omega
  · simp only [hP]
    simp

/-- Two ports with the property count two. -/
theorem two_le_countP {P : Port → Bool} {l : List Port} {a b : Nat} {x y : Port} (hab : a ≠ b)
    (ha : l[a]? = some x) (hb : l[b]? = some y) (hx : P x = true) (hy : P y = true) :
    2 ≤ l.countP P := by
  induction l generalizing a b with
  | nil => simp at ha
  | cons c rest ih =>
    have pos : ∀ {a : Nat} {x : Port}, rest[a]? = some x → P x = true → 1 ≤ rest.countP P :=
      fun h hx => List.countP_pos_iff.mpr ⟨_, List.mem_iff_getElem?.mpr ⟨_, h⟩, hx⟩
    rw [List.countP_cons]
    cases a with
    | zero =>
      cases b with
      | zero => exact absurd rfl hab
      | succ b =>
        simp only [List.getElem?_cons_zero, Option.some.injEq, List.getElem?_cons_succ] at ha hb
        subst ha
        have := pos hb hy
        simp only [hx, if_true]
        omega
    | succ a =>
      cases b with
      | zero =>
        simp only [List.getElem?_cons_zero, Option.some.injEq, List.getElem?_cons_succ] at ha hb
        subst hb
        have := pos ha hx
        simp only [hy, if_true]
        omega
      | succ b =>
        simp only [List.getElem?_cons_succ] at ha hb
        have := ih (by omega) ha hb
        omega

/-- If no port but `p` has the property and `p` has not, none has. -/
theorem countP_eq_zero_of {P : Port → Bool} {l : List Port} {p : Nat} {q : Port} (h : l[p]? = some q)
    (hq : P q = false) (ho : ∀ r x, r ≠ p → l[r]? = some x → P x = false) : l.countP P = 0 := by
  rw [List.countP_eq_zero]
  intro x hx
  obtain ⟨r, hr⟩ := List.mem_iff_getElem?.mp hx
  by_cases hrp : r = p
  · subst hrp
    rw [h] at hr
    injection hr with hr
    simp [← hr, hq]
  · simp [ho r x hrp hr]

end Sys2Proof.Machine
end

