-- ==== Sys2Proof/Laws/Queue.lean ====
section
/-! SUPPORT. The records after one was set or after a store to QWORD, the count of ports in the window after a
store, and the arithmetic of the circular slots. -/

namespace Sys2Proof.Machine

open Sys2Proof Sys2Proof.Safety

variable {s : State} {p r : Nat} {q x y : Port} {w : Word}

/-- A record after the record of port `p` was set. -/
theorem get_putPort (h : s.ports[r]? = some x) (h' : (putPort s p q).ports[r]? = some y) :
    (r = p ∧ y = q) ∨ (r ≠ p ∧ y = x) := by
  by_cases e : r = p
  · subst e
    have := h'.symm.trans (get_set_self h q)
    injection this with this
    exact .inl ⟨rfl, this⟩
  · have := h'.symm.trans (get_set_ne q e)
    rw [h] at this
    injection this with this
    exact .inr ⟨e, this⟩

/-- A record after a store by port `p`: the one that was set, or an old one that lost its reservation. -/
theorem mem_afterStore (h : y ∈ (afterStore s p w q).ports) :
    y = q ∨ ∃ k x, k ≠ p ∧ s.ports[k]? = some x ∧ y = { x with res := false } := by
  rcases mem_set_cases h with rfl | ⟨k, hk, hx⟩
  · exact .inl rfl
  · right
    rw [List.getElem?_map] at hx
    cases hs : s.ports[k]? with
    | none => simp [hs] at hx
    | some x =>
      simp only [hs, Option.map_some, Option.some.injEq] at hx
      exact ⟨k, x, hk, hs, hx.symm⟩

/-- No port holds a reservation after a store (20_memory.md R92). -/
theorem res_afterStore (hq : q.res = false) (h : y ∈ (afterStore s p w q).ports) : y.res = false := by
  rcases mem_afterStore h with rfl | ⟨k, x, _, _, rfl⟩
  · exact hq
  · rfl

/-- The ports in the window after a store by port `p`. -/
theorem countP_afterStore (h : s.ports[p]? = some q) (q' : Port) :
    (afterStore s p w q').ports.countP (fun r => windowPhase r.phase) +
        (if windowPhase q.phase then 1 else 0) =
      s.ports.countP (fun r => windowPhase r.phase) + (if windowPhase q'.phase then 1 else 0) := by
  have h' : (s.ports.map (fun r => { r with res := false }))[p]? = some { q with res := false } :=
    get_map_clear h
  have := countP_set_add (P := fun r => windowPhase r.phase) h' q'
  simp only [List.countP_map] at this
  exact this

/-- Distinct offsets below the capacity name distinct slots. -/
theorem circular_ne {a i j c : Nat} (hi : i < j) (hj : j < c) : (a + i) % c ≠ (a + j) % c := by
  intro e
  have h := Nat.ModEq.add_left_cancel' a (show a + i ≡ a + j [MOD c] from e)
  unfold Nat.ModEq at h
  rw [Nat.mod_eq_of_lt (by omega), Nat.mod_eq_of_lt hj] at h
  omega

/-- A port past START has a queue (10_state.md R51). -/
theorem valid_of_phase (h : QueueInv s) (hq : q ∈ s.ports) (h1 : q.phase ≠ .idle)
    (h2 : q.phase ≠ .start) : s.valid = true := by
  by_contra hv
  rcases ((h.1 (by simpa using hv)).2.2 q hq).1 with hp | hp
  · exact h1 hp
  · exact h2 hp

end Sys2Proof.Machine
end

