-- ==== Sys2Proof/Tests/Slice0.lean ====
section
/-! SUPPORT. The model's own tests: words decoded bit by bit, single steps with the results 95_test_vectors.md
gives (its row is named beside each), and for every obligation with hypotheses a state that meets them. -/

namespace Sys2Proof.Tests

open Sys2Proof Sys2Proof.Machine Sys2Proof.Safety

/-! ### Helpers -/

/-- A port at a phase of a latched command. -/
def port (ph : Phase) (cw : Word) : Port := { Port.reset with busy := true, phase := ph, cw := cw }

/-- A port that holds the reservation and the word it will store. -/
def holding (ph : Phase) (cw vn : Word) (s : BitVec 7) : Port :=
  { port ph cw with res := true, vn := vn, s := s }

/-- A queue of capacity `cap` (none if it is 0), port 0 having the turn without a spurious failure. -/
def machine (qword : Word) (cap : BitVec 7) (slots : Memory) (ports : List Port) : State :=
  { State.reset with qword := qword, valid := decide (cap ≠ 0), cap := cap, slots := slots, ports := ports }

/-- The next state of an outcome, if it is one. -/
def after (r : Result) : Option State :=
  match r with
  | .next t => some t
  | .fault _ => none
  | .refused _ => none

/-- The fault of an outcome, if it is one. -/
def faultOf (r : Result) : Option Fault :=
  match r with
  | .next _ => none
  | .fault f => some f
  | .refused _ => none

/-- The record of port `p` in the next state of an outcome. -/
def portAfter (p : Nat) (r : Result) : Option Port := (after r).bind (fun t => t.ports[p]?)

/-- Port 0 of a machine is the running one. -/
theorem running_machine (qw : Word) (cap : BitVec 7) (m : Memory) (q : Port) (l : List Port) :
    Running (machine qw cap m (q :: l)) q q.phase := ⟨rfl, rfl⟩

/-! ### Well-formedness, and decoding of words written out from 30_encoding.md R131 to R133 -/

/-- R132: the capacity has 16 bits. -/
theorem test_wellFormed_refuses : WellFormed (.init 65536) = false ∧ WellFormed (.init 65535) = true := by
  decide

/-- ARG = 3, RSVD = 0, OP = 1 (W1). -/
theorem test_decode_init : decodeWord 0b0000000000000011_000000000000_0001#32 = .ok (.init 3) := by decide
/-- ARG = 65535 (W2). -/
theorem test_decode_init_max : decodeWord 0b1111111111111111_000000000000_0001#32 = .ok (.init 65535) := by
  decide
theorem test_decode_destroy : decodeWord 0b0000000000000000_000000000000_0010#32 = .ok .destroy := by decide
theorem test_decode_enq : decodeWord 0b0000000000000000_000000000000_0011#32 = .ok .enq := by decide
theorem test_decode_tryenq : decodeWord 0b0000000000000000_000000000000_0100#32 = .ok .tryenq := by decide
theorem test_decode_deq : decodeWord 0b0000000000000000_000000000000_0101#32 = .ok .deq := by decide
theorem test_decode_trydeq : decodeWord 0b0000000000000000_000000000000_0110#32 = .ok .trydeq := by decide
theorem test_decode_peek : decodeWord 0b0000000000000000_000000000000_0111#32 = .ok .peek := by decide
/-- W4 to W10. -/
theorem test_decode_illegal :
    decodeWord 0x00000000#32 = .error .illegalOp ∧ decodeWord 0x0000000F#32 = .error .illegalOp ∧
    decodeWord 0x00000010#32 = .error .reservedBits ∧ decodeWord 0x00008003#32 = .error .reservedBits ∧
    decodeWord 0x00010005#32 = .error .argNotZero ∧ decodeWord 0x80000007#32 = .error .argNotZero ∧
    decodeWord 0x00000013#32 = .error .reservedBits := by decide
theorem test_decode_short : decodeBytes [0x00#8, 0x00#8, 0x00#8] = .error .short := by decide
/-- 20_memory.md R82: 0x00030001 on the bus is 00 03 00 01. -/
theorem test_encode_bytes : encodeBytes (.init 3) = [0x00#8, 0x03#8, 0x00#8, 0x01#8] := by decide
theorem test_decode_table : decodeTableWord 32 0x00000004 = some .tryenq ∧ decodeTableWord 32 0x10 = none := by
  decide
theorem test_legal_agrees : legal 0xFFFF0001#32 = true ∧ legal 0x00010005#32 = false := by decide

/-! ### One step of each command -/

/-- IN1: INIT #3 on P0 in the reset state. -/
theorem test_init :
    (after (step (State.reset.withFetchWord 32 0x00030001))).map (fun t => (t.qword, t.qcfgWord)) =
      some (0x00000000#32, 0x80000003#32) := by decide
/-- IN7: INIT #200 while P1 waits in D_YIELD: BUSY comes before TOO_MANY. -/
theorem test_init_busy :
    (portAfter 0 (runTurn (machine 0 3 [] [port .start 0x00C80001, port .dYield 5]))).map Port.code =
      some 0x06#8 := by decide
/-- IN8. -/
theorem test_destroy :
    (after (runTurn (machine 0x01010100 3 [(0, 7)] [port .start 2]))).map
      (fun t => (t.qword, t.qcfgWord, t.slots)) = some (0x00000000#32, 0x00000000#32, [(0, 7)]) := by decide
/-- IN10: NULL_OBJECT comes before BUSY. -/
theorem test_destroy_null :
    (portAfter 0 (runTurn (machine 0 0 [] [port .start 2, port .start 3]))).map Port.code = some 0x01#8 := by
  decide
/-- EQ2: E1_LL on 02 02 02 00 with CAP = 3; the write pointer wraps. -/
theorem test_enq_wraps :
    (portAfter 0 (runTurn (machine 0x02020200 3 [] [port .e1LL 3]))).map (fun q => (q.vn, q.s, q.phase)) =
      some (0x03000200#32, 2#7, .e1SC) := by decide
/-- EQ10: E2_LL on 01 02 00 01, after a dequeue in the window. -/
theorem test_enq_commits :
    (portAfter 0 (runTurn (machine 0x01020001 3 [(1, 9)] [port .e2LL 3]))).map (fun q => (q.vn, q.phase)) =
      some (0x01020101#32, .e2SC) := by decide
/-- EQ3: TRYENQ on a full queue. -/
theorem test_tryenq_full :
    (portAfter 0 (runTurn (machine 0x03000300 3 [] [port .e1LL 4]))).map (fun q => (q.code, q.busy, q.phase)) =
      some (0x03#8, false, .idle) := by decide
/-- EQ4: TRYENQ while another enqueue is in its window. -/
theorem test_tryenq_window :
    (portAfter 0 (runTurn (machine 0x01010000 3 [] [port .e1LL 4]))).map (fun q => (q.code, q.phase)) =
      some (0x03#8, .idle) := by decide
/-- DQ2: D_LL on 01 00 01 02 with CAP = 3; the read pointer wraps. -/
theorem test_deq_wraps :
    (portAfter 0 (runTurn (machine 0x01000102 3 [(2, 7)] [port .dLL 5]))).map (fun q => (q.vn, q.s, q.phase)) =
      some (0x00000000#32, 2#7, .dRead) := by decide
/-- DQ1: D_SC takes A. -/
theorem test_deq_takes :
    (portAfter 0 (runTurn (machine 0x03000300 3 []
      [{ holding .dSC 5 0x02000201 0 with d := 0x0000000500000006#64 }]))).map
      (fun q => (q.doutHi, q.doutLo, q.code, q.res)) = some (5#32, 6#32, 0x00#8, false) := by decide
/-- DQ4: TRYDEQ while the only item is in its window. -/
theorem test_trydeq_window :
    (portAfter 0 (runTurn (machine 0x01010000 3 [] [port .dLL 6]))).map (fun q => (q.code, q.phase)) =
      some (0x03#8, .idle) := by decide
/-- DQ6: TRYDEQ beside a writer in its window. -/
theorem test_trydeq_beside_writer :
    (portAfter 0 (runTurn (machine 0x02020100 3 [(0, 7)] [port .dLL 6]))).map (fun q => (q.vn, q.phase)) =
      some (0x01020001#32, .dRead) := by decide
/-- PK3: the item in its window is not seen. -/
theorem test_peek_window :
    (portAfter 0 (runTurn (machine 0x01010000 3 [] [port .pRdw 7]))).map (fun q => (q.code, q.doutLo)) =
      some (0x04#8, 0#32) := by decide
/-- PK1, at P_READ. -/
theorem test_peek_reads :
    (after (runTurn (machine 0x02020200 3 [(0, 0x0000000100000002#64), (1, 9)] [port .pRead 7]))).map
      (fun t => (t.qword, t.ports.map (fun q => (q.doutHi, q.doutLo, q.code)))) =
      some (0x02020200#32, [(1#32, 2#32, 0x00#8)]) := by decide

/-! ### The LL/SC operations (95_test_vectors.md 2.3) and the slot store -/

/-- LS3: another port's store breaks the reservation. -/
theorem test_scw_broken :
    (scw 0 1 (scw 1 2 (llw 1 (llw 0 (machine 0 3 [] [Port.reset, Port.reset])).2).2).2).1 = false := by decide
/-- LS5: a slot write breaks none. -/
theorem test_scw_slotWrite :
    (after (slotWrite 0 5 (llw 0 (machine 0 3 [] [Port.reset])).2 (fun s => (scw 0 1 s).2))).map State.qword =
      some 1#32 := by decide
/-- LS6: a store without a reservation is none, and leaves the other's. -/
theorem test_scw_unreserved :
    reserved 0 (scw 1 2 (llw 0 (machine 0 3 [] [Port.reset, Port.reset])).2).2 = true := by decide
/-- LS7: a store of the same value breaks the others' reservations. -/
theorem test_scw_same_value :
    reserved 1 (scw 0 0 (llw 1 (llw 0 (machine 0 3 [] [Port.reset, Port.reset])).2).2).2 = false := by decide
/-- The store keeps its indices rising. -/
theorem test_slots_form :
    Memory.write (Memory.write [(4, 1)] 126 2) 0 3 = [(0, 3), (4, 1), (126, 2)] ∧
    Memory.wf [(0, 3), (4, 1), (126, 2)] = true ∧ Memory.wf [(127, 0)] = false ∧
    Memory.wf [(4, 1), (4, 2)] = false := by decide
/-- 20_memory.md R95, 10_state.md R39. -/
theorem test_slot_faults :
    faultOf (runTurn (machine 0x01010100 3 [] [port .pRead 7])) = some (.unwrittenSlot 0) ∧
    faultOf (runTurn (machine 0x01010100 3 [] [{ port .dRead 5 with s := 127 }])) = some (.noSuchSlot 127) := by
  decide

/-! ### Register accesses (95_test_vectors.md 2.2, 2.8) -/

/-- RA1, RA2, RA4. -/
theorem test_reads :
    (busAccess ⟨0x008, 4, .read⟩ State.reset).resp = some (.okRead 0x00007F02#32) ∧
    (busAccess ⟨0x004, 4, .read⟩ (machine 0 3 [] [])).resp = some (.okRead 0x80000003#32) ∧
    (busAccess ⟨0x100, 4, .read⟩ State.reset).resp = some (.okRead 0x00000000#32) := by decide
/-- RA5 to RA9. -/
theorem test_errors :
    ([⟨0x102, 4, .read⟩, ⟨0x000, 1, .read⟩, ⟨0x00C, 4, .read⟩, ⟨0x118, 4, .read⟩, ⟨0x140, 4, .read⟩] :
      List Access).map (fun a => busAccess a State.reset) =
      List.replicate 5 { State.reset with resp := some .err } := by decide
/-- RA3, RA10, RA11. -/
theorem test_writes :
    busAccess ⟨0x000, 4, .write 0xFFFFFFFF#32⟩ State.reset = { State.reset with resp := some .okWrite } ∧
    (busAccess ⟨0x10C, 4, .read⟩ (busAccess ⟨0x10C, 4, .write 0x12345678#32⟩ State.reset)).resp =
      some (.okRead 0x12345678#32) ∧
    busAccess ⟨0x104, 4, .write 1#32⟩ State.reset = { State.reset with resp := some .okWrite } := by decide
/-- RS2: a command for a busy port is dropped. -/
theorem test_dropped :
    (busAccess ⟨0x100, 4, .write 5#32⟩ (machine 0 3 [] [port .dYield 5])).ports.map
      (fun q => (q.statusWord, q.phase)) = [(0xC0000000#32, .dYield)] := by decide
/-- RS4: the item is latched at acceptance. -/
theorem test_latched :
    (busAccess ⟨0x10C, 4, .write 9#32⟩ (accept 0 3 (machine 0 3 [] [{ Port.reset with dinLo := 4 }]))).ports.map
      (fun q => (q.din, q.dinLo)) = [(4#64, 9#32)] := by decide
/-- 30_encoding.md R151: `push 0, v` writes the high half first. -/
theorem test_push :
    (Pseudo.push 0 0x0000000100000002#64).expand 0 = [.wr (.dinHi 0) 1#32, .wr (.dinLo 0) 2#32] := by decide

/-! ### Witnesses: states that meet the hypotheses of each obligation, clause by clause -/

theorem witness_DecodeOfEncodeIsTheCommand :
    WellFormed (.init 0) = true ∧ WellFormed (.init 65535) = true ∧ WellFormed .peek = true := by decide

theorem witness_EncodeOfDecodeIsTheWord :
    decodeWord 0xFFFF0001#32 = .ok (.init 65535) ∧ decodeWord 0x00000007#32 = .ok .peek := by decide

theorem witness_LegalWordsAreTheCommands :
    (∃ s q, Running s q .start ∧ q.cw = 0x00000005#32 ∧ decodeWord 0x00000005#32 = .ok .deq) ∧
    (∃ s q, Running s q .start ∧ q.cw = 0x00010005#32 ∧ ∀ i, decodeWord 0x00010005#32 ≠ .ok i) := by
  refine ⟨⟨_, _, running_machine 0 3 [] (port .start 5) [], rfl, by decide⟩,
    ⟨_, _, running_machine 0 3 [] (port .start 0x00010005) [], rfl, ?_⟩⟩
  intro i h
  have : decodeWord 0x00010005#32 = .error .argNotZero := by decide
  rw [this] at h
  cases h

/-- Every way of being illegal, at the ends of its range. -/
theorem witness_IllegalWordsEndWithIllegalCmd :
    (∀ w : Word, ∃ s q, Running s q .start ∧ q.cw = w) ∧
    (BitVec.extractLsb' 0 4 0x00000000#32).toNat = 0 ∧ 8 ≤ (BitVec.extractLsb' 0 4 0x00000008#32).toNat ∧
    8 ≤ (BitVec.extractLsb' 0 4 0x0000000F#32).toNat ∧ BitVec.extractLsb' 4 12 0x00000013#32 ≠ 0#12 ∧
    BitVec.extractLsb' 4 12 0x00008003#32 ≠ 0#12 ∧
    (BitVec.extractLsb' 16 16 0x80000007#32 ≠ 0#16 ∧ BitVec.extractLsb' 0 4 0x80000007#32 ≠ 1#4) :=
  ⟨fun w => ⟨_, _, running_machine 0 3 [] (port .start w) [], rfl⟩, by decide⟩

/-- A turn of a port with a legal word, and of one at START with a word that is none. -/
theorem witness_StepRunsTheLatchedCommand :
    (∃ (s : State) (q : Port) (i : Instr), s.agenda = [.port 0 false] ∧ s.ports[0]? = some q ∧
      q.phase ≠ .idle ∧ decodeWord q.cw = .ok i) ∧
    (∃ (s : State) (q : Port), s.agenda = [.port 0 false] ∧ s.ports[0]? = some q ∧ q.phase = .start ∧
      ∀ i, decodeWord q.cw ≠ .ok i) := by
  refine ⟨⟨State.reset.withFetchWord 32 3, _, .enq, rfl, rfl, by decide, by decide⟩,
    ⟨State.reset.withFetchWord 32 0x13, _, rfl, rfl, rfl, ?_⟩⟩
  intro i h
  have : decodeWord (accept 0 0x13 State.reset).ports[0].cw = .error .reservedBits := by decide
  exact absurd (this.symm.trans h) (by simp)

theorem witness_StepMakesTheNextChoice :
    (∃ (s : State) (a : Access), s.agenda = [.access a]) ∧
    (∃ s : State, s.agenda = [.port 0 true] ∧ ∀ q, s.ports[0]? = some q → q.phase = .idle) ∧
    (∃ s : State, s.agenda = [.port 2 true] ∧ s.ports[2]? = none) ∧ State.reset.agenda = [] :=
  ⟨⟨{ State.reset with agenda := [.access default] }, default, rfl⟩,
    ⟨{ State.reset with agenda := [.port 0 true] }, rfl, fun q hq => by cases hq; rfl⟩,
    ⟨{ State.reset with agenda := [.port 2 true] }, rfl, rfl⟩, rfl⟩

theorem witness_ResetStateHasTheResetValues : 0 < (Config.mk 1 0).nports ∧ 254 < (Config.mk 255 0).nports := by
  decide

theorem witness_ResetStepRestoresTheBlock :
    (machine 0x01010100 3 [(0, 1)] [port .eWrite 3]).ports.length = 1 ∧
    ({ machine 0x01010100 3 [(0, 1)] [port .eWrite 3] with agenda := [.reset] } : State).agenda =
      [.reset] := by decide

/-- The last port of a machine of two, and of a machine of 255. -/
theorem witness_ReadsReturnTheRegisters :
    State.reset.ports[1]? = some Port.reset ∧
    (State.resetWith ⟨255, 0⟩).ports[254]? = some Port.reset := by
  refine ⟨rfl, ?_⟩
  show (List.replicate 255 Port.reset)[254]? = some Port.reset
  rw [List.getElem?_replicate]
  rfl

/-- Each kind of bad access at the ends of its range, and the good ones next to them (two ports, base 0). -/
theorem witness_BadAccessesGetABusError :
    (1 : Nat) ≠ 4 ∧ (3 : Nat) < 4 ∧ 0x102 % 4 ≠ 0 ∧ 0x100 + 0x20 * State.reset.ports.length ≤ 0x140 ∧
    ¬(0x100 + 0x20 * State.reset.ports.length ≤ 0x134) ∧ (0x00C ≤ 0x00C ∧ 0x0FF ≤ 0x0FF) ∧ ¬(0x00C ≤ 0x008) ∧
    (0x100 ≤ 0x118 ∧ 0x18 ≤ (0x118 - 0x100) % 0x20) ∧ (0x100 ≤ 0x13C ∧ 0x18 ≤ (0x13C - 0x100) % 0x20) ∧
    ¬(0x18 ≤ (0x134 - 0x100) % 0x20) := by decide

theorem witness_WritesFollowTheRegisterMap :
    (∃ s : State, ∃ q, s.ports[0]? = some q ∧ q.phase = .idle) ∧
    (∃ s : State, ∃ q, s.ports[0]? = some q ∧ q.phase ≠ .idle) :=
  ⟨⟨State.reset, _, rfl, rfl⟩, ⟨machine 0 3 [] [port .start 5], _, rfl, by decide⟩⟩

theorem witness_PushThenCommandLatchesTheItem :
    ∃ s : State, ∃ q, s.ports[1]? = some q ∧ q.phase = .idle := ⟨State.reset, _, rfl, rfl⟩

/-- A lone port, and one beside a busy port. -/
theorem alone_one (qw : Word) (cap : BitVec 7) (m : Memory) (q : Port) : Alone (machine qw cap m [q]) := by
  intro r x hr hx
  have : r ≠ 0 := hr
  cases r with
  | zero => exact absurd rfl this
  | succ r => cases hx

theorem not_alone (qw : Word) (cap : BitVec 7) (m : Memory) (q x : Port) (hx : x.phase ≠ .idle) :
    ¬Alone (machine qw cap m [q, x]) := fun h => hx (h 1 x (Nat.one_ne_zero) rfl)

theorem witness_InitAnswers :
    (0xFFFF0001#32 &&& 0x0000FFFF#32 = 0x00000001#32 ∧ 65535 = (BitVec.extractLsb' 16 16 0xFFFF0001#32).toNat) ∧
    (∃ s q, Running s q .start ∧ ¬Alone s) ∧ (∃ s q, Running s q .start ∧ Alone s) ∧
    (127 < 128 ∧ 0 = 0 ∧ 1 ≤ 1 ∧ 127 ≤ 127) :=
  ⟨by decide, ⟨_, _, running_machine 0 3 [] (port .start 0x00030001) [port .dYield 5], not_alone _ _ _ _ _ (by decide)⟩,
    ⟨_, _, running_machine 0 3 [] (port .start 0x00030001) [], alone_one _ _ _ _⟩, by decide⟩

theorem witness_DestroyAnswers :
    (∃ s q, Running s q .start ∧ s.valid = false ∧ q.cw = 0x00000002#32) ∧
    (∃ s q, Running s q .start ∧ s.valid = true ∧ ¬Alone s) ∧
    (∃ s q, Running s q .start ∧ s.valid = true ∧ Alone s) :=
  ⟨⟨_, _, running_machine 0 0 [] (port .start 2) [], rfl, rfl⟩,
    ⟨_, _, running_machine 0 3 [] (port .start 2) [port .dYield 5], rfl, not_alone _ _ _ _ _ (by decide)⟩,
    ⟨_, _, running_machine 0 3 [] (port .start 2) [], rfl, alone_one _ _ _ _⟩⟩

theorem witness_NoQueueEndsWithNullObject :
    ∃ s q, Running s q .start ∧ s.valid = false ∧ ∀ cap, Instr.peek ≠ .init cap :=
  ⟨_, _, running_machine 0 0 [] (port .start 7) [], rfl, by simp⟩

theorem witness_StartEntersTheFirstPhase : ∃ s q, Running s q .start ∧ s.valid = true :=
  ⟨_, _, running_machine 0 1 [] (port .start 3) [], rfl⟩

/-- Room for the last item of a queue of one and of 127; a full queue; another enqueue in its window. -/
theorem witness_EnqueueReserveRead :
    (∃ s q, Running s q .e1LL ∧ (Qword.wc s.qword).toNat < s.cap.toNat ∧ Qword.wc s.qword = Qword.rc s.qword ∧
      s.cap = 1) ∧
    (∃ s q, Running s q .e1LL ∧ (Qword.wc s.qword).toNat < s.cap.toNat ∧ Qword.wc s.qword = Qword.rc s.qword ∧
      (Qword.wp s.qword).toNat + 1 = s.cap.toNat ∧ s.cap = 127) ∧
    (∃ s q, Running s q .e1LL ∧ (Qword.wc s.qword).toNat = s.cap.toNat ∧ Qword.wc s.qword = Qword.rc s.qword) ∧
    (∃ s q, Running s q .e1LL ∧ (Qword.wc s.qword).toNat < s.cap.toNat ∧ Qword.wc s.qword ≠ Qword.rc s.qword) :=
  ⟨⟨_, _, running_machine 0 1 [] (port .e1LL 3) [], by decide⟩,
    ⟨_, _, running_machine 0x7E7E7E00 127 [] (port .e1LL 3) [], by decide⟩,
    ⟨_, _, running_machine 0x03000300 3 [] (port .e1LL 4) [], by decide⟩,
    ⟨_, _, running_machine 0x01010000 3 [] (port .e1LL 4) [], by decide⟩⟩

/-- A store-conditional that stores, one without a reservation, one that fails spuriously. -/
theorem witness_EnqueueReserveStore :
    (∃ s q, Running s q .e1SC ∧ q.res = true ∧ s.turn.spurious = false) ∧
    (∃ s q, Running s q .e1SC ∧ q.res = false) ∧
    (∃ s q, Running s q .e1SC ∧ q.res = true ∧ s.turn.spurious = true) :=
  ⟨⟨_, _, running_machine 0 3 [] (holding .e1SC 3 0x01010000 0) [], rfl, rfl⟩,
    ⟨_, _, running_machine 0 3 [] (port .e1SC 3) [], rfl⟩,
    ⟨takeTurn 0 true (machine 0 3 [] [holding .e1SC 3 0x01010000 0]), _, ⟨rfl, rfl⟩, rfl, rfl⟩⟩

theorem witness_EnqueuePayloadWrite :
    (∃ s q, Running s q .eWrite ∧ q.s.toNat = 126) ∧ (∃ s q, Running s q .eWrite ∧ q.s.toNat = 127) :=
  ⟨⟨_, _, running_machine 0 3 [] { port .eWrite 3 with s := 126 } [], rfl⟩,
    ⟨_, _, running_machine 0 3 [] { port .eWrite 3 with s := 127 } [], rfl⟩⟩

/-- A gap of 1, a negative gap, a gap of 2. -/
theorem witness_EnqueueCommitRead :
    (∃ s q, Running s q .e2LL ∧
      ((Qword.wc s.qword).toNat : Int) - ((Qword.rc s.qword).toNat : Int) = 1) ∧
    (∃ s q, Running s q .e2LL ∧
      ((Qword.wc s.qword).toNat : Int) - ((Qword.rc s.qword).toNat : Int) = -1) ∧
    (∃ s q, Running s q .e2LL ∧
      ((Qword.wc s.qword).toNat : Int) - ((Qword.rc s.qword).toNat : Int) = 2) :=
  ⟨⟨_, _, running_machine 0x01010000 3 [] (port .e2LL 3) [], by decide⟩,
    ⟨_, _, running_machine 0x00010100 3 [] (port .e2LL 3) [], by decide⟩,
    ⟨_, _, running_machine 0x02020000 3 [] (port .e2LL 3) [], by decide⟩⟩

theorem witness_EnqueueCommitStore :
    (∃ s q, Running s q .e2SC ∧ q.res = true ∧ s.turn.spurious = false) ∧
    (∃ s q, Running s q .e2SC ∧ q.res = false) :=
  ⟨⟨_, _, running_machine 0x01010000 3 [] (holding .e2SC 3 0x01010100 0) [], rfl, rfl⟩,
    ⟨_, _, running_machine 0x01010000 3 [] (port .e2SC 3) [], rfl⟩⟩

theorem witness_YieldsChangeOnlyThePhase :
    (∃ s q, Running s q .e1Yield) ∧ (∃ s q, Running s q .e2Yield) ∧ (∃ s q, Running s q .dYield) :=
  ⟨⟨_, _, running_machine 0 3 [] (port .e1Yield 3) []⟩, ⟨_, _, running_machine 0 3 [] (port .e2Yield 3) []⟩,
    ⟨_, _, running_machine 0 3 [] (port .dYield 5) []⟩⟩

theorem witness_DequeueReserveRead :
    (∃ s q, Running s q .dLL ∧ (Qword.rc s.qword).toNat = 1 ∧ s.cap = 1) ∧
    (∃ s q, Running s q .dLL ∧ (Qword.rc s.qword).toNat = 0) :=
  ⟨⟨_, _, running_machine 0x01000100 1 [(0, 7)] (port .dLL 5) [], by decide⟩,
    ⟨_, _, running_machine 0x01010000 3 [] (port .dLL 5) [], by decide⟩⟩

theorem witness_DequeueSlotRead :
    (∃ s q, Running s q .dRead ∧ q.s.toNat = 126 ∧ s.slots.read 126 = some 7) ∧
    (∃ s q, Running s q .dRead ∧ q.s.toNat = 126 ∧ s.slots.read 126 = none) ∧
    (∃ s q, Running s q .dRead ∧ q.s.toNat = 127) :=
  ⟨⟨_, _, running_machine 0 3 [(126, 7)] { port .dRead 5 with s := 126 } [], by decide⟩,
    ⟨_, _, running_machine 0 3 [] { port .dRead 5 with s := 126 } [], by decide⟩,
    ⟨_, _, running_machine 0 3 [] { port .dRead 5 with s := 127 } [], by decide⟩⟩

theorem witness_DequeueStore :
    (∃ s q, Running s q .dSC ∧ q.res = true ∧ s.turn.spurious = false) ∧
    (∃ s q, Running s q .dSC ∧ q.res = false) :=
  ⟨⟨_, _, running_machine 0x01010100 3 [(0, 7)] (holding .dSC 5 0x00010001 0) [], rfl, rfl⟩,
    ⟨_, _, running_machine 0x01010100 3 [(0, 7)] (port .dSC 5) [], rfl⟩⟩

theorem witness_PeekWordRead :
    (∃ s q, Running s q .pRdw ∧ (Qword.rc s.qword).toNat = 0) ∧
    (∃ s q, Running s q .pRdw ∧ (Qword.rc s.qword).toNat = 1) :=
  ⟨⟨_, _, running_machine 0x01010000 3 [] (port .pRdw 7) [], by decide⟩,
    ⟨_, _, running_machine 0x01010100 3 [(0, 7)] (port .pRdw 7) [], by decide⟩⟩

theorem witness_PeekSlotRead :
    (∃ s q, Running s q .pRead ∧ q.s.toNat = 126 ∧ s.slots.read 126 = some 7) ∧
    (∃ s q, Running s q .pRead ∧ q.s.toNat = 126 ∧ s.slots.read 126 = none) ∧
    (∃ s q, Running s q .pRead ∧ q.s.toNat = 127) :=
  ⟨⟨_, _, running_machine 0 3 [(126, 7)] { port .pRead 7 with s := 126 } [], by decide⟩,
    ⟨_, _, running_machine 0 3 [] { port .pRead 7 with s := 126 } [], by decide⟩,
    ⟨_, _, running_machine 0 3 [] { port .pRead 7 with s := 127 } [], by decide⟩⟩

theorem witness_LoadReserveAndStoreConditional :
    (∃ s : State, ∃ q, s.ports[0]? = some q ∧ q.res = true ∧ s.turn.spurious = false) ∧
    (∃ s : State, ∃ q, s.ports[0]? = some q ∧ q.res = true ∧ s.turn.spurious = true) :=
  ⟨⟨machine 0 3 [] [holding .e1SC 3 1 0], _, rfl, rfl, rfl⟩,
    ⟨takeTurn 0 true (machine 0 3 [] [holding .e1SC 3 1 0]), _, rfl, rfl, rfl⟩⟩

/-- A micro-step of each shape answers a next state: one that stores in a slot, one that stores to QWORD,
one that only reads. -/
theorem witness_FrameOfEnqueue :
    (∃ s q t, Running s q .eWrite ∧ ownPhase .enq .eWrite = true ∧ exec .enq s = .next t) ∧
    (∃ s q t, Running s q .e1SC ∧ ownPhase .tryenq .e1SC = true ∧ exec .tryenq s = .next t) ∧
    (∃ s q t, Running s q .e1LL ∧ ownPhase .enq .e1LL = true ∧ exec .enq s = .next t) :=
  ⟨⟨_, _, _, running_machine 0x01010000 3 [] (port .eWrite 3) [], rfl, rfl⟩,
    ⟨_, _, _, running_machine 0 3 [] (holding .e1SC 4 0x01010000 0) [], rfl, rfl⟩,
    ⟨_, _, _, running_machine 0 3 [] (port .e1LL 3) [], rfl, rfl⟩⟩

theorem witness_FrameOfDequeue :
    (∃ s q t, Running s q .dSC ∧ ownPhase .deq .dSC = true ∧ exec .deq s = .next t) ∧
    (∃ s q t, Running s q .dRead ∧ ownPhase .trydeq .dRead = true ∧ exec .trydeq s = .next t) :=
  ⟨⟨_, _, _, running_machine 0x01010100 3 [(0, 7)] (holding .dSC 5 0x00010001 0) [], rfl, rfl⟩,
    ⟨_, _, _, running_machine 0x01010100 3 [(0, 7)] (port .dRead 6) [], rfl, rfl⟩⟩

theorem witness_FrameOfPeek :
    (∃ s q t, Running s q .pRead ∧ ownPhase .peek .pRead = true ∧ exec .peek s = .next t) ∧
    (∃ s q t, Running s q .start ∧ exec .peek s = .next t) :=
  ⟨⟨_, _, _, running_machine 0x01010100 3 [(0, 7)] (port .pRead 7) [], rfl, rfl⟩,
    ⟨_, _, _, running_machine 0 0 [] (port .start 7) [], rfl⟩⟩

theorem witness_FrameOfLifecycle :
    (∃ s q t, Running s q .start ∧ exec (.init 3) s = .next t) ∧
    (∃ s q t, Running s q .start ∧ exec .destroy s = .next t) :=
  ⟨⟨_, _, _, running_machine 0x01010100 3 [] (port .start 0x00030001) [], rfl⟩,
    ⟨_, _, _, running_machine 0x01010100 3 [] (port .start 2) [], rfl⟩⟩

/-- A reservation taken at E1_LL; one lost to another port's store, one to the own failed store. -/
theorem witness_ReservationsChangeOnlyAsListed :
    ((portAfter 0 (runEvent (.port 0 false) (machine 0 3 [] [port .e1LL 3]))).map Port.res = some true) ∧
    ((portAfter 1 (runEvent (.port 0 false)
      (machine 0 3 [] [holding .e1SC 3 0x01010000 0, holding .dRead 5 0 0]))).map Port.res = some false) ∧
    ((portAfter 0 (runEvent (.port 0 true) (machine 0 3 [] [holding .e1SC 3 0x01010000 0]))).map Port.res =
      some false) := by decide

/-- QWORD changed by reset, by a store-conditional, by INIT and by DESTROY. -/
theorem witness_OnlyFourThingsWriteQword :
    (after (runEvent .reset (machine 0x01010100 3 [] []))).map State.qword = some 0#32 ∧
    (after (runEvent (.port 0 false) (machine 0 3 [] [holding .e1SC 3 0x01010000 0]))).map State.qword =
      some 0x01010000#32 ∧
    (after (runEvent (.port 0 false) (machine 0x01010100 3 [] [port .start 0x00010001]))).map State.qword =
      some 0#32 ∧
    (after (runEvent (.port 0 false) (machine 0x01010100 3 [] [port .start 2]))).map State.qword =
      some 0#32 := by decide

theorem witness_OnlyLifecycleWritesTheConfiguration :
    (after (runEvent .reset (machine 0 3 [] []))).map State.valid = some false ∧
    (after (runEvent (.port 0 false) (machine 0 3 [] [port .start 0x007F0001]))).map State.cap = some 127#7 ∧
    (after (runEvent (.port 0 false) (machine 0 3 [] [port .start 2]))).map State.valid = some false := by
  decide

/-- One ending of each command. -/
theorem witness_CodesOfEachCommand :
    (portAfter 0 (exec (.init 128) (machine 0 0 [] [port .start 0x00800001]))).map (fun q => (q.code, q.phase)) =
      some (0x07#8, .idle) ∧
    (portAfter 0 (exec .destroy (machine 0 0 [] [port .start 2]))).map (fun q => (q.code, q.phase)) =
      some (0x01#8, .idle) ∧
    (portAfter 0 (exec .enq (machine 0 3 [] [holding .e2SC 3 0 0]))).map (fun q => (q.code, q.phase)) =
      some (0x00#8, .idle) ∧
    (portAfter 0 (exec .tryenq (machine 0x03000300 3 [] [port .e1LL 4]))).map (fun q => (q.code, q.phase)) =
      some (0x03#8, .idle) ∧
    (portAfter 0 (exec .deq (machine 0 3 [] [holding .dSC 5 0 0]))).map (fun q => (q.code, q.phase)) =
      some (0x00#8, .idle) ∧
    (portAfter 0 (exec .trydeq (machine 0 3 [] [port .dLL 6]))).map (fun q => (q.code, q.phase)) =
      some (0x03#8, .idle) ∧
    (portAfter 0 (exec .peek (machine 0 3 [] [port .pRdw 7]))).map (fun q => (q.code, q.phase)) =
      some (0x04#8, .idle) := by decide

/-- A failure at each of START, E1_LL, D_LL and P_RDW. -/
theorem witness_FailuresLeaveTheQueueAlone :
    ([port .start 0x00000013, port .e1LL 4, port .dLL 6, port .pRdw 7].map (fun x =>
      (portAfter 0 (runEvent (.port 0 false) (machine 0x01010000 3 [] [x]))).map
        (fun q => (q.code, q.phase)))) =
      [some (0x09#8, .idle), some (0x03#8, .idle), some (0x03#8, .idle), some (0x04#8, .idle)] := by decide

theorem witness_ParametersNeverChange :
    (after (step (State.reset.withFetchWord 32 0x00030001))).isSome = true := by decide

theorem witness_PortsCannotSeeEachOthersData : (0 : Nat) ≠ 1 := by decide

theorem witness_ResetMeetsTheInvariants :
    1 ≤ (Config.mk 1 0).nports ∧ (Config.mk 255 4).nports ≤ 255 ∧ (Config.mk 255 4).blockBase % 4 = 0 := by
  decide

/-! ### Witnesses that meet the invariants -/

/-- Proves the parts of the invariants that evaluate, given the command of each port. -/
theorem inv_of {s : State} (hp : ParamsInv s) (hm : s.slots.wf = true) (hs : StatusInv s) (hc : CommandInv s)
    (hq : QueueInv s) (hl : SlotInv s) : BlockInv s := ⟨hp, hm, hs, hc, hq, hl⟩

/-- An ENQ at E2_SC holding its reservation, another port waiting to dequeue. -/
def committing : State :=
  machine 0x02020100 3 [(0, 7), (1, 8)]
    [{ holding .e2SC 3 0x02020200 1 with din := 8 }, port .dLL 5]

/-- A DEQ at D_SC holding its reservation. -/
def taking : State :=
  machine 0x02020200 3 [(0, 7), (1, 8)] [{ holding .dSC 5 0x01020101 0 with d := 7 }]

/-- An ENQ at E2_LL. -/
def inWindow : State := machine 0x01010000 3 [(0, 7)] [{ port .e2LL 3 with din := 7, s := 0 }]

theorem commandOk_of {q : Port} {i : Instr} (h : decodeWord q.cw = .ok i) (hp : ownPhase i q.phase = true) :
    CommandOk q := .inr (.inr ⟨i, h, hp⟩)

theorem committing_inv : BlockInv committing := by
  refine inv_of ?_ (by decide) ?_ ?_ ?_ ?_
  · unfold ParamsInv; decide
  · unfold StatusInv StatusOk; decide
  · intro q hq
    simp only [committing, machine, List.mem_cons, List.not_mem_nil, or_false] at hq
    rcases hq with rfl | rfl
    · exact commandOk_of (i := .enq) (by decide) rfl
    · exact commandOk_of (i := .deq) (by decide) rfl
  · unfold QueueInv NoQueue FieldsOk WindowOk LatchOk; decide
  · unfold SlotInv SlotOk; decide

theorem taking_inv : BlockInv taking := by
  refine inv_of ?_ (by decide) ?_ ?_ ?_ ?_
  · unfold ParamsInv; decide
  · unfold StatusInv StatusOk; decide
  · intro q hq
    simp only [taking, machine, List.mem_cons, List.not_mem_nil, or_false] at hq
    subst hq
    exact commandOk_of (i := .deq) (by decide) rfl
  · unfold QueueInv NoQueue FieldsOk WindowOk LatchOk; decide
  · unfold SlotInv SlotOk; decide

theorem inWindow_inv : BlockInv inWindow := by
  refine inv_of ?_ (by decide) ?_ ?_ ?_ ?_
  · unfold ParamsInv; decide
  · unfold StatusInv StatusOk; decide
  · intro q hq
    simp only [inWindow, machine, List.mem_cons, List.not_mem_nil, or_false] at hq
    subst hq
    exact commandOk_of (i := .enq) (by decide) rfl
  · unfold QueueInv NoQueue FieldsOk WindowOk LatchOk; decide
  · unfold SlotInv SlotOk; decide

/-- The same state with a listed choice. -/
theorem inv_agenda {s : State} (h : BlockInv s) (l : List Event) : BlockInv { s with agenda := l } := h

theorem witness_StepKeepsTheSlotForm :
    (machine 0x01010000 3 [] [port .eWrite 3]).slots.wf = true ∧
    (after (step { machine 0x01010000 3 [] [port .eWrite 3] with agenda := [.port 0 false] })).map
      State.slots = some [(0, 0)] := by decide

theorem witness_StepKeepsTheStatus :
    StatusInv { committing with agenda := [.port 0 false] } ∧
    (after (step { committing with agenda := [.port 0 false] })).isSome = true :=
  ⟨committing_inv.2.2.1, by decide⟩

theorem witness_StepKeepsPhasesOfTheCommand :
    CommandInv { committing with agenda := [.port 1 false] } ∧
    (after (step { committing with agenda := [.port 1 false] })).isSome = true :=
  ⟨committing_inv.2.2.2.1, by decide⟩

theorem witness_StepKeepsTheQueueInvariant :
    QueueInv { taking with agenda := [.port 0 false] } ∧
    (after (step { taking with agenda := [.port 0 false] })).isSome = true :=
  ⟨taking_inv.2.2.2.2.1, by decide⟩

theorem witness_StepKeepsTheInvariants :
    BlockInv { inWindow with agenda := [.port 0 false] } ∧
    (after (step { inWindow with agenda := [.port 0 false] })).isSome = true :=
  ⟨inv_agenda inWindow_inv _, by decide⟩

theorem witness_NoStepFaults : BlockInv committing ∧ BlockInv taking := ⟨committing_inv, taking_inv⟩

/-- A queue of two items, and a port at START of a word. -/
def starting (w : Word) : State := machine 0x02020200 3 [(0, 7), (1, 8)] [port .start w]

/-- INIT #5, DESTROY, INIT #128 and DEQ. -/
def startWords : List Word := [0x00050001#32, 0x00000002#32, 0x00800001#32, 0x00000005#32]

theorem starting_inv : ∀ w ∈ startWords, BlockInv (starting w) := by
  have hc : ∀ w, CommandInv (starting w) :=
    fun w q hx => by cases List.mem_singleton.mp hx; exact .inr (.inl rfl)
  simp only [startWords, List.forall_mem_cons, List.not_mem_nil, false_implies, implies_true, and_true]
  refine ⟨?_, ?_, ?_, ?_⟩ <;>
  · refine inv_of ?_ (by decide) ?_ (hc _) ?_ ?_
    · unfold ParamsInv; decide
    · unfold StatusInv StatusOk; decide
    · unfold QueueInv NoQueue FieldsOk WindowOk LatchOk; decide
    · unfold SlotInv SlotOk; decide

/-- A committing store, a taking store, a store that fails, an access and reset. -/
theorem witness_QueueIsFirstInFirstOut :
    (BlockInv committing ∧
      (after (runEvent (.port 0 false) committing)).map contents = some [some 7, some 8]) ∧
    (BlockInv taking ∧ (after (runEvent (.port 0 false) taking)).map contents = some [some 8]) ∧
    (after (runEvent (.port 0 true) taking)).map contents = some [some 7, some 8] ∧
    (after (runEvent (.access ⟨0x000, 4, .write 0⟩) taking)).map contents = some [some 7, some 8] ∧
    (after (runEvent .reset taking)).map contents = some [] :=
  ⟨⟨committing_inv, by decide⟩, ⟨taking_inv, by decide⟩, by decide, by decide, by decide⟩

/-- START of INIT #5 (IN2) and of DESTROY end with SUCCESS and empty the queue; START of INIT #128 (which
fails) and of DEQ (which goes on) leave it. -/
theorem witness_QueueIsFirstInFirstOut_start :
    (∀ w ∈ startWords, BlockInv (starting w)) ∧
    (startWords.map (fun w =>
      ((after (runEvent (.port 0 false) (starting w))).map contents,
        (portAfter 0 (runEvent (.port 0 false) (starting w))).map Port.code))) =
      [(some [], some 0x00#8), (some [], some 0x00#8), (some [some 7, some 8], some 0x07#8),
        (some [some 7, some 8], some 0x00#8)] :=
  ⟨starting_inv, by decide⟩

theorem witness_CommitFindsAGapOfOne :
    (∃ s q, BlockInv s ∧ Running s q .e2LL) ∧
    (BlockInv { inWindow with agenda := [.port 0 false] } ∧ (∀ q ∈ inWindow.ports, q.phase ≠ .e2Yield) ∧
      (after (step { inWindow with agenda := [.port 0 false] })).isSome = true) :=
  ⟨⟨inWindow, _, inWindow_inv, rfl, rfl⟩, inv_agenda inWindow_inv _, by decide, by decide⟩

theorem witness_OneEnqueueInTheWindow :
    ∃ (s : State) (x : Port), BlockInv s ∧ s.ports[0]? = some x ∧ windowPhase x.phase = true ∧
      0 < (Qword.rc s.qword).toNat := ⟨committing, _, committing_inv, rfl, rfl, by decide⟩

/-! ### Witnesses of whole commands and of endless runs -/

/-- The last free slot of a queue of 3, by ENQ and by TRYENQ. -/
theorem witness_EnqueueAloneCompletes :
    [0x00000003#32, 0x00000004#32].all (fun w =>
      let s : State :=
        { machine 0x02020200 3 [] [port .start w] with agenda := List.replicate 6 (.port 0 false) }
      decide (s.ports[0]?.map (fun q => (q.phase, q.cw)) = some (.start, w) ∧ s.valid = true ∧
        s.agenda = List.replicate 6 (.port 0 false) ++ [] ∧ (Qword.wc s.qword).toNat < s.cap.toNat ∧
        Qword.wc s.qword = Qword.rc s.qword ∧ (Qword.wp s.qword).toNat < s.cap.toNat)) = true := by decide

/-- The only item of a queue of 1, by DEQ and by TRYDEQ. -/
theorem witness_DequeueAloneCompletes :
    [0x00000005#32, 0x00000006#32].all (fun w =>
      let s : State :=
        { machine 0x01000100 1 [(0, 7)] [port .start w] with agenda := List.replicate 4 (.port 0 false) }
      decide (s.ports[0]?.map (fun q => (q.phase, q.cw)) = some (.start, w) ∧ s.valid = true ∧
        s.agenda = List.replicate 4 (.port 0 false) ++ [] ∧ 0 < (Qword.rc s.qword).toNat ∧
        (Qword.rp s.qword).toNat < s.cap.toNat ∧ s.slots.read (Qword.rp s.qword).toNat = some 7)) = true := by decide

theorem witness_PeekAloneCompletes :
    ∃ (s : State) (p : Nat) (q : Port) (rest : List Event) (d : Item), s.ports[p]? = some q ∧ q.phase = .start ∧ s.valid = true ∧ q.cw = 0x00000007#32 ∧
      s.agenda = List.replicate 3 (Event.port p false) ++ rest ∧ 0 < (Qword.rc s.qword).toNat ∧
      (Qword.rp s.qword).toNat < s.cap.toNat ∧ s.slots.read (Qword.rp s.qword).toNat = some d :=
  ⟨{ machine 0x01000102 3 [(2, 7)] [port .start 7] with
      agenda := List.replicate 3 (.port 0 false) ++ [] }, 0, _,
    [], 7, rfl, rfl, rfl, rfl, rfl, by decide, by decide, by decide⟩

/-- A run of one port without a queue: it takes every turn, and its command ends at the first. -/
def lonely (w : Word) (n : Nat) : State :=
  match n with
  | 0 => machine 0 0 [] [port .start w]
  | _ + 1 => machine 0 0 [] [{ port .start w with busy := false, code := 0x01#8, phase := .idle }]

def always (_ : Nat) : Event := .port 0 false

theorem lonely_run (w : Word) (hw : w = 0x00000006#32 ∨ w = 0x00000007#32) : IsRun always (lonely w) := by
  intro n
  rcases hw with rfl | rfl
  · cases n <;> rfl
  · cases n <;> rfl

theorem lonely_port {w : Word} {n p : Nat} {q : Port} (h : At (lonely w) n p q) :
    p = 0 ∧ (n ≠ 0 → q.phase = .idle) := by
  cases p with
  | zero =>
    refine ⟨rfl, fun hn => ?_⟩
    cases n with
    | zero => exact absurd rfl hn
    | succ n => cases h; rfl
  | succ p => cases n <;> cases h

theorem lonely_fair (w : Word) : FairPort always (lonely w) := by
  intro p n q h _
  obtain ⟨rfl, _⟩ := lonely_port h
  exact ⟨n, Nat.le_refl n, false, rfl⟩

theorem witness_PeekEndsIfPortsAreFair :
    ∃ e σ p n q, IsRun e σ ∧ FairPort e σ ∧ At σ n p q ∧ q.phase = .start ∧ decodeWord q.cw = .ok .peek :=
  ⟨always, lonely 7, 0, 0, _, lonely_run 7 (.inr rfl), lonely_fair 7, rfl, rfl, by decide⟩

/-- A run of one port that takes every turn and whose TRYDEQ takes the only item (DQ7). -/
def draining (n : Nat) : State :=
  match n with
  | 0 => machine 0x01000100 1 [(0, 7)] [port .start 6]
  | 1 => machine 0x01000100 1 [(0, 7)] [port .dLL 6]
  | 2 => machine 0x01000100 1 [(0, 7)] [{ holding .dRead 6 0 0 with v := 0x01000100 }]
  | 3 => machine 0x01000100 1 [(0, 7)] [{ holding .dSC 6 0 0 with v := 0x01000100, d := 7 }]
  | _ + 4 => machine 0 1 [(0, 7)] [{ port .idle 6 with busy := false, v := 0x01000100, d := 7, doutLo := 7 }]

theorem draining_run : IsRun always draining := by
  intro n
  match n with
  | 0 => rfl
  | 1 => rfl
  | 2 => rfl
  | 3 => rfl
  | _ + 4 => rfl

/-- Its one port is IDLE from time 4 on, and stands at its one store-conditional at time 3. -/
theorem draining_port {n p : Nat} {q : Port} (h : At draining n p q) :
    p = 0 ∧ (4 ≤ n → q.phase = .idle) ∧ (storePhase q.phase = true → n = 3) := by
  match n, p with
  | 0, 0 => cases h; exact ⟨rfl, nofun, nofun⟩
  | 1, 0 => cases h; exact ⟨rfl, fun h => by omega, nofun⟩
  | 2, 0 => cases h; exact ⟨rfl, fun h => by omega, nofun⟩
  | 3, 0 => cases h; exact ⟨rfl, fun h => by omega, fun _ => rfl⟩
  | n + 4, 0 => cases h; exact ⟨rfl, fun _ => rfl, nofun⟩
  | 0, p + 1 => cases h
  | 1, p + 1 => cases h
  | 2, p + 1 => cases h
  | 3, p + 1 => cases h
  | n + 4, p + 1 => cases h

theorem draining_fair : FairPort always draining := by
  intro p n q h _
  obtain ⟨rfl, _⟩ := draining_port h
  exact ⟨n, Nat.le_refl n, false, rfl⟩

/-- The one store-conditional has its reservation. -/
theorem draining_contention : FiniteContention always draining := by
  rintro p l n _ ⟨m, q, hn, hl, h, hs, ht⟩
  obtain ⟨rfl, _, h3⟩ := draining_port h
  obtain rfl := h3 hs
  cases h
  exact ⟨3, _, ⟨hn, hl, rfl, hs, ht⟩, rfl⟩

theorem witness_TrydeqEndsOrIsContendedForEver :
    ∃ e σ p n q, IsRun e σ ∧ FairPort e σ ∧ FiniteSpurious e σ ∧ At σ n p q ∧ q.phase = .start ∧
      decodeWord q.cw = .ok .trydeq :=
  ⟨always, draining, 0, 0, _, draining_run, draining_fair, fun _ => ⟨0, fun _ _ _ _ _ he => by cases he⟩, rfl,
    rfl, by decide⟩

/-- The same run: a loop entered at time 1 makes its store-conditional at time 3. -/
theorem witness_TrydeqEndsOrFailsSpuriously :
    ∃ e σ p n q, IsRun e σ ∧ FairPort e σ ∧ FiniteContention e σ ∧ At σ n p q ∧ q.phase = .start ∧
      decodeWord q.cw = .ok .trydeq :=
  ⟨always, draining, 0, 0, _, draining_run, draining_fair, draining_contention, rfl, rfl, by decide⟩

/-- A run of one port that waits for ever on a queue of 1: START of `w`, the load-reserve phase `ll`, then
`yield` and `ll` in turn. -/
def waiting (qword w : Word) (slots : Memory) (ll yield : Phase) (n : Nat) : State :=
  let at_ (q : Port) : State := machine qword 1 slots [q]
  match n with
  | 0 => at_ (port .start w)
  | 1 => at_ (port ll w)
  | n + 2 => at_ { port (if n % 2 = 0 then yield else ll) w with res := true, v := qword }

/-- ENQ on a full queue, and DEQ on an empty one. -/
def waitingEnq : Nat → State := waiting 0x01000100 3 [(0, 7)] .e1LL .e1Yield
def waitingDeq : Nat → State := waiting 0 5 [] .dLL .dYield

theorem waiting_run : IsRun always waitingEnq ∧ IsRun always waitingDeq := by
  constructor <;> intro n <;> match n with
  | 0 => rfl
  | 1 => rfl
  | n + 2 =>
    have h2 : (n + 1) % 2 = 1 - n % 2 := by omega
    rcases Nat.mod_two_eq_zero_or_one n with h | h <;>
    · simp only [waitingEnq, waitingDeq, waiting, h2, h, Nat.sub_zero, Nat.sub_self, Nat.one_ne_zero,
        ↓reduceIte]
      rfl

theorem waiting_inv : BlockInv (waitingEnq 0) ∧ BlockInv (waitingDeq 0) := by
  have hc : ∀ x w l, CommandInv (machine x 1 l [port .start w]) := by
    intro x w l q hx
    cases List.mem_singleton.mp hx
    exact .inr (.inl rfl)
  constructor <;>
  · refine inv_of ?_ (by decide) ?_ (hc _ _ _) ?_ ?_
    · unfold ParamsInv; decide
    · unfold StatusInv StatusOk; decide
    · unfold QueueInv NoQueue FieldsOk WindowOk LatchOk; decide
    · unfold SlotInv SlotOk; decide

/-- The queue stays full, and empty, up to every time k. -/
theorem witness_EnqAndDeqWait (k : Nat) :
    ((∃ q, At waitingEnq 0 0 q ∧ decodeWord q.cw = .ok .enq ∧ StartsOrIn (waitingEnq 0) .reserve q) ∧
      ∀ m, m < k → always m ≠ .reset ∧ FullOrInWindow (waitingEnq m) 0) ∧
    (∃ q, At waitingDeq 0 0 q ∧ decodeWord q.cw = .ok .deq ∧ StartsOrIn (waitingDeq 0) .dequeue q) ∧
      ∀ m, m < k → always m ≠ .reset ∧ Qword.rc (waitingDeq m).qword = 0 := by
  have hw : ∀ x w l a y m, (waiting x w l a y m).qword = x ∧ (waiting x w l a y m).cap = 1 := by
    intro x w l a y m
    match m with
    | 0 | 1 | _ + 2 => exact ⟨rfl, rfl⟩
  refine ⟨⟨⟨_, rfl, by decide, .inl (by decide)⟩, fun m _ => ⟨nofun, .inl ?_⟩⟩,
    ⟨_, rfl, by decide, .inl (by decide)⟩, fun m _ => ⟨nofun, ?_⟩⟩
  · rw [waitingEnq, (hw ..).1, (hw ..).2]; decide
  · rw [waitingDeq, (hw ..).1]; decide

end Sys2Proof.Tests
end

section
/-! The OPEN parameters (00_scope.md R9): the number of ports and BLOCK_BASE, which no step changes, and so
QPARAM (10_state.md R38). -/

namespace Sys2Proof.Machine

open Sys2Proof

variable {s t u : State} {p : Nat} {q : Port} {w : Word}

/-- `t` has the OPEN parameters of `s`. -/
structure SameParams (s t : State) : Prop where
  count : t.ports.length = s.ports.length
  base : t.blockBase = s.blockBase

theorem SameParams.trans (h : SameParams s t) (h' : SameParams t u) : SameParams s u :=
  ⟨h'.count.trans h.count, h'.base.trans h.base⟩

theorem SameQueue.sameParams (h : SameQueue s t) : SameParams s t := ⟨h.count, h.base⟩

/-- QPARAM shows a parameter (10_state.md R38). -/
theorem SameParams.qparamWord (h : SameParams s t) : t.qparamWord = s.qparamWord := by
  simp only [State.qparamWord, h.count]

theorem SameParams.putPort (h : SameParams s t) : SameParams s (putPort t p q) :=
  ⟨List.length_set.trans h.count, h.base⟩

theorem SameParams.afterStore (h : SameParams s t) : SameParams s (afterStore t p w q) :=
  ⟨List.length_set.trans (List.length_map _ |>.trans h.count), h.base⟩

/-- A micro-step only sets its port's record or stores to QWORD. -/
theorem Moves.sameParams (h : Moves s p q t) : SameParams s t := by
  cases h with
  | still => exact ⟨rfl, rfl⟩
  | created | destroyed | reservedSlot | committed | taken => exact .afterStore ⟨rfl, rfl⟩
  | _ => exact .putPort ⟨rfl, rfl⟩

/-- Reset makes as many ports as there were (70_reset_and_hazards.md R300). -/
theorem resetBlock_sameParams (s : State) : SameParams s (resetBlock s) :=
  ⟨List.length_replicate, rfl⟩

theorem takeTurn_sameParams (p : Nat) (b : Bool) (s : State) : SameParams s (takeTurn p b s) := ⟨rfl, rfl⟩

theorem runEvent_sameParams {e : Event} (h : runEvent e s = .next t) : SameParams s t := by
  obtain ⟨a, _, rfl⟩ | ⟨_, rfl⟩ | ⟨p, b, _, _, rfl⟩ | ⟨p, b, q, _, _, hm⟩ := runEvent_next h
  · exact (busAccess_rest a s).sameParams
  · exact resetBlock_sameParams s
  · exact takeTurn_sameParams p b s
  · exact (takeTurn_sameParams p b s).trans hm.sameParams

theorem step_sameParams (h : step s = .next t) : SameParams s t :=
  (nextEvent_rest s).2.sameParams.trans (runEvent_sameParams h)

/-- Settles O41: each kind of step keeps the OPEN parameters, and QPARAM is made of them. -/
theorem parametersNeverChange : Obligations.ParametersNeverChange := by
  intro s t h
  have hp : SameParams s t := step_sameParams h
  exact ⟨hp.count, hp.base, hp.qparamWord⟩

end Sys2Proof.Machine
end

section
/-! What every kind of step keeps, packaged once: an invariant is kept by the steps that only touch host
registers or the model's own fields, by reset and by each micro-step. Then the invariants that speak of one
port's record (10_state.md R45, R46; 60_exceptions.md R271, R273) and of the form of the slot store. -/

namespace Sys2Proof.Safety

open Sys2Proof Sys2Proof.Machine

variable {s t : State} {p : Nat} {q q' x : Port} {w : Word} {c : Config}

/-- What neither a micro-step nor reset goes beyond: the queue stays, and each port is `Accessed`. -/
structure HostOnly (s t : State) : Prop extends SameQueue s t where
  ports : ∀ {k : Nat} {x : Port}, t.ports[k]? = some x → ∃ y, s.ports[k]? = some y ∧ Accessed y x

theorem hostOnly_busAccess (a : Access) (s : State) : HostOnly s (busAccess a s) :=
  ⟨busAccess_rest a s, busAccess_ports⟩

theorem hostOnly_nextEvent (s : State) : HostOnly s (nextEvent s).2 := by
  obtain ⟨hports, hrest⟩ := nextEvent_rest s
  exact ⟨hrest, fun h => ⟨_, hports ▸ h, .same _⟩⟩

theorem hostOnly_takeTurn (p : Nat) (b : Bool) (s : State) : HostOnly s (takeTurn p b s) :=
  ⟨⟨rfl, rfl, rfl, rfl, rfl, rfl⟩, fun h => ⟨_, h, .same _⟩⟩

/-- A property of the records that `Accessed` keeps holds of every port after a `HostOnly` step. -/
theorem HostOnly.forall_ports {P Q : Port → Prop} (h : HostOnly s t) (hP : ∀ x ∈ s.ports, P x)
    (hk : ∀ {y x}, Accessed y x → P y → Q x) : ∀ x ∈ t.ports, Q x := by
  intro x hx
  obtain ⟨k, hk'⟩ := List.mem_iff_getElem?.mp hx
  obtain ⟨y, hy, ha⟩ := h.ports hk'
  exact hk ha (hP y (List.mem_of_getElem? hy))

/-- The induction of every invariant: three small goals. -/
theorem step_keeps {I : State → Prop} (host : ∀ {s t}, HostOnly s t → I s → I t)
    (reset : ∀ {s}, I s → I (resetBlock s))
    (move : ∀ {s p q t}, s.ports[p]? = some q → Moves s p q t → I s → I t)
    (hI : I s) (ht : step s = .next t) : I t := by
  have hI' : I (nextEvent s).2 := host (hostOnly_nextEvent s) hI
  obtain ⟨a, _, rfl⟩ | ⟨_, rfl⟩ | ⟨p, b, _, _, rfl⟩ | ⟨p, b, q, _, hq, hm⟩ := runEvent_next ht
  · exact host (hostOnly_busAccess a _) hI'
  · exact reset hI'
  · exact host (hostOnly_takeTurn p b _) hI'
  · exact move (s := takeTurn p b _) hq hm (host (hostOnly_takeTurn p b _) hI')

/-- The ports after one record was set. -/
theorem forall_putPort {P : Port → Prop} (h : ∀ x ∈ s.ports, P x) (hq : P q') :
    ∀ x ∈ (putPort s p q').ports, P x := by
  intro x hx
  obtain rfl | ⟨r, _, hr⟩ := mem_set_cases hx
  · exact hq
  · exact h x (List.mem_of_getElem? hr)

/-- The ports after a store to QWORD: each may have lost its reservation. -/
theorem forall_afterStore {P : Port → Prop} (h : ∀ x ∈ s.ports, P { x with res := false }) (hq : P q') :
    ∀ x ∈ (afterStore s p w q').ports, P x := by
  intro x hx
  obtain rfl | ⟨k, y, _, hy, rfl⟩ := mem_afterStore hx
  · exact hq
  · exact h y (List.mem_of_getElem? hy)

theorem eq_reset_of_mem_resetWith (h : x ∈ (State.resetWith c).ports) : x = Port.reset :=
  (List.mem_replicate.mp h).2

/-! ### BUSY, the reservation and CODE -/

/-- A command that ends with a code of 60_exceptions.md R271. -/
theorem statusOk_of_idle (code : Byte) (hph : x.phase = .idle) (hb : x.busy = false) (hr : x.res = false)
    (hcode : x.code = code)
    (hc : code ∈ [0x00#8, 0x01#8, 0x03#8, 0x04#8, 0x06#8, 0x07#8, 0x08#8, 0x09#8]) : StatusOk x :=
  ⟨by simp [hph, hb], fun _ => hr, hcode ▸ hc⟩

/-- A command that goes on leaves BUSY and CODE. -/
theorem StatusOk.goOn (h : StatusOk q) (hq : q.phase ≠ .idle) (hx : x.phase ≠ .idle)
    (hb : x.busy = q.busy) (hc : x.code = q.code) : StatusOk x := by
  obtain ⟨hbusy, _, hcode⟩ := h
  exact ⟨by simp [hb, hbusy, hq, hx], fun hi => absurd hi hx, hc ▸ hcode⟩

theorem StatusOk.clear (h : StatusOk x) : StatusOk { x with res := false } := by
  obtain ⟨hbusy, _, hcode⟩ := h
  exact ⟨hbusy, fun _ => rfl, hcode⟩

theorem StatusOk.accessed (ha : Accessed q x) (h : StatusOk q) : StatusOk x := by
  obtain ⟨hbusy, hres, hcode⟩ := h
  obtain ⟨hr, hc, rfl | ⟨hph, hb, _⟩ | ⟨_, hph, hb⟩⟩ := ha
  · exact ⟨hbusy, hres, hcode⟩
  · exact ⟨by rw [hb, hph, hbusy], by rw [hph, hr]; exact hres, hc ▸ hcode⟩
  · exact ⟨by simp [hb, hph], by simp [hph], hc ▸ hcode⟩

theorem statusInv_resetWith : StatusInv (State.resetWith c) := by
  intro x hx
  rw [eq_reset_of_mem_resetWith hx]
  exact statusOk_of_idle 0x00#8 rfl rfl rfl rfl (by decide)

/-- A micro-step ends the command, or goes on from a phase that is not IDLE to another. -/
theorem moves_statusInv (hp : s.ports[p]? = some q) (hm : Moves s p q t) (h : StatusInv s) :
    StatusInv t := by
  have hq : StatusOk q := h q (List.mem_of_getElem? hp)
  have hclear : ∀ x ∈ s.ports, StatusOk { x with res := false } := fun x hx => (h x hx).clear
  cases hm with
  | still => exact h
  | startFailed hph c hc =>
    exact forall_putPort h (statusOk_of_idle c rfl rfl rfl rfl (List.Sublist.mem hc (by decide)))
  | started hph i ph hi hv hf =>
    exact forall_putPort h (hq.goOn (by simp [hph]) (by cases i <;> cases hf <;> simp) rfl rfl)
  | created | destroyed | committed | taken =>
    exact forall_afterStore hclear (statusOk_of_idle 0x00#8 rfl rfl rfl rfl (by decide))
  | reservedSlot hph =>
    exact forall_afterStore hclear (hq.goOn (by simp [hph]) (by simp) rfl rfl)
  | retry => exact forall_putPort h (statusOk_of_idle 0x03#8 rfl rfl rfl rfl (by decide))
  | noData => exact forall_putPort h (statusOk_of_idle 0x04#8 rfl rfl rfl rfl (by decide))
  | peeked => exact forall_putPort h (statusOk_of_idle 0x00#8 rfl rfl rfl rfl (by decide))
  | reserving hph | wrote hph | committing hph | taking hph | itemRead _ hph | peeking hph =>
    exact forall_putPort h (hq.goOn (by simp [hph]) (by simp) rfl rfl)
  | waiting ph hph | lost ph hph | yielded ph hph =>
    refine forall_putPort h (hq.goOn ?_ ?_ rfl rfl) <;> rcases hph with hph | hph | hph <;> simp [hph]

/-- Settles O45: a record is busy from acceptance to the end of its command, and ends only with a listed
code. -/
theorem stepKeepsTheStatus : Obligations.StepKeepsTheStatus := by
  intro s t h ht
  exact step_keeps (I := StatusInv) (fun hh h => hh.forall_ports h StatusOk.accessed)
    (fun _ => statusInv_resetWith) moves_statusInv h ht

/-! ### The phases of the latched command -/

/-- The phase in which the commands enter that have a phase as their own. -/
def entryPhase (ph : Phase) : Phase :=
  match ph with
  | .idle => .idle
  | .start => .start
  | .e1LL | .e1SC | .e1Yield | .eWrite | .e2LL | .e2SC | .e2Yield => .e1LL
  | .dLL | .dRead | .dSC | .dYield => .dLL
  | .pRdw | .pRead => .pRdw

/-- The phases of a command are those behind the one its START goes to. -/
theorem ownPhase_iff {i : Instr} {ph : Phase} :
    ownPhase i ph = true ↔ firstPhase i = some (entryPhase ph) := by
  cases ph <;> cases i <;> simp [ownPhase, firstPhase, entryPhase]

theorem entryPhase_of_firstPhase {i : Instr} {ph : Phase} (h : firstPhase i = some ph) :
    entryPhase ph = ph := by
  cases i <;> cases h <;> rfl

/-- A port's command is that of its entry phase. -/
theorem commandOk_iff : CommandOk q ↔ entryPhase q.phase = .idle ∨ entryPhase q.phase = .start ∨
    ∃ i, decodeWord q.cw = .ok i ∧ firstPhase i = some (entryPhase q.phase) := by
  have hidle : q.phase = .idle ↔ entryPhase q.phase = .idle := by cases q.phase <;> simp [entryPhase]
  have hstart : q.phase = .start ↔ entryPhase q.phase = .start := by cases q.phase <;> simp [entryPhase]
  simp only [CommandOk, ownPhase_iff, ← hidle, ← hstart]

/-- A command that goes on stays behind its entry phase. -/
theorem CommandOk.goOn (h : CommandOk q) (hcw : x.cw = q.cw)
    (hph : entryPhase x.phase = entryPhase q.phase) : CommandOk x := by
  rw [commandOk_iff] at h ⊢
  rwa [hcw, hph]

theorem CommandOk.accessed (ha : Accessed q x) (h : CommandOk q) : CommandOk x := by
  obtain ⟨_, _, rfl | ⟨hph, _, hcw, _⟩ | ⟨_, hph, _⟩⟩ := ha
  · exact h
  · exact h.goOn hcw (congrArg entryPhase hph)
  · exact .inr (.inl hph)

theorem commandInv_resetWith : CommandInv (State.resetWith c) := by
  intro x hx
  rw [eq_reset_of_mem_resetWith hx]
  exact .inl rfl

/-- A micro-step ends the command, enters its first phase, or goes on. -/
theorem moves_commandInv (hp : s.ports[p]? = some q) (hm : Moves s p q t) (h : CommandInv s) :
    CommandInv t := by
  have hq : CommandOk q := h q (List.mem_of_getElem? hp)
  have hclear : ∀ x ∈ s.ports, CommandOk { x with res := false } := h
  cases hm with
  | still => exact h
  | startFailed | retry | noData | peeked => exact forall_putPort h (.inl rfl)
  | created | destroyed | committed | taken => exact forall_afterStore hclear (.inl rfl)
  | started _ i ph hi _ hf =>
    exact forall_putPort h (commandOk_iff.mpr (.inr (.inr ⟨i, hi, by rwa [entryPhase_of_firstPhase hf]⟩)))
  | reservedSlot hph => exact forall_afterStore hclear (hq.goOn rfl (by rw [hph]; rfl))
  | reserving hph | wrote hph | committing hph | taking hph | itemRead _ hph | peeking hph =>
    exact forall_putPort h (hq.goOn rfl (by rw [hph]; rfl))
  | waiting ph hph =>
    obtain ⟨hph, _, rfl⟩ | ⟨hph, _, rfl⟩ | ⟨hph, _, rfl⟩ := hph <;>
      exact forall_putPort h (hq.goOn rfl (by rw [hph]; rfl))
  | lost ph hph | yielded ph hph =>
    obtain ⟨hph, rfl⟩ | ⟨hph, rfl⟩ | ⟨hph, rfl⟩ := hph <;>
      exact forall_putPort h (hq.goOn rfl (by rw [hph]; rfl))

/-! ### The form of the slot store -/

/-- Only E_WRITE writes a slot, one of the 127 (20_memory.md R96). -/
theorem moves_slots_wf (hm : Moves s p q t) (h : s.slots.wf = true) : t.slots.wf = true := by
  cases hm with
  | wrote _ hi => exact Memory.write_wf q.din hi h
  | _ => exact h

end Sys2Proof.Safety
end

section
/-! The invariants of the control word (10_state.md R51 to R54): the gap is the one port in the window, each
store word keeps the fields in order, and the latches agree with QWORD. -/

namespace Sys2Proof.Safety

open Sys2Proof Sys2Proof.Machine

variable {s t : State} {p a b : Nat} {q q' x y : Port} {w : Word} {c : Config}

/-! ### The parts of the invariants, by name -/

theorem FieldsOk.rp_lt (h : FieldsOk s) : (Qword.rp s.qword).toNat < s.cap.toNat := by
  obtain ⟨_, _, _, _, _, _, hrp, _⟩ := h
  exact hrp

theorem LatchOk.phase1 (h : LatchOk s q) (hph : q.phase = .e1SC) (hr : q.res = true) :
    phase1Cond s.cap s.qword = true ∧ q.vn = phase1Word s.cap s.qword ∧
      q.s = slotIndex (Qword.wp s.qword) := h.1 hph hr

theorem LatchOk.phase2 (h : LatchOk s q) (hph : q.phase = .e2SC) (hr : q.res = true) :
    q.vn = phase2Word s.qword := by
  obtain ⟨_, hlatch, _⟩ := h
  exact hlatch hph hr

theorem LatchOk.dequeue (h : LatchOk s q) (hph : q.phase = .dRead ∨ q.phase = .dSC) (hr : q.res = true) :
    deqCond s.qword = true ∧ q.vn = deqWord s.cap s.qword ∧ q.s = slotIndex (Qword.rp s.qword) := by
  obtain ⟨_, _, hlatch, _⟩ := h
  exact hlatch hph hr

theorem LatchOk.slot (h : LatchOk s q) (hw : windowPhase q.phase = true) :
    q.s.toNat = ((Qword.rp s.qword).toNat + (Qword.rc s.qword).toNat) % s.cap.toNat := by
  obtain ⟨_, _, _, hslot⟩ := h
  exact hslot hw

/-- A port past START has a queue whose invariants hold (R51). -/
theorem QueueInv.pastStart (h : QueueInv s) (hq : q ∈ s.ports) (hi : q.phase ≠ .idle)
    (hs : q.phase ≠ .start) : s.valid = true ∧ FieldsOk s ∧ WindowOk s ∧ ∀ x ∈ s.ports, LatchOk s x :=
  have hv := valid_of_phase h hq hi hs
  ⟨hv, h.2 hv⟩

theorem QueueInv.pastStart_of_window (h : QueueInv s) (hq : q ∈ s.ports) (hw : windowPhase q.phase = true) :
    s.valid = true ∧ FieldsOk s ∧ WindowOk s ∧ ∀ x ∈ s.ports, LatchOk s x :=
  h.pastStart hq (fun e => by simp [e, windowPhase] at hw) (fun e => by simp [e, windowPhase] at hw)

/-! ### The window -/

/-- A port in the window is the gap (R53, R54). -/
theorem WindowOk.gap (hw : WindowOk s) (hf : FieldsOk s) (hx : x ∈ s.ports)
    (hwin : windowPhase x.phase = true) : (Qword.wc s.qword).toNat = (Qword.rc s.qword).toNat + 1 := by
  have hpos : 0 < s.ports.countP (fun q => windowPhase q.phase) := List.countP_pos_iff.mpr ⟨x, hx, hwin⟩
  obtain ⟨_, _, _, _, hgap, _⟩ := hf
  unfold WindowOk at hw
  omega

/-- The gap has room for one port only (R54). -/
theorem WindowOk.unique (hw : WindowOk s) (hf : FieldsOk s) (ha : s.ports[a]? = some x)
    (hb : s.ports[b]? = some y) (hx : windowPhase x.phase = true) (hy : windowPhase y.phase = true) :
    b = a := by
  by_contra hne
  have htwo := two_le_countP (P := fun q => windowPhase q.phase) hne hb ha hy hx
  obtain ⟨_, _, _, _, hgap, _⟩ := hf
  unfold WindowOk at hw
  omega

/-- The slot of a port in the window is behind the committed ones (R54, R55). -/
theorem window_slot_ne (hf : FieldsOk s) (hw : WindowOk s) (hl : LatchOk s x) (hx : x ∈ s.ports)
    (hwin : windowPhase x.phase = true) {k : Nat} (hk : k < (Qword.rc s.qword).toNat) :
    x.s.toNat ≠ ((Qword.rp s.qword).toNat + k) % s.cap.toNat := by
  have hgap := hw.gap hf hx hwin
  obtain ⟨_, _, _, hcap, _⟩ := hf
  rw [hl.slot hwin]
  exact (circular_ne hk (by omega)).symm

/-- Settles O52: the gap is at most 1 and counts the ports in the window. -/
theorem oneEnqueueInTheWindow : Obligations.OneEnqueueInTheWindow := by
  rintro s a x ⟨_, _, _, _, hqueue, _⟩ ha hwin
  have hx := List.mem_of_getElem? ha
  obtain ⟨_, hf, hw, hl⟩ := hqueue.pastStart_of_window hx hwin
  exact ⟨fun b y hb hy => hw.unique hf ha hb hwin hy, fun k hk => window_slot_ne hf hw (hl x hx) hx hwin hk⟩

/-! ### The store words -/

/-- The word that INIT, DESTROY and reset leave has its fields 0 (10_state.md R50). -/
@[simp] theorem wc_zero : Qword.wc 0#32 = 0 := by decide
@[simp] theorem wp_zero : Qword.wp 0#32 = 0 := by decide
@[simp] theorem rc_zero : Qword.rc 0#32 = 0 := by decide
@[simp] theorem rp_zero : Qword.rp 0#32 = 0 := by decide

/-! The fields a store word leaves, then those it moves, as integers. -/

section
variable {cap : BitVec 7} {v : Word}

@[simp] theorem rc_phase1Word : Qword.rc (phase1Word cap v) = Qword.rc v := rc_pack ..
@[simp] theorem rp_phase1Word : Qword.rp (phase1Word cap v) = Qword.rp v := rp_pack ..
@[simp] theorem wc_phase2Word : Qword.wc (phase2Word v) = Qword.wc v := wc_pack ..
@[simp] theorem wp_phase2Word : Qword.wp (phase2Word v) = Qword.wp v := wp_pack ..
@[simp] theorem rp_phase2Word : Qword.rp (phase2Word v) = Qword.rp v := rp_pack ..
@[simp] theorem wp_deqWord : Qword.wp (deqWord cap v) = Qword.wp v := wp_pack ..

theorem wc_phase1Word_toNat (hc : phase1Cond cap v = true) :
    (Qword.wc (phase1Word cap v)).toNat = (Qword.wc v).toNat + 1 := by
  have hroom := (phase1Cond_iff.mp hc).1
  have hcap := cap.isLt
  rw [phase1Word, wc_pack, byte_add_one_toNat (by omega)]

theorem wp_phase1Word_toNat (hwp : (Qword.wp v).toNat < cap.toNat) :
    (Qword.wp (phase1Word cap v)).toNat = ((Qword.wp v).toNat + 1) % cap.toNat := by
  rw [phase1Word, wp_pack, inc_toNat hwp]

theorem rc_phase2Word_toNat (hgap : (Qword.wc v).toNat = (Qword.rc v).toNat + 1) :
    (Qword.rc (phase2Word v)).toNat = (Qword.rc v).toNat + 1 := by
  have hbound := (Qword.wc v).isLt
  rw [phase2Word, rc_pack, byte_add_one_toNat (by omega)]

theorem wc_deqWord_toNat (hpos : 0 < (Qword.wc v).toNat) :
    (Qword.wc (deqWord cap v)).toNat = (Qword.wc v).toNat - 1 := by
  rw [deqWord, wc_pack, byte_sub_one_toNat hpos]

theorem rc_deqWord_toNat (hc : deqCond v = true) :
    (Qword.rc (deqWord cap v)).toNat = (Qword.rc v).toNat - 1 := by
  rw [deqWord, rc_pack, byte_sub_one_toNat (deqCond_iff.mp hc)]

theorem rp_deqWord_toNat (hrp : (Qword.rp v).toNat < cap.toNat) :
    (Qword.rp (deqWord cap v)).toNat = ((Qword.rp v).toNat + 1) % cap.toNat := by
  rw [deqWord, rp_pack, inc_toNat hrp]

end

/-- A slot counted from the next pointer is one further from the pointer. -/
theorem circular_succ (a k c : Nat) : ((a + 1) % c + k) % c = (a + (k + 1)) % c := by
  rw [Nat.mod_add_mod]
  congr 1
  omega

/-- 42_enqueue.md R214: phase 1 opens the window at the end of the queue. -/
theorem fieldsOk_phase1Word (hf : FieldsOk s) (hc : phase1Cond s.cap s.qword = true) :
    FieldsOk { s with qword := phase1Word s.cap s.qword } := by
  obtain ⟨hcap, hmax, hle, hwc, hgap, hwp, hrp, hring⟩ := hf
  obtain ⟨hroom, heq⟩ := phase1Cond_iff.mp hc
  simp only [FieldsOk, rc_phase1Word, rp_phase1Word, wc_phase1Word_toNat hc, wp_phase1Word_toNat hwp]
  refine ⟨hcap, hmax, by omega, by omega, by rw [heq], Nat.mod_lt _ hcap, hrp, ?_⟩
  rw [hring, Nat.mod_add_mod]
  rfl

/-- 42_enqueue.md R219: phase 2 closes the window. -/
theorem fieldsOk_phase2Word (hf : FieldsOk s)
    (hgap : (Qword.wc s.qword).toNat = (Qword.rc s.qword).toNat + 1) :
    FieldsOk { s with qword := phase2Word s.qword } := by
  obtain ⟨hcap, hmax, hle, hwc, _, hwp, hrp, hring⟩ := hf
  simp only [FieldsOk, wc_phase2Word, wp_phase2Word, rp_phase2Word, rc_phase2Word_toNat hgap]
  exact ⟨hcap, hmax, by omega, hwc, by omega, hwp, hrp, hring⟩

/-- 43_dequeue.md R243: a dequeue leaves the gap and moves the read pointer. -/
theorem fieldsOk_deqWord (hf : FieldsOk s) (hc : deqCond s.qword = true) :
    FieldsOk { s with qword := deqWord s.cap s.qword } := by
  obtain ⟨hcap, hmax, hle, hwc, hgap, hwp, hrp, hring⟩ := hf
  have hpos := deqCond_iff.mp hc
  simp only [FieldsOk, wp_deqWord, rc_deqWord_toNat hc, rp_deqWord_toNat hrp,
    wc_deqWord_toNat (hpos.trans_le hle)]
  refine ⟨hcap, hmax, by omega, by omega, by omega, hwp, Nat.mod_lt _ hcap, ?_⟩
  rw [hring, circular_succ, Nat.sub_add_cancel (by omega)]

/-! ### The invariant -/

/-- A port without a reservation says only where its slot is. -/
theorem latchOk_of_res (hr : x.res = false)
    (hw : windowPhase x.phase = true →
      x.s.toNat = ((Qword.rp s.qword).toNat + (Qword.rc s.qword).toNat) % s.cap.toNat) : LatchOk s x := by
  refine ⟨?_, ?_, ?_, hw⟩ <;> simp [hr]

/-- At a phase that stores nothing and reads no slot for a store, only the slot of the window counts. -/
theorem LatchOk.moved (h : LatchOk s q) (hx : x.phase ∉ [.e1SC, .e2SC, .dRead, .dSC])
    (hw : windowPhase x.phase = windowPhase q.phase) (hs : x.s = q.s) : LatchOk s x := by
  have hslot := h.slot
  simp only [List.mem_cons, List.not_mem_nil, or_false, not_or] at hx
  obtain ⟨h1, h2, h3, h4⟩ := hx
  exact ⟨fun e => absurd e h1, fun e => absurd e h2, fun e => e.elim (absurd · h3) (absurd · h4),
    by rwa [hw, hs]⟩

theorem LatchOk.accessed (ha : Accessed q x) (h : LatchOk s q) : LatchOk s x := by
  obtain ⟨hres, _, rfl | ⟨hph, _, _, hvn, hs, _⟩ | ⟨_, hph, _⟩⟩ := ha
  · exact h
  · simpa only [LatchOk, hph, hres, hvn, hs] using h
  · simp [LatchOk, hph, windowPhase]

theorem queueInv_of_noQueue (hv : s.valid = false) (h : NoQueue s) : QueueInv s :=
  ⟨fun _ => h, fun h => by simp [hv] at h⟩

theorem queueInv_of_queue (hv : s.valid = true) (hf : FieldsOk s) (hw : WindowOk s)
    (hl : ∀ x ∈ s.ports, LatchOk s x) : QueueInv s :=
  ⟨fun h => by simp [hv] at h, fun _ => ⟨hf, hw, hl⟩⟩

/-- Acceptance enters no window (R48). -/
theorem windowPhase_accessed (ha : Accessed q x) : windowPhase x.phase = windowPhase q.phase := by
  obtain ⟨_, _, rfl | ⟨hph, _⟩ | ⟨hq, hx, _⟩⟩ := ha
  · rfl
  · rw [hph]
  · rw [hq, hx]; rfl

theorem HostOnly.countP_window (h : HostOnly s t) :
    t.ports.countP (fun q => windowPhase q.phase) = s.ports.countP (fun q => windowPhase q.phase) := by
  have hmap : t.ports.map (fun q => windowPhase q.phase) = s.ports.map (fun q => windowPhase q.phase) := by
    refine List.ext_getElem (by simp [h.count]) fun k hk hk' => ?_
    simp only [List.getElem_map]
    obtain ⟨y, hy, ha⟩ := h.ports (List.getElem?_eq_getElem (by simpa using hk))
    rw [windowPhase_accessed ha, (List.getElem?_eq_some_iff.mp hy).2]
  simpa [List.countP_map, Function.comp_def] using congrArg (List.countP id) hmap

theorem HostOnly.queueInv (hh : HostOnly s t) (h : QueueInv s) : QueueInv t := by
  cases hv : s.valid with
  | false =>
    obtain ⟨hqw, hcap, hports⟩ := h.1 hv
    refine queueInv_of_noQueue (hh.valid.trans hv)
      ⟨hh.qword.trans hqw, hh.cap.trans hcap, hh.forall_ports hports ?_⟩
    rintro y x ⟨hres, _, rfl | ⟨hph, _⟩ | ⟨_, hph, _⟩⟩ ⟨hy, hr⟩
    · exact ⟨hy, hr⟩
    · exact ⟨hph ▸ hy, hres.trans hr⟩
    · exact ⟨.inr hph, hres.trans hr⟩
  | true =>
    obtain ⟨hf, hw, hl⟩ := h.2 hv
    refine queueInv_of_queue (hh.valid.trans hv) ?_ ?_ (hh.forall_ports hl fun ha hy => ?_)
    · simpa only [FieldsOk, hh.qword, hh.cap] using hf
    · simpa only [WindowOk, hh.qword, hh.countP_window] using hw
    · simpa only [LatchOk, hh.qword, hh.cap] using hy.accessed ha

theorem queueInv_resetWith : QueueInv (State.resetWith c) :=
  queueInv_of_noQueue rfl ⟨rfl, rfl, fun x hx => by simp [eq_reset_of_mem_resetWith hx, Port.reset]⟩

/-- A port whose record is set in the window, or not, as before. -/
theorem WindowOk.putPort (h : WindowOk s) (hp : s.ports[p]? = some q)
    (hw : windowPhase q'.phase = windowPhase q.phase) : WindowOk (putPort s p q') := by
  have hcount := countP_set_add (P := fun r => windowPhase r.phase) hp q'
  simp only [hw, Nat.add_right_cancel_iff] at hcount
  simpa only [WindowOk, hcount] using h

/-- A port whose command ends outside the window. -/
theorem QueueInv.ended (h : QueueInv s) (hp : s.ports[p]? = some q) (hw : windowPhase q.phase = false)
    (hph : q'.phase = .idle) (hr : q'.res = false) : QueueInv (putPort s p q') := by
  refine ⟨fun hv => ?_, fun hv => ?_⟩
  · obtain ⟨hqw, hcap, hports⟩ := h.1 hv
    exact ⟨hqw, hcap, forall_putPort hports ⟨.inl hph, hr⟩⟩
  · obtain ⟨hf, hwin, hl⟩ := h.2 hv
    refine ⟨hf, hwin.putPort hp (by rw [hw, hph]; rfl), forall_putPort hl ?_⟩
    exact latchOk_of_res hr (by simp [hph, windowPhase])

/-- A record that is set in the window, or not, as before. -/
theorem QueueInv.putPort (h : QueueInv s) (hp : s.ports[p]? = some q) (hv : s.valid = true)
    (hw : windowPhase q'.phase = windowPhase q.phase) (hl : LatchOk s q') : QueueInv (putPort s p q') := by
  obtain ⟨hf, hwin, hlatch⟩ := h.2 hv
  exact queueInv_of_queue hv hf (hwin.putPort hp hw) (forall_putPort hlatch hl)

/-- A port past START that goes on, in the window or not as before. -/
theorem QueueInv.goOn (h : QueueInv s) (hp : s.ports[p]? = some q) (hi : q.phase ≠ .idle)
    (hs : q.phase ≠ .start) (hw : windowPhase q'.phase = windowPhase q.phase)
    (hl : LatchOk s q → LatchOk s q') : QueueInv (Machine.putPort s p q') := by
  have hq := List.mem_of_getElem? hp
  obtain ⟨hv, _, _, hlatch⟩ := h.pastStart hq hi hs
  exact h.putPort hp hv hw (hl (hlatch q hq))

/-- A port past START that goes on to a phase at which only its slot counts. -/
theorem QueueInv.moved (h : QueueInv s) (hp : s.ports[p]? = some q) (hi : q.phase ≠ .idle)
    (hs : q.phase ≠ .start) (hx : q'.phase ∉ [.e1SC, .e2SC, .dRead, .dSC])
    (hw : windowPhase q'.phase = windowPhase q.phase) (hslot : q'.s = q.s) :
    QueueInv (Machine.putPort s p q') :=
  h.goOn hp hi hs hw fun hl => hl.moved hx hw hslot

/-- A store by port `p`: the latches of the others say only where their slots are. -/
theorem queueInv_afterStore (hv : s.valid = true) (hf : FieldsOk { s with qword := w })
    (hw : WindowOk (afterStore s p w q')) (hr : q'.res = false)
    (hslot : ∀ x ∈ (afterStore s p w q').ports, windowPhase x.phase = true →
      x.s.toNat = ((Qword.rp w).toNat + (Qword.rc w).toNat) % s.cap.toNat) :
    QueueInv (afterStore s p w q') :=
  queueInv_of_queue hv hf hw fun x hx => latchOk_of_res (res_afterStore hr hx) (hslot x hx)

/-- A store that moves the gap as its port enters or leaves the window. -/
theorem WindowOk.store (h : WindowOk s) (hp : s.ports[p]? = some q)
    (hw : (Qword.rc w).toNat + (Qword.wc s.qword).toNat + (windowPhase q'.phase).toNat =
      (Qword.wc w).toNat + (Qword.rc s.qword).toNat + (windowPhase q.phase).toNat) :
    WindowOk (afterStore s p w q') := by
  have hcount := countP_afterStore (w := w) hp q'
  have hnew : (afterStore s p w q').qword = w := rfl
  simp only [← Bool.cond_eq_ite, ← Bool.toNat.eq_1] at hcount
  unfold WindowOk at h ⊢
  rw [hnew]
  omega

/-- 42_enqueue.md R215: the store of phase 1 puts its port in the window. -/
theorem queueInv_reservedSlot (hp : s.ports[p]? = some q) (h : QueueInv s) (hph : q.phase = .e1SC)
    (hr : q.res = true) : QueueInv (afterStore s p q.vn { q with res := false, phase := .eWrite }) := by
  have hq := List.mem_of_getElem? hp
  obtain ⟨hv, hf, hw, hlatch⟩ := h.pastStart hq (by simp [hph]) (by simp [hph])
  obtain ⟨hc, hvn, hs⟩ := (hlatch q hq).phase1 hph hr
  rw [hvn]
  refine queueInv_afterStore hv (fieldsOk_phase1Word hf hc) ?_ rfl ?_
  · refine hw.store hp ?_
    simp only [hph, windowPhase, rc_phase1Word, wc_phase1Word_toNat hc, Bool.toNat_true, Bool.toNat_false]
    omega
  · rw [rc_phase1Word, rp_phase1Word]
    refine forall_afterStore (fun x hx => (hlatch x hx).slot) fun _ => ?_
    obtain ⟨_, _, _, _, _, hwp, _, hring⟩ := hf
    rw [hs, slotIndex_toNat hwp, hring, (phase1Cond_iff.mp hc).2]

/-- 42_enqueue.md R220: the store of phase 2 takes the one port of the window out. -/
theorem queueInv_committed (hp : s.ports[p]? = some q) (h : QueueInv s) (hph : q.phase = .e2SC)
    (hr : q.res = true) (hq'ph : q'.phase = .idle) (hq'r : q'.res = false) :
    QueueInv (afterStore s p q.vn q') := by
  have hq := List.mem_of_getElem? hp
  obtain ⟨hv, hf, hw, hlatch⟩ := h.pastStart hq (by simp [hph]) (by simp [hph])
  rw [(hlatch q hq).phase2 hph hr]
  have hgap := hw.gap hf hq (by rw [hph]; rfl)
  have hw' : WindowOk (afterStore s p (phase2Word s.qword) q') := by
    refine hw.store hp ?_
    simp only [hph, hq'ph, windowPhase, wc_phase2Word, rc_phase2Word_toNat hgap, Bool.toNat_true,
      Bool.toNat_false]
    omega
  refine queueInv_afterStore hv (fieldsOk_phase2Word hf hgap) hw' hq'r fun x hx hwin => ?_
  have hgap' := hw'.gap (fieldsOk_phase2Word hf hgap) hx hwin
  simp only [afterStore, wc_phase2Word, rc_phase2Word_toNat hgap] at hgap'
  omega

/-- 43_dequeue.md R244: the store of a dequeue leaves the window and its slot. -/
theorem queueInv_taken (hp : s.ports[p]? = some q) (h : QueueInv s) (hph : q.phase = .dSC)
    (hr : q.res = true) (hq'ph : q'.phase = .idle) (hq'r : q'.res = false) :
    QueueInv (afterStore s p q.vn q') := by
  have hq := List.mem_of_getElem? hp
  obtain ⟨hv, hf, hw, hlatch⟩ := h.pastStart hq (by simp [hph]) (by simp [hph])
  obtain ⟨hc, hvn, _⟩ := (hlatch q hq).dequeue (.inr hph) hr
  rw [hvn]
  have hpos := deqCond_iff.mp hc
  obtain ⟨_, _, hle, _⟩ := id hf
  refine queueInv_afterStore hv (fieldsOk_deqWord hf hc) ?_ hq'r ?_
  · refine hw.store hp ?_
    simp only [hph, hq'ph, windowPhase, rc_deqWord_toNat hc, wc_deqWord_toNat (hpos.trans_le hle)]
    omega
  · rw [rc_deqWord_toNat hc, rp_deqWord_toNat hf.rp_lt, circular_succ, Nat.sub_add_cancel hpos]
    exact forall_afterStore (fun x hx => (hlatch x hx).slot) (by simp [hq'ph, windowPhase])

/-- Every port is IDLE after INIT or DESTROY (41_lifecycle.md R197). -/
theorem idle_afterStore (ho : othersBusy p s = false) (hph : q'.phase = .idle) :
    ∀ x ∈ (afterStore s p w q').ports, x.phase = .idle := by
  intro x hx
  obtain rfl | ⟨k, y, hk, hy, rfl⟩ := mem_afterStore hx
  · exact hph
  · exact othersBusy_false_iff.mp ho k y hk hy

/-- 41_lifecycle.md R191: an empty queue of the requested capacity. -/
theorem queueInv_created (hv : s.valid = true) (h1 : 1 ≤ s.cap.toNat) (ho : othersBusy p s = false)
    (hph : q'.phase = .idle) (hr : q'.res = false) : QueueInv (afterStore s p 0#32 q') := by
  have hidle := idle_afterStore (w := 0#32) ho hph
  have hcap := s.cap.isLt
  refine queueInv_afterStore hv ?_ ?_ hr fun x hx hwin => ?_
  · simp [FieldsOk]
    omega
  · unfold WindowOk
    rw [List.countP_eq_zero.mpr fun x hx => by simp [hidle x hx, windowPhase]]
    simp [afterStore]
  · simp [hidle x hx, windowPhase] at hwin

/-- A micro-step ends a command outside the window, goes on with latches that agree with QWORD, or stores. -/
theorem moves_queueInv (hp : s.ports[p]? = some q) (hm : Moves s p q t) (h : QueueInv s) :
    QueueInv t := by
  cases hm with
  | still => exact h
  | startFailed hph | noData hph | peeked _ hph => exact h.ended hp (by rw [hph]; rfl) rfl rfl
  | retry hph =>
    refine h.ended hp ?_ rfl rfl
    obtain ⟨hph, _⟩ | ⟨hph, _⟩ := hph <;> rw [hph] <;> rfl
  | started hph i ph hi hv hf =>
    refine h.putPort hp hv ?_ ?_ <;> cases i <;> cases hf <;> simp [hph, LatchOk, windowPhase]
  | created _ cap _ ho h1 h2 =>
    refine queueInv_created (s := { s with cap := BitVec.ofNat 7 cap, valid := true }) rfl ?_ ho rfl rfl
    simp only [BitVec.toNat_ofNat]
    omega
  | destroyed _ _ _ ho =>
    refine queueInv_of_noQueue rfl ⟨rfl, rfl, fun x hx => ⟨.inl ?_, res_afterStore rfl hx⟩⟩
    exact idle_afterStore (s := { s with cap := 0, valid := false }) ho rfl x hx
  | reservedSlot hph hr => exact queueInv_reservedSlot hp h hph hr
  | committed hph hr => exact queueInv_committed hp h hph hr rfl rfl
  | taken hph hr => exact queueInv_taken hp h hph hr rfl rfl
  | reserving hph hc | taking hph hc | peeking hph hc =>
    refine h.goOn hp (by simp [hph]) (by simp [hph]) (by rw [hph]; rfl) fun _ => ?_
    simp [LatchOk, windowPhase, hc]
  | committing hph | itemRead _ hph =>
    refine h.goOn hp (by simp [hph]) (by simp [hph]) (by rw [hph]; rfl) fun hl => ?_
    simpa [LatchOk, windowPhase, hph] using hl
  | wrote hph => exact h.moved hp (by simp [hph]) (by simp [hph]) (by simp) (by rw [hph]; rfl) rfl
  | waiting ph hph =>
    obtain ⟨hph, _, rfl⟩ | ⟨hph, _, rfl⟩ | ⟨hph, _, rfl⟩ := hph <;>
      exact h.moved hp (by simp [hph]) (by simp [hph]) (by simp) (by rw [hph]; rfl) rfl
  | lost ph hph | yielded ph hph =>
    obtain ⟨hph, rfl⟩ | ⟨hph, rfl⟩ | ⟨hph, rfl⟩ := hph <;>
      exact h.moved hp (by simp [hph]) (by simp [hph]) (by simp) (by rw [hph]; rfl) rfl

/-- Settles O47: the three store words keep the fields in order, START makes an empty queue or none, and every
other step leaves QWORD. -/
theorem stepKeepsTheQueueInvariant : Obligations.StepKeepsTheQueueInvariant := by
  intro s t h ht
  exact step_keeps HostOnly.queueInv (fun _ => queueInv_resetWith) moves_queueInv h ht

end Sys2Proof.Safety
end

section
/-! The written slots (10_state.md R55, R56), all the invariants together, and what they give: no step
faults. -/

namespace Sys2Proof.Safety

open Sys2Proof Sys2Proof.Machine

variable {s t : State} {p : Nat} {q q' x : Port} {w : Word} {c : Config}

/-! ### The slots the latches name -/

theorem SlotOk.clear (h : SlotOk s x) : SlotOk s { x with res := false } := by
  obtain ⟨henq, hdeq, _⟩ := h
  exact ⟨henq, hdeq, fun _ hr => by cases hr⟩

theorem SlotOk.accessed (ha : Accessed q x) (h : SlotOk s q) : SlotOk s x := by
  obtain ⟨hres, _, rfl | ⟨hph, _, _, _, hs, hdin, hd⟩ | ⟨_, hph, _⟩⟩ := ha
  · exact h
  · simpa only [SlotOk, hph, hres, hs, hdin, hd] using h
  · simp [SlotOk, hph]

/-- At a phase that names no slot to be read, only the slot an enqueue wrote counts. -/
theorem SlotOk.moved (h : SlotOk s q) (hx : x.phase ∉ [.dRead, .dSC, .pRead])
    (hw : x.phase = .e2LL ∨ x.phase = .e2SC ∨ x.phase = .e2Yield →
      q.phase = .e2LL ∨ q.phase = .e2SC ∨ q.phase = .e2Yield)
    (hs : x.s = q.s) (hdin : x.din = q.din) : SlotOk s x := by
  obtain ⟨henq, _⟩ := h
  simp only [List.mem_cons, List.not_mem_nil, or_false, not_or] at hx
  obtain ⟨h1, h2, h3⟩ := hx
  refine ⟨fun e => ?_, fun e => ?_, fun e => absurd e h2⟩
  · rw [hs, hdin]
    exact henq (hw e)
  · exact absurd e (by simp [h1, h2, h3])

theorem HostOnly.slotInv (hh : HostOnly s t) (h : SlotInv s) : SlotInv t := by
  obtain ⟨hcommitted, hports⟩ := h
  refine ⟨by simpa only [hh.valid, hh.qword, hh.slots, hh.cap] using hcommitted,
    hh.forall_ports hports fun ha hy => ?_⟩
  simpa only [SlotOk, hh.slots] using hy.accessed ha

theorem slotInv_resetWith : SlotInv (State.resetWith c) :=
  ⟨fun hv => Bool.noConfusion hv, fun x hx => by simp [eq_reset_of_mem_resetWith hx, Port.reset, SlotOk]⟩

theorem SlotInv.putPort (h : SlotInv s) (hq : SlotOk s q') : SlotInv (putPort s p q') :=
  ⟨h.1, forall_putPort h.2 hq⟩

/-- A store to QWORD by a port whose command ends or has yet to write its slot. -/
theorem SlotInv.store (h : SlotInv s) (hq : q'.phase = .idle ∨ q'.phase = .eWrite)
    (hc : ∀ k, k < (Qword.rc w).toNat →
      (s.slots.read (((Qword.rp w).toNat + k) % s.cap.toNat)).isSome = true) :
    SlotInv (afterStore s p w q') := by
  refine ⟨fun _ => hc, forall_afterStore (fun x hx => (h.2 x hx).clear) ?_⟩
  obtain hq | hq := hq <;> simp [SlotOk, hq]

/-- The oldest committed item stands in the slot of the read pointer (R55). -/
theorem front_written (hf : FieldsOk s) (hpos : 0 < (Qword.rc s.qword).toNat)
    (hc : ∀ k, k < (Qword.rc s.qword).toNat →
      (s.slots.read (((Qword.rp s.qword).toNat + k) % s.cap.toNat)).isSome = true) :
    (s.slots.read (slotIndex (Qword.rp s.qword)).toNat).isSome = true := by
  have hrp := hf.rp_lt
  have hfront := hc 0 hpos
  rwa [Nat.add_zero, Nat.mod_eq_of_lt hrp, ← slotIndex_toNat hrp] at hfront

/-- The slot a dequeue takes is not the one being written (R54, R55). -/
theorem front_ne_window (hQ : QueueInv s) (hx : x ∈ s.ports) (hph : x.phase = .dSC) (hr : x.res = true)
    (hq : q ∈ s.ports) (hw : windowPhase q.phase = true) : x.s.toNat ≠ q.s.toNat := by
  obtain ⟨_, hf, hwin, hlatch⟩ := hQ.pastStart_of_window hq hw
  obtain ⟨hc, _, hs⟩ := (hlatch x hx).dequeue (.inr hph) hr
  have hne := window_slot_ne hf hwin (hlatch q hq) hq hw (deqCond_iff.mp hc)
  have hrp := hf.rp_lt
  rw [Nat.add_zero, Nat.mod_eq_of_lt hrp, ← slotIndex_toNat hrp] at hne
  rw [hs]
  exact hne.symm

/-- 42_enqueue.md R216: E_WRITE writes a slot that no other latch relies on. -/
theorem SlotInv.wrote (h : SlotInv s) (hQ : QueueInv s) (hp : s.ports[p]? = some q)
    (hph : q.phase = .eWrite) :
    SlotInv (Machine.putPort { s with slots := s.slots.write q.s.toNat q.din } p
      { q with phase := .e2LL }) := by
  have hq := List.mem_of_getElem? hp
  have hqw : windowPhase q.phase = true := by rw [hph]; rfl
  obtain ⟨_, hf, hwin, _⟩ := hQ.pastStart_of_window hq hqw
  obtain ⟨hcommitted, hports⟩ := h
  have keep : ∀ j, (s.slots.read j).isSome = true →
      ((s.slots.write q.s.toNat q.din).read j).isSome = true := by
    intro j hj
    rw [Memory.read_write]
    split
    · rfl
    · exact hj
  refine ⟨fun hv k hk => keep _ (hcommitted hv k hk), forall_putPort (fun x hx => ?_) ?_⟩
  · obtain ⟨henq, hread, hdeq⟩ := hports x hx
    refine ⟨fun e => ?_, fun e => keep _ (hread e), fun e hr => ?_⟩
    · obtain ⟨a, ha⟩ := List.mem_iff_getElem?.mp hx
      have hxw : windowPhase x.phase = true := by rcases e with e | e | e <;> rw [e] <;> rfl
      have hap : a = p := hwin.unique hf hp ha hqw hxw
      rw [hap, hp] at ha
      cases ha
      simp [hph] at e
    · exact (Memory.read_write_ne _ _ (front_ne_window hQ hx e hr hq hqw)).trans (hdeq e hr)
  · simp [SlotOk, Memory.read_write_self]

/-- 42_enqueue.md R220: the item that is committed is written. -/
theorem SlotInv.committed (h : SlotInv s) (hQ : QueueInv s) (hp : s.ports[p]? = some q)
    (hph : q.phase = .e2SC) (hr : q.res = true) (hq' : q'.phase = .idle) :
    SlotInv (afterStore s p q.vn q') := by
  have hq := List.mem_of_getElem? hp
  obtain ⟨hv, hf, hwin, hlatch⟩ := hQ.pastStart hq (by simp [hph]) (by simp [hph])
  obtain ⟨henq, _⟩ := h.2 q hq
  have hgap := hwin.gap hf hq (by rw [hph]; rfl)
  refine h.store (.inl hq') ?_
  rw [(hlatch q hq).phase2 hph hr, rc_phase2Word_toNat hgap, rp_phase2Word]
  intro k hk
  obtain hk | rfl := Nat.lt_succ_iff_lt_or_eq.mp hk
  · exact h.1 hv k hk
  · rw [← (hlatch q hq).slot (by rw [hph]; rfl), henq (.inr (.inl hph))]
    rfl

/-- 43_dequeue.md R244: the items behind the one taken stay written. -/
theorem SlotInv.taken (h : SlotInv s) (hQ : QueueInv s) (hp : s.ports[p]? = some q)
    (hph : q.phase = .dSC) (hr : q.res = true) (hq' : q'.phase = .idle) :
    SlotInv (afterStore s p q.vn q') := by
  have hq := List.mem_of_getElem? hp
  obtain ⟨hv, hf, _, hlatch⟩ := hQ.pastStart hq (by simp [hph]) (by simp [hph])
  obtain ⟨hc, hvn, _⟩ := (hlatch q hq).dequeue (.inr hph) hr
  refine h.store (.inl hq') ?_
  simp only [hvn, rc_deqWord_toNat hc, rp_deqWord_toNat hf.rp_lt, circular_succ]
  exact fun k hk => h.1 hv (k + 1) (by omega)

/-- A micro-step latches only slots that are written, and commits only those. -/
theorem moves_slotInv (hp : s.ports[p]? = some q) (hm : Moves s p q t) (hQ : QueueInv s)
    (h : SlotInv s) : SlotInv t := by
  have hq := List.mem_of_getElem? hp
  have hslot : SlotOk s q := h.2 q hq
  have front : ∀ ph, q.phase = ph → ph ≠ .idle → ph ≠ .start → 0 < (Qword.rc s.qword).toNat →
      (s.slots.read (slotIndex (Qword.rp s.qword)).toNat).isSome = true := by
    rintro _ rfl h1 h2 hpos
    obtain ⟨hv, hf, _⟩ := hQ.pastStart hq h1 h2
    exact front_written hf hpos (h.1 hv)
  cases hm with
  | still => exact h
  | startFailed | retry | reserving | noData | peeked => exact h.putPort (by simp [SlotOk])
  | started _ i _ _ _ hf => exact h.putPort (by cases i <;> cases hf <;> simp [SlotOk])
  | created _ cap _ ho =>
    refine ⟨fun _ k hk => by simp [afterStore] at hk, fun x hx => ?_⟩
    simp [SlotOk, idle_afterStore (s := { s with cap := BitVec.ofNat 7 cap, valid := true }) ho rfl x hx]
  | destroyed _ _ _ ho =>
    refine ⟨fun hv => Bool.noConfusion hv, fun x hx => ?_⟩
    simp [SlotOk, idle_afterStore (s := { s with cap := 0, valid := false }) ho rfl x hx]
  | waiting ph hph =>
    obtain ⟨hph, _, rfl⟩ | ⟨hph, _, rfl⟩ | ⟨hph, _, rfl⟩ := hph <;>
      exact h.putPort (hslot.moved (by simp) (by simp [hph]) rfl rfl)
  | lost ph hph | yielded ph hph =>
    obtain ⟨hph, rfl⟩ | ⟨hph, rfl⟩ | ⟨hph, rfl⟩ := hph <;>
      exact h.putPort (hslot.moved (by simp) (by simp [hph]) rfl rfl)
  | committing hph => exact h.putPort (hslot.moved (by simp) (by simp [hph]) rfl rfl)
  | reservedSlot hph hr =>
    obtain ⟨hv, _, _, hlatch⟩ := hQ.pastStart hq (by simp [hph]) (by simp [hph])
    obtain ⟨_, hvn, _⟩ := (hlatch q hq).phase1 hph hr
    refine h.store (.inr rfl) ?_
    simpa only [hvn, rc_phase1Word, rp_phase1Word] using h.1 hv
  | wrote hph => exact h.wrote hQ hp hph
  | committed hph hr => exact h.committed hQ hp hph hr rfl
  | taken hph hr => exact h.taken hQ hp hph hr rfl
  | taking hph hc =>
    have := front _ hph (by simp) (by simp) (deqCond_iff.mp hc)
    exact h.putPort (by simpa [SlotOk] using this)
  | itemRead d hph hi hd => exact h.putPort (by simp [SlotOk, hd])
  | peeking hph hc =>
    have := front _ hph (by simp) (by simp) (Nat.pos_of_ne_zero hc)
    exact h.putPort (by simpa [SlotOk] using this)

/-! ### All the invariants -/

theorem HostOnly.blockInv (hh : HostOnly s t) (h : BlockInv s) : BlockInv t := by
  obtain ⟨hparams, hmem, hstatus, hcommand, hqueue, hslot⟩ := h
  exact ⟨by simpa only [ParamsInv, hh.count, hh.base] using hparams, hh.slots ▸ hmem,
    hh.forall_ports hstatus StatusOk.accessed, hh.forall_ports hcommand CommandOk.accessed,
    hh.queueInv hqueue, hh.slotInv hslot⟩

theorem blockInv_resetWith (h : ParamsInv (State.resetWith c)) : BlockInv (State.resetWith c) :=
  ⟨h, rfl, statusInv_resetWith, commandInv_resetWith, queueInv_resetWith, slotInv_resetWith⟩

theorem BlockInv.reset (h : BlockInv s) : BlockInv (resetBlock s) :=
  blockInv_resetWith (c := ⟨s.ports.length, s.blockBase⟩)
    (by simpa [ParamsInv, State.resetWith] using h.1)

theorem moves_blockInv (hp : s.ports[p]? = some q) (hm : Moves s p q t) (h : BlockInv s) :
    BlockInv t := by
  obtain ⟨hparams, hmem, hstatus, hcommand, hqueue, hslot⟩ := h
  have hsame := hm.sameParams
  exact ⟨by simpa only [ParamsInv, hsame.count, hsame.base] using hparams, moves_slots_wf hm hmem,
    moves_statusInv hp hm hstatus, moves_commandInv hp hm hcommand, moves_queueInv hp hm hqueue,
    moves_slotInv hp hm hqueue hslot⟩

/-- Settles O48: each invariant is kept by every kind of step, the written slots with the help of the control
word's. -/
theorem stepKeepsTheInvariants : Obligations.StepKeepsTheInvariants := by
  intro s t h ht
  exact step_keeps HostOnly.blockInv BlockInv.reset moves_blockInv h ht

/-- Settles O43: the empty block meets each invariant. -/
theorem resetMeetsTheInvariants : Obligations.ResetMeetsTheInvariants := by
  intro c hlow hhigh hbase
  exact blockInv_resetWith (by simp [ParamsInv, State.resetWith, hlow, hhigh, hbase])

/-- Settles O9: the fields of `State.resetWith` and of `Port.reset`. -/
theorem resetStateHasTheResetValues : Obligations.ResetStateHasTheResetValues := by
  intro c
  refine ⟨rfl, rfl, rfl, fun _ => rfl, List.length_replicate, rfl, fun p hp => ?_⟩
  exact ⟨Port.reset, by simp [State.resetWith, hp], rfl, rfl, rfl, rfl, rfl, rfl, rfl, rfl, rfl⟩

/-! ### No step faults -/

/-- The three micro-steps that reach a slot reach one of the 127, and a written one if they read (R56). -/
theorem runTurn_answers (h : BlockInv s) (hp : s.ports[s.turn.port]? = some q) :
    ∃ t, runTurn s = .next t := by
  obtain ⟨_, hmem, _, _, hqueue, _, hslots⟩ := h
  have hq := List.mem_of_getElem? hp
  have reads : q.phase = .dRead ∨ q.phase = .dSC ∨ q.phase = .pRead → ∀ k : Item → State,
      ∃ t, slotRead q.s.toNat s k = .next t := by
    intro hph k
    obtain ⟨_, hread, _⟩ := hslots q hq
    obtain ⟨d, hd⟩ := Option.isSome_iff_exists.mp (hread hph)
    exact ⟨_, slotRead_some (Memory.lt_of_read hmem hd) hd k⟩
  rw [runTurn_eq hp]
  cases hph : q.phase <;> simp only [runPhase, hph]
  case eWrite =>
    obtain ⟨_, ⟨hcap, hmax, _⟩, _, hlatch⟩ := hqueue.pastStart hq (by simp [hph]) (by simp [hph])
    refine ⟨_, eWrite_eq hp ?_⟩
    rw [(hlatch q hq).slot (by rw [hph]; rfl)]
    exact (Nat.mod_lt _ hcap).trans_le hmax
  case dRead => exact reads (.inl hph) _
  case pRead => exact reads (.inr (.inr hph)) _
  all_goals exact ⟨_, rfl⟩

/-- Settles O49: an access and reset always answer, and so does a turn in a state that meets the
invariants. -/
theorem noStepFaults : Obligations.NoStepFaults := by
  intro s h
  have h' : BlockInv (nextEvent s).2 := (hostOnly_nextEvent s).blockInv h
  unfold step
  cases (nextEvent s).1 with
  | access a => exact ⟨_, rfl⟩
  | reset => exact ⟨_, rfl⟩
  | port p b =>
    cases hq : (nextEvent s).2.ports[p]? with
    | none => exact ⟨_, runTurn_none (s := takeTurn p b _) hq⟩
    | some q => exact runTurn_answers ((hostOnly_takeTurn p b _).blockInv h') hq

end Sys2Proof.Safety
end

section
/-! The committed items as a first-in first-out queue (10_state.md R57, 20_memory.md R98, 43_dequeue.md
R250). -/

namespace Sys2Proof.Safety

open Sys2Proof Sys2Proof.Machine

variable {s t : State} {p : Nat} {q q' : Port} {w : Word}

/-- Only QWORD, CAP and the slots say what the committed items are. -/
theorem SameQueue.contents (h : SameQueue s t) : contents t = contents s := by
  simp only [Safety.contents, h.qword, h.cap, h.slots]

theorem contents_eq_nil (h : s.qword = 0#32) : contents s = [] := by
  simp [contents, h]

/-- 42_enqueue.md R216: E_WRITE writes behind the committed items. -/
theorem contents_wrote (hQ : QueueInv s) (hp : s.ports[p]? = some q) (hph : q.phase = .eWrite) (d : Item) :
    contents (putPort { s with slots := s.slots.write q.s.toNat d } p q') = contents s := by
  have hq := List.mem_of_getElem? hp
  obtain ⟨_, hf, hwin, hlatch⟩ := hQ.pastStart hq (by simp [hph]) (by simp [hph])
  refine List.map_congr_left fun k hk => Memory.read_write_ne _ _ (Ne.symm ?_)
  exact window_slot_ne hf hwin (hlatch q hq) hq (by rw [hph]; rfl) (List.mem_range.mp hk)

/-- 42_enqueue.md R215: the store of phase 1 moves no committed item. -/
theorem contents_reservedSlot (hQ : QueueInv s) (hp : s.ports[p]? = some q) (hph : q.phase = .e1SC)
    (hr : q.res = true) : contents (afterStore s p q.vn q') = contents s := by
  have hq := List.mem_of_getElem? hp
  obtain ⟨_, _, _, hlatch⟩ := hQ.pastStart hq (by simp [hph]) (by simp [hph])
  obtain ⟨_, hvn, _⟩ := (hlatch q hq).phase1 hph hr
  simp only [contents, afterStore, hvn, rc_phase1Word, rp_phase1Word]

/-- 42_enqueue.md R220: the store of phase 2 puts its port's item at the end. -/
theorem contents_committed (hQ : QueueInv s) (hS : SlotInv s) (hp : s.ports[p]? = some q)
    (hph : q.phase = .e2SC) (hr : q.res = true) :
    contents (afterStore s p q.vn q') = contents s ++ [some q.din] := by
  have hq := List.mem_of_getElem? hp
  obtain ⟨_, hf, hwin, hlatch⟩ := hQ.pastStart hq (by simp [hph]) (by simp [hph])
  obtain ⟨henq, _⟩ := hS.2 q hq
  have hgap := hwin.gap hf hq (by rw [hph]; rfl)
  have hlast : s.slots.read (((Qword.rp s.qword).toNat + (Qword.rc s.qword).toNat) % s.cap.toNat) =
      some q.din := by
    rw [← (hlatch q hq).slot (by rw [hph]; rfl), henq (.inr (.inl hph))]
  simp only [contents, afterStore, (hlatch q hq).phase2 hph hr, rp_phase2Word, rc_phase2Word_toNat hgap,
    List.range_succ, List.map_append, List.map_cons, List.map_nil, hlast]

/-- 43_dequeue.md R244: the store of a dequeue takes the oldest item, the one its port has read. -/
theorem contents_taken (hQ : QueueInv s) (hS : SlotInv s) (hp : s.ports[p]? = some q)
    (hph : q.phase = .dSC) (hr : q.res = true) :
    contents s = some q.d :: contents (afterStore s p q.vn q') := by
  have hq := List.mem_of_getElem? hp
  obtain ⟨_, hf, _, hlatch⟩ := hQ.pastStart hq (by simp [hph]) (by simp [hph])
  have hrp := hf.rp_lt
  obtain ⟨hc, hvn, hs⟩ := (hlatch q hq).dequeue (.inr hph) hr
  obtain ⟨_, _, hread⟩ := hS.2 q hq
  have hfirst : s.slots.read (((Qword.rp s.qword).toNat + 0) % s.cap.toNat) = some q.d := by
    rw [← hread hph hr, hs, slotIndex_toNat hrp, Nat.add_zero, Nat.mod_eq_of_lt hrp]
  obtain ⟨n, hn⟩ := Nat.exists_eq_add_of_lt (deqCond_iff.mp hc)
  simp only [contents, afterStore, hvn, rc_deqWord_toNat hc, rp_deqWord_toNat hrp, circular_succ,
    hn, Nat.zero_add, Nat.add_sub_cancel, List.range_succ_eq_map, List.map_cons, List.map_map, hfirst]
  rfl

/-- What a micro-step can do to the committed items. -/
inductive ContentsMove (s : State) (p : Nat) (q : Port) (t : State) : Prop
  /-- The store of phase 2. -/
  | appended (hph : q.phase = .e2SC) (hstore : q.res = true ∧ s.turn.spurious = false)
      (hc : contents t = contents s ++ [some q.din])
  /-- The store of a dequeue. -/
  | removed (hph : q.phase = .dSC) (hstore : q.res = true ∧ s.turn.spurious = false) (q' : Port)
      (hq' : t.ports[p]? = some q') (hidle : q'.phase = .idle) (hcode : q'.code = 0x00#8)
      (hc : contents s = some q'.doutItem :: contents t)
  /-- START of INIT or DESTROY, with SUCCESS. -/
  | emptied (hph : q.phase = .start) (q' : Port) (hq' : t.ports[p]? = some q') (hcode : q'.code = 0x00#8)
      (hcmd : (∃ cap, decodeWord q.cw = .ok (.init cap)) ∨ decodeWord q.cw = .ok .destroy)
      (hc : contents t = [])
  /-- Any other START: it fails, or its command is neither INIT nor DESTROY. -/
  | startKept (hph : q.phase = .start) (q' : Port) (hq' : t.ports[p]? = some q')
      (hno : ¬(q'.code = 0x00#8 ∧
        ((∃ cap, decodeWord q.cw = .ok (.init cap)) ∨ decodeWord q.cw = .ok .destroy)))
      (hc : contents t = contents s)
  /-- Any other micro-step. -/
  | kept (hph : q.phase ≠ .start)
      (hno : ¬((q.phase = .e2SC ∨ q.phase = .dSC) ∧ q.res = true ∧ s.turn.spurious = false))
      (hc : contents t = contents s)

theorem get_afterStore (hp : s.ports[p]? = some q) : (afterStore s p w q').ports[p]? = some q' :=
  get_set_self (get_map_clear hp) q'

/-- Every micro-step is one of `ContentsMove`. -/
theorem moves_contents (hQ : QueueInv s) (hS : SlotInv s) (hp : s.ports[p]? = some q)
    (hm : Moves s p q t) : ContentsMove s p q t := by
  cases hm with
  | still hph => exact .kept (by simp [hph]) (by simp [hph]) rfl
  | startFailed hph c hc =>
    refine .startKept hph _ (get_set_self hp _) ?_ rfl
    rintro ⟨rfl, _⟩
    simp at hc
  | started hph i ph hi hv hf =>
    refine .startKept hph _ (get_set_self hp _) ?_ rfl
    rintro ⟨_, ⟨cap, h⟩ | h⟩ <;> · rw [hi] at h; cases h; cases hf
  | created hph cap hi =>
    exact .emptied hph _ (get_afterStore hp) rfl (.inl ⟨cap, hi⟩) (contents_eq_nil rfl)
  | destroyed hph hi =>
    exact .emptied hph _ (get_afterStore hp) rfl (.inr hi) (contents_eq_nil rfl)
  | reservedSlot hph hr =>
    exact .kept (by simp [hph]) (by simp [hph]) (contents_reservedSlot hQ hp hph hr)
  | wrote hph => exact .kept (by simp [hph]) (by simp [hph]) (contents_wrote hQ hp hph _)
  | committed hph hr hs => exact .appended hph ⟨hr, hs⟩ (contents_committed hQ hS hp hph hr)
  | taken hph hr hs =>
    refine .removed hph ⟨hr, hs⟩ _ (get_afterStore hp) rfl rfl ?_
    rw [Port.doutItem, itemHi_append_itemLo]
    exact contents_taken hQ hS hp hph hr
  | lost ph hph hr =>
    exact .kept (by rcases hph with h | h | h <;> simp [h]) (fun h => hr h.2) rfl
  | retry hph => refine .kept ?_ ?_ rfl <;> rcases hph with ⟨h, _⟩ | ⟨h, _⟩ <;> simp [h]
  | waiting ph hph | yielded ph hph =>
    refine .kept ?_ ?_ rfl <;> rcases hph with ⟨h, _⟩ | ⟨h, _⟩ | ⟨h, _⟩ <;> simp [h]
  | reserving hph | committing hph | taking hph | itemRead _ hph | noData hph | peeking hph | peeked _ hph =>
    exact .kept (by simp [hph]) (by simp [hph]) rfl

/-- Settles O50: an access leaves QWORD, CAP and the slots, reset empties the queue, and a turn is one of
`ContentsMove`. -/
theorem queueIsFirstInFirstOut : Obligations.QueueIsFirstInFirstOut := by
  rintro e s t ⟨_, _, _, _, hQ, hS⟩ ht
  refine ⟨?_, ?_, ?_⟩
  · rintro a rfl
    cases ht
    exact SameQueue.contents (busAccess_rest a s)
  · rintro rfl
    cases ht
    exact contents_eq_nil rfl
  · rintro p b q rfl hp
    have hturn := hostOnly_takeTurn p b s
    have hmove := moves_contents (hturn.queueInv hQ) (hturn.slotInv hS) hp (moves_of_runTurn hp ht)
    cases hmove with
    | appended hph hstore hc =>
      exact ⟨fun _ => hc, fun h => by simp [hph] at h, fun _ hno => absurd ⟨.inl hph, hstore⟩ hno,
        fun h => by simp [hph] at h⟩
    | removed hph hstore q' hq' hidle hcode hc =>
      exact ⟨fun h => by simp [hph] at h, fun _ => ⟨q', hq', hidle, hcode, hc⟩,
        fun _ hno => absurd ⟨.inr hph, hstore⟩ hno, fun h => by simp [hph] at h⟩
    | emptied hph q' hq' hcode hcmd hc =>
      exact ⟨fun h => by simp [hph] at h, fun h => by simp [hph] at h, fun h => absurd hph h,
        fun _ => ⟨q', hq', fun _ => hc, fun hno => absurd ⟨hcode, hcmd⟩ hno⟩⟩
    | startKept hph q' hq' hno hc =>
      exact ⟨fun h => by simp [hph] at h, fun h => by simp [hph] at h, fun h => absurd hph h,
        fun _ => ⟨q', hq', fun h => absurd h hno, fun _ => hc⟩⟩
    | kept hph hno hc =>
      exact ⟨fun h => absurd ⟨.inl h.1, h.2⟩ hno, fun h => absurd ⟨.inr h.1, h.2⟩ hno, fun _ _ => hc,
        fun h => absurd h hph⟩

end Sys2Proof.Safety
end

section
/-! What the registers show (10_state.md R31 to R44), and what writes QWORD, VALID and CAP (R32, R36). -/

namespace Sys2Proof.Machine

open Sys2Proof Sys2Proof.Safety

variable {s t : State} {p : Nat} {q : Port}

/-! ### Reads -/

/-- A read of a mapped register answers its value and keeps everything else (20_memory.md R86). -/
theorem busAccess_read {o : Nat} {r : Reg} (ho : o % 4 = 0) (hr : Reg.ofOffset s.ports.length o = some r) :
    busAccess ⟨s.blockBase + o, 4, .read⟩ s = { s with resp := some (.okRead (readReg r s)) } := by
  simp [busAccess, Access.target, ho, hr]

/-- A read of a register of port `p`, at offset `k` of its 0x20 bytes (30_encoding.md R142). -/
theorem busAccess_read_port {o : Nat} {r : Reg} {w : Word} (hp : s.ports[p]? = some q) (k : Nat)
    (ho : o = 0x100 + 0x20 * p + k) (hk : k < 0x20 ∧ k % 4 = 0) (hr : Reg.ofPortOffset p k = some r)
    (hw : readReg r s = w) :
    busAccess ⟨s.blockBase + o, 4, .read⟩ s = { s with resp := some (.okRead w) } := by
  subst ho hw
  exact busAccess_read (by omega) (by rw [ofOffset_port (List.getElem?_eq_some_iff.mp hp).1 hk.1, hr])

theorem portField_eq (hp : s.ports[p]? = some q) (f : Port → Word) : portField s p f = f q := by
  simp [portField, hp]

/-- A field of a word, as a number. -/
theorem extract_eq_iff {w : Word} {i n : Nat} {x : BitVec n} :
    w.extractLsb' i n = x ↔ w.toNat / 2 ^ i % 2 ^ n = x.toNat := by
  rw [← BitVec.toNat_inj, BitVec.extractLsb'_toNat, Nat.shiftRight_eq_div_pow]

/-- 10_state.md R42, field by field. -/
theorem statusWord_fields (q : Port) :
    q.statusWord.getLsbD 31 = q.busy ∧ q.statusWord.getLsbD 30 = q.ovr ∧
      q.statusWord.extractLsb' 8 22 = 0#22 ∧ q.statusWord.extractLsb' 0 8 = q.code := by
  have hcode := q.code.isLt
  refine ⟨by simp only [Port.statusWord, BitVec.getLsbD_append]; simp,
    by simp only [Port.statusWord, BitVec.getLsbD_append]; simp, ?_, ?_⟩ <;>
    rw [extract_eq_iff, statusWord_toNat]
  · rw [BitVec.toNat_zero]
    omega
  · omega

/-- 10_state.md R35, field by field. -/
theorem qcfgWord_fields (s : State) :
    s.qcfgWord.getLsbD 31 = s.valid ∧ s.qcfgWord.extractLsb' 7 24 = 0#24 ∧
      s.qcfgWord.extractLsb' 0 7 = s.cap := by
  have hcap := s.cap.isLt
  refine ⟨by simp only [State.qcfgWord, BitVec.getLsbD_append]; simp, ?_, ?_⟩ <;>
    rw [extract_eq_iff, qcfgWord_toNat]
  · rw [BitVec.toNat_zero]
    omega
  · omega

/-- 10_state.md R38, field by field. -/
theorem qparamWord_fields (s : State) :
    s.qparamWord.extractLsb' 16 16 = 0#16 ∧ s.qparamWord.extractLsb' 8 8 = 0x7F#8 ∧
      s.qparamWord.extractLsb' 0 8 = BitVec.ofNat 8 s.ports.length := by
  simp only [extract_eq_iff, qparamWord_toNat, BitVec.toNat_ofNat]
  omega

/-- Settles O11: each offset maps its register, whose value is read field by field. -/
theorem readsReturnTheRegisters : Obligations.ReadsReturnTheRegisters := by
  intro s
  refine ⟨busAccess_read (r := .qword) rfl rfl,
    ⟨_, busAccess_read (r := .qcfg) rfl rfl, qcfgWord_fields s⟩,
    ⟨_, busAccess_read (r := .qparam) rfl rfl, qparamWord_fields s⟩, fun p q hp => ?_⟩
  have hfield : ∀ f : Port → Word, portField s p f = f q := portField_eq hp
  exact ⟨busAccess_read_port hp 0x00 (by omega) (by decide) rfl rfl,
    ⟨_, busAccess_read_port hp 0x04 (by omega) (by decide) rfl (hfield _), statusWord_fields q⟩,
    busAccess_read_port hp 0x08 (by omega) (by decide) rfl (hfield _),
    busAccess_read_port hp 0x0C (by omega) (by decide) rfl (hfield _),
    busAccess_read_port hp 0x10 (by omega) (by decide) rfl (hfield _),
    busAccess_read_port hp 0x14 (by omega) (by decide) rfl (hfield _)⟩

/-! ### The writers of QWORD, VALID and CAP -/

/-- Settles O37: a micro-step writes QWORD at the three stores and at START of INIT and DESTROY. -/
theorem onlyFourThingsWriteQword : Obligations.OnlyFourThingsWriteQword := by
  intro e s t ht hne
  obtain ⟨a, _, rfl⟩ | ⟨rfl, rfl⟩ | ⟨p, b, _, _, rfl⟩ | ⟨p, b, q, rfl, hp, hm⟩ := runEvent_next ht
  · exact absurd (busAccess_rest a s).qword hne
  · exact .inl ⟨rfl, rfl⟩
  · exact absurd rfl hne
  · refine .inr ⟨p, b, q, rfl, hp, ?_⟩
    cases hm with
    | reservedSlot hph hr hs | committed hph hr hs | taken hph hr hs =>
      exact .inl ⟨by rw [hph]; rfl, hr, hs, rfl⟩
    | created hph cap hi => exact .inr ⟨hph, rfl, .inl ⟨cap, hi⟩⟩
    | destroyed hph hi => exact .inr ⟨hph, rfl, .inr hi⟩
    | _ => exact absurd rfl hne

/-- Settles O38: a micro-step writes VALID and CAP only at START of INIT and DESTROY, with every other port
IDLE. -/
theorem onlyLifecycleWritesTheConfiguration : Obligations.OnlyLifecycleWritesTheConfiguration := by
  intro e s t ht hne
  have hsame : ¬(t.valid = s.valid ∧ t.cap = s.cap) := fun ⟨hv, hc⟩ =>
    hne.elim (absurd hv) (absurd hc)
  obtain ⟨a, _, rfl⟩ | ⟨rfl, rfl⟩ | ⟨p, b, _, _, rfl⟩ | ⟨p, b, q, rfl, hp, hm⟩ := runEvent_next ht
  · exact absurd ⟨(busAccess_rest a s).valid, (busAccess_rest a s).cap⟩ hsame
  · exact .inl ⟨rfl, rfl, rfl⟩
  · exact absurd ⟨rfl, rfl⟩ hsame
  · refine .inr ⟨p, b, q, rfl, hp, ?_⟩
    cases hm with
    | created hph cap hi ho h1 h2 =>
      have hcap : (BitVec.ofNat 7 cap).toNat = cap := by
        rw [BitVec.toNat_ofNat]
        omega
      exact ⟨hph, othersBusy_false_iff.mp ho, .inl ⟨cap, hi, h1, h2, rfl, hcap⟩⟩
    | destroyed hph hi _ ho => exact ⟨hph, othersBusy_false_iff.mp ho, .inr ⟨hi, rfl, rfl⟩⟩
    | _ => exact absurd ⟨rfl, rfl⟩ hsame

end Sys2Proof.Machine
end

section
/-! The memory rules of 20_memory.md: byte lanes (R82, R83), the accesses that get a bus error (R84), the
load-reserve and the store-conditional (R90, R91), what changes a reservation (R92), and the form of the slot
store (R96). -/

namespace Sys2Proof.Machine

open Sys2Proof Sys2Proof.Safety

variable {s t : State} {p : Nat} {q : Port}

/-! ### Byte lanes -/

/-- A control word is its four fields (10_state.md R33). -/
theorem pack_fields (w : Word) : pack (Qword.wc w) (Qword.wp w) (Qword.rc w) (Qword.rp w) = w := by
  apply BitVec.eq_of_toNat_eq
  have hw := w.isLt
  rw [pack_toNat, wc_toNat, wp_toNat, rc_toNat, rp_toNat]
  omega

theorem lanes_eq_fields (w : Word) : lanes w = [Qword.wc w, Qword.wp w, Qword.rc w, Qword.rp w] := rfl

theorem ofLanes_eq_pack (b0 b1 b2 b3 : Byte) : ofLanes b0 b1 b2 b3 = pack b0 b1 b2 b3 := rfl

/-- Settles O6: the lanes are the fields of the control word, and put together they are the word. -/
theorem byteLanesAreBigEndian : Obligations.ByteLanesAreBigEndian := by
  refine ⟨fun wc wp rc rp => ?_, fun w rest => ?_⟩
  · rw [lanes_eq_fields, wc_pack, wp_pack, rc_pack, rp_pack]
  · simp only [lanes_eq_fields, List.cons_append, List.nil_append, decodeBytes, ofLanes_eq_pack, pack_fields]

/-! ### The bus error -/

/-- The last 8 bytes of a port's 0x20 hold no register (30_encoding.md R142). -/
theorem ofPortOffset_eq_none_iff {k : Nat} (ha : k % 4 = 0) (hk : k < 0x20) :
    Reg.ofPortOffset p k = none ↔ 0x18 ≤ k := by
  unfold Reg.ofPortOffset
  split
  case h_7 h0 h4 h8 hC h10 h14 =>
    simp only [imp_false] at h0 h4 h8 hC h10 h14
    simp only [true_iff]
    omega
  all_goals simp

/-- The aligned offsets to which `n` ports map no register (30_encoding.md R142). -/
theorem ofOffset_eq_none_iff {n o : Nat} (ha : o % 4 = 0) :
    Reg.ofOffset n o = none ↔ 0x100 + 0x20 * n ≤ o ∨ (0x00C ≤ o ∧ o ≤ 0x0FF) ∨
      (0x100 ≤ o ∧ 0x18 ≤ (o - 0x100) % 0x20) := by
  unfold Reg.ofOffset
  split
  · split
    case h_4 h0 h4 h8 =>
      simp only [imp_false] at h0 h4 h8
      simp only [true_iff]
      omega
    all_goals
      simp only [reduceCtorEq, false_iff]
      omega
  · split
    · rw [ofPortOffset_eq_none_iff (by omega) (by omega)]
      omega
    · simp only [true_iff]
      omega

/-- The accesses that reach no register (20_memory.md R84). -/
theorem target_eq_none_iff {a : Access} :
    Access.target a s = none ↔ a.size ≠ 4 ∨ a.addr < s.blockBase ∨ (a.addr - s.blockBase) % 4 ≠ 0 ∨
      Reg.ofOffset s.ports.length (a.addr - s.blockBase) = none := by
  unfold Access.target
  split
  · next h =>
    obtain ⟨hsize, hbase, halign⟩ := h
    simp [hsize, Nat.not_lt.mpr hbase, halign]
  · simp only [true_iff]
    omega

/-- An access gets the bus error exactly when it reaches no register (20_memory.md R84). -/
theorem busAccess_resp_eq_err_iff {a : Access} :
    (busAccess a s).resp = some .err ↔ Access.target a s = none := by
  unfold busAccess
  split
  · next h => simp [h]
  · next r h => cases a.kind <;> simp [h]

/-- Settles O12: the bad accesses are those that reach no register. -/
theorem badAccessesGetABusError : Obligations.BadAccessesGetABusError := by
  intro s a bad
  have hbad : bad ↔ Access.target a s = none := by
    rw [target_eq_none_iff]
    by_cases ha : (a.addr - s.blockBase) % 4 = 0
    · rw [ofOffset_eq_none_iff ha]
    · simp [bad, ha]
  rw [hbad, Ne, busAccess_resp_eq_err_iff]
  exact ⟨fun h => by simp [busAccess, h], id⟩

/-! ### The load-reserve and the store-conditional -/

theorem llw_eq (h : s.ports[p]? = some q) : llw p s = (s.qword, putPort s p { q with res := true }) := by
  rw [llw, updPort_eq_set h]

/-- Settles O31: the equations of the two operations, with the store's state in the terms of the claim. -/
theorem loadReserveAndStoreConditional : Obligations.LoadReserveAndStoreConditional := by
  intro s p q w h
  exact ⟨llw_eq h, fun ⟨hr, hs⟩ => scw_stored h hr hs w, fun hr => scw_failed h hr w⟩

/-! ### What changes a reservation -/

/-- A micro-step either sets its own port's record, taking the reservation only at a load-reserve and losing
it only at a store-conditional or the command's end, or stores to QWORD and clears every reservation
(20_memory.md R90 to R92, 40_command_execution.md R166). -/
theorem Moves.reservations (hp : s.ports[p]? = some q) (hm : Moves s p q t) :
    (∃ q', t.ports = s.ports.set p q' ∧
      (q.res = false → q'.res = true → q.phase = .e1LL ∨ q.phase = .e2LL ∨ q.phase = .dLL) ∧
      (q.res = true → q'.res = false → storePhase q.phase = true ∨ q'.phase = .idle)) ∨
    (∀ y ∈ t.ports, y.res = false) ∧
      (storePhase q.phase = true ∧ q.res = true ∧ s.turn.spurious = false ∧ t.qword = q.vn ∨
        q.phase = .start ∧ t.qword = 0x00000000#32) := by
  have keeps : ∀ {q' : Port}, q'.res = q.res →
      (q.res = false → q'.res = true → q.phase = .e1LL ∨ q.phase = .e2LL ∨ q.phase = .dLL) ∧
      (q.res = true → q'.res = false → storePhase q.phase = true ∨ q'.phase = .idle) :=
    fun h => ⟨fun hf ht => by simp [h, hf] at ht, fun ht hf => by simp [h, ht] at hf⟩
  cases hm with
  | still =>
    obtain ⟨hlt, rfl⟩ := List.getElem?_eq_some_iff.mp hp
    exact .inl ⟨_, (List.set_getElem_self hlt).symm, keeps rfl⟩
  | started | yielded | wrote | itemRead | peeking => exact .inl ⟨_, rfl, keeps rfl⟩
  | startFailed | retry | noData | peeked => exact .inl ⟨_, rfl, by simp, fun _ _ => .inr rfl⟩
  | reserving hph | committing hph | taking hph => exact .inl ⟨_, rfl, by simp [hph], by simp⟩
  | waiting ph hph =>
    exact .inl ⟨_, rfl, fun _ _ => hph.imp And.left (Or.imp And.left And.left), by simp⟩
  | lost ph hph =>
    refine .inl ⟨_, rfl, by simp, fun _ _ => .inl ?_⟩
    obtain ⟨hph, _⟩ | ⟨hph, _⟩ | ⟨hph, _⟩ := hph <;> rw [hph] <;> rfl
  | created hph | destroyed hph =>
    exact .inr ⟨fun _ => res_afterStore rfl, .inr ⟨hph, rfl⟩⟩
  | reservedSlot hph hr hs | committed hph hr hs | taken hph hr hs =>
    exact .inr ⟨fun _ => res_afterStore rfl, .inl ⟨by rw [hph]; rfl, hr, hs, rfl⟩⟩

/-- Settles O36: accesses keep every reservation, reset clears it, and a micro-step touches another port's
only when it stores to QWORD. -/
theorem reservationsChangeOnlyAsListed : Obligations.ReservationsChangeOnlyAsListed := by
  intro e s t r q q' ht hq hq'
  by_cases hsame : q'.res = q.res
  · exact ⟨fun hf ht => by simp [hsame, hf] at ht, fun ht hf => by simp [hsame, ht] at hf⟩
  obtain ⟨a, _, rfl⟩ | ⟨rfl, rfl⟩ | ⟨p, b, _, _, rfl⟩ | ⟨p, b, x, rfl, hp, hm⟩ := runEvent_next ht
  · obtain ⟨y, hy, ha⟩ := busAccess_ports hq'
    obtain rfl : q = y := Option.some.inj (hq.symm.trans hy)
    exact absurd ha.res hsame
  · have hreset : q' = Port.reset := resetBlock_ports (List.mem_of_getElem? hq')
    exact ⟨fun _ ht => by simp [hreset, Port.reset] at ht, fun _ _ => .inl rfl⟩
  · exact absurd (congrArg Port.res (Option.some.inj (hq'.symm.trans hq))) hsame
  · obtain ⟨x', hports, htakes, hloses⟩ | ⟨hclear, hstore⟩ :=
      Moves.reservations (s := takeTurn p b s) hp hm
    · rw [hports] at hq'
      obtain ⟨rfl, rfl⟩ | ⟨_, rfl⟩ := get_putPort (s := s) hq hq'
      · obtain rfl : q = x := Option.some.inj (hq.symm.trans hp)
        exact ⟨fun hf ht => ⟨⟨b, rfl⟩, htakes hf ht⟩, fun ht hf => .inr (.inr ⟨b, rfl, hloses ht hf⟩)⟩
      · exact absurd rfl hsame
    · have hres : q'.res = false := hclear q' (List.mem_of_getElem? hq')
      exact ⟨fun _ ht => by simp [hres] at ht, fun _ _ => .inr (.inl ⟨p, b, x, rfl, hp, hclear, hstore⟩)⟩

end Sys2Proof.Machine

namespace Sys2Proof.Safety

open Sys2Proof Sys2Proof.Machine

/-! ### The form of the slot store -/

/-- Settles O44: reset empties the store, and only E_WRITE writes a slot. -/
theorem stepKeepsTheSlotForm : Obligations.StepKeepsTheSlotForm := by
  intro s t h ht
  exact step_keeps (I := fun s => s.slots.wf = true) (fun hh h => hh.slots ▸ h) (fun _ => Memory.reset_wf)
    (fun _ hm => moves_slots_wf hm) h ht

end Sys2Proof.Safety
end

section
/-! The command word (30_encoding.md section 1 and 2): the decoder is the inverse of the encoder (R131 to R133),
the legal words (R134), and what START does with a word that is none (R135, 40_command_execution.md R163). -/

namespace Sys2Proof

variable {w : Word} {i : Instr} {cap : Nat}

/-! ### The decoder and the encoder are inverse -/

theorem decodeWord_encode (h : WellFormed i = true) : decodeWord (encode i) = .ok i := by
  cases i with
  | init cap =>
    have hcap : cap < 65536 := of_decide_eq_true h
    simp [decodeWord, cmdRsvd_encode, cmdOp_encode, cmdArg_encode, opcode, argOf, hcap]
  | destroy | enq | tryenq | deq | trydeq | peek => rfl

/-- A word decodes to the well-formed command it encodes, and to nothing else (30_encoding.md R131 to R133). -/
theorem decodeWord_eq_ok_iff : decodeWord w = .ok i ↔ encode i = w ∧ WellFormed i = true := by
  refine ⟨fun h => ?_, fun ⟨he, hwf⟩ => he ▸ decodeWord_encode hwf⟩
  obtain ⟨hrsvd, hop, harg, hwf⟩ := decodeWord_ok h
  refine ⟨?_, hwf⟩
  calc encode i = cmdArg w ++ cmdRsvd w ++ cmdOp w := by rw [hrsvd, hop, harg]; rfl
    _ = w := cmd_fields w

/-- A well-formed command is the meaning of one word. -/
theorem decodeWord_eq_ok_iff_eq_encode (h : WellFormed i = true) : decodeWord w = .ok i ↔ w = encode i := by
  rw [decodeWord_eq_ok_iff, and_iff_left h, eq_comm]

/-- Settles O1: the encoder's word decodes to the command, and its lanes carry the word. -/
theorem decodeOfEncodeIsTheCommand : Obligations.DecodeOfEncodeIsTheCommand := by
  intro i rest h
  have hw : decodeWord (encode i) = .ok i := decodeWord_encode h
  refine ⟨hw, ?_⟩
  rw [encodeBytes, Machine.byteLanesAreBigEndian.2, hw]
  rfl

/-- Settles O2: the fields of a word that decodes are the ones the encoder writes. -/
theorem encodeOfDecodeIsTheWord : Obligations.EncodeOfDecodeIsTheWord :=
  fun _ _ => decodeWord_eq_ok_iff.mp

/-! ### The legal words -/

/-- R134 by fields: OP is 1 to 7, bits 15:4 are 0, and ARG is 0 unless the command is INIT. -/
theorem exists_decodeWord_eq_ok_iff :
    (∃ i, decodeWord w = .ok i) ↔
      (1 ≤ (cmdOp w).toNat ∧ (cmdOp w).toNat ≤ 7) ∧ cmdRsvd w = 0 ∧ (cmdArg w = 0 ∨ cmdOp w = 1) := by
  constructor
  · rintro ⟨i, h⟩
    obtain ⟨hrsvd, hop, harg, _⟩ := decodeWord_ok h
    rw [hrsvd, hop, harg]
    cases i <;> simp [opcode, argOf]
  · rintro ⟨⟨h1, h7⟩, hrsvd, harg⟩
    have bare : ∀ {n i}, (cmdOp w).toNat = n → n ≠ 1 → ∃ j, decodeBare w i = .ok j := fun hn h1 =>
      ⟨_, if_pos (harg.resolve_right fun hop => h1 (hn ▸ congrArg BitVec.toNat hop))⟩
    rw [decodeWord, if_pos hrsvd]
    split
    case h_1 => exact ⟨_, rfl⟩
    case h_8 => simp only [imp_false] at *; omega
    all_goals exact bare ‹_› (by decide)

/-- The low half of a word, by mask and as a number. -/
theorem and_mask_eq_one_iff : w &&& 0x0000FFFF#32 = 0x00000001#32 ↔ w.toNat % 2 ^ 16 = 1 := by
  rw [← BitVec.toNat_inj, BitVec.toNat_and]
  exact iff_of_eq (congrArg (· = 1) (Nat.and_two_pow_sub_one_eq_mod w.toNat 16))

/-- R134 by match and mask: INIT, with its capacity in ARG (R132). -/
theorem decodeWord_eq_init_iff :
    decodeWord w = .ok (.init cap) ↔ w &&& 0x0000FFFF#32 = 0x00000001#32 ∧ cap = (cmdArg w).toNat := by
  have hw := w.isLt
  rw [decodeWord_eq_ok_iff, ← BitVec.toNat_inj, encode_toNat, and_mask_eq_one_iff, cmdArg_toNat]
  simp only [argOf, opcode, WellFormed, BitVec.toNat_ofNat, decide_eq_true_eq]
  omega

end Sys2Proof

namespace Sys2Proof.Machine

open Sys2Proof Sys2Proof.Safety

variable {s : State} {q : Port} {i : Instr}

/-! ### START of a legal and of an illegal word -/

/-- A turn of a port that has latched a command is one of that command (40_command_execution.md R160). -/
theorem runTurn_eq_exec (hp : s.ports[s.turn.port]? = some q) (hd : decodeWord q.cw = .ok i) :
    runTurn s = exec i s := by
  rw [runTurn_eq hp, exec_eq hp, (decodeWord_ok hd).2.1, startWord, hd]

/-- START ends an illegal word with ILLEGAL_CMD (40_command_execution.md R163). -/
theorem runTurn_of_illegal (h : Running s q .start) (hill : ¬∃ i, decodeWord q.cw = .ok i) :
    runTurn s = .next (withRunning s (ended q 0x09#8)) := by
  obtain ⟨hp, hph⟩ := h
  rw [runTurn_eq hp, runPhase, hph, startWord]
  cases hd : decodeWord q.cw with
  | ok i => exact absurd ⟨i, hd⟩ hill
  | error r => exact congrArg Host.Outcome.next (complete_eq hp .illegalCmd)

/-- Settles O3: the legal words are the commands' encodings, and START runs the decoder on the latched word. -/
theorem legalWordsAreTheCommands : Obligations.LegalWordsAreTheCommands := by
  refine fun w => ⟨exists_decodeWord_eq_ok_iff, fun _ => decodeWord_eq_init_iff,
    decodeWord_eq_ok_iff_eq_encode rfl, decodeWord_eq_ok_iff_eq_encode rfl,
    decodeWord_eq_ok_iff_eq_encode rfl, decodeWord_eq_ok_iff_eq_encode rfl,
    decodeWord_eq_ok_iff_eq_encode rfl, decodeWord_eq_ok_iff_eq_encode rfl, ?_⟩
  rintro s q h rfl
  exact ⟨fun _ => runTurn_eq_exec h.1, fun hill => runTurn_of_illegal h (not_exists.mpr hill)⟩

/-- Settles O4: each way of being illegal breaks one condition of R134. -/
theorem illegalWordsEndWithIllegalCmd : Obligations.IllegalWordsEndWithIllegalCmd := by
  intro s q h hfields
  refine runTurn_of_illegal h fun hlegal => ?_
  obtain ⟨⟨h1, h7⟩, hrsvd, harg⟩ := exists_decodeWord_eq_ok_iff.mp hlegal
  obtain h0 | h8 | hr | ⟨ha, hop⟩ := hfields
  · exact absurd h0 (Nat.one_le_iff_ne_zero.mp h1)
  · exact absurd h7 (Nat.not_le.mpr h8)
  · exact hr hrsvd
  · exact harg.elim ha hop

/-- Settles O5: the decoder computes each row of R152. -/
theorem workedEncodingsDecode : Obligations.WorkedEncodingsDecode := by
  unfold Obligations.WorkedEncodingsDecode
  decide

end Sys2Proof.Machine
end

section
/-! The register map (30_encoding.md R142), what a write to each register does (R148, 40_command_execution.md R161,
R162), and the requester's `enq p, v` (30_encoding.md R151). -/

namespace Sys2Proof.Machine

open Sys2Proof Sys2Proof.Safety

variable {s : State} {p : Nat} {q q' : Port} {r : Reg} {w : Word}

/-! ### The register map -/

/-- R142, inside the 0x20 bytes of port `p`. -/
theorem ofPortOffset_eq_some {k : Nat} (h : Reg.ofPortOffset p k = some r) :
    r.offset = 0x100 + 0x20 * p + k ∧ regPort r = some p := by
  unfold Reg.ofPortOffset at h
  split at h <;> cases h <;> exact ⟨rfl, rfl⟩

/-- Settles O14: the decoding of an offset, read in both directions. -/
theorem registerMapIsExact : Obligations.RegisterMapIsExact := by
  intro n o r
  constructor
  · intro h
    unfold Reg.ofOffset at h
    split at h
    · split at h <;> cases h <;> exact ⟨rfl, nofun⟩
    · next hge =>
      split at h
      · next hlt =>
        obtain ⟨ho, hr⟩ := ofPortOffset_eq_some h
        refine ⟨by omega, fun p hp => ?_⟩
        have : p = (o - 0x100) / 0x20 := Option.some.inj (hp.symm.trans hr)
        omega
      · cases h
  · rintro ⟨rfl, hport⟩
    cases r with
    | qword | qcfg | qparam => rfl
    | cmd p | status p | dinHi p | dinLo p | doutHi p | doutLo p =>
      exact ofOffset_port (hport p rfl) (by decide)

/-- Every register is aligned (20_memory.md R81). -/
theorem offset_mod_four (r : Reg) : r.offset % 4 = 0 := by
  cases r <;> simp only [Reg.offset] <;> omega

/-! ### Writes -/

/-- A write of a mapped register is OK and does what the register's row says (30_encoding.md R148). -/
theorem busAccess_write {o : Nat} (ho : r.offset = o) (hr : ∀ p, regPort r = some p → p < s.ports.length) :
    busAccess ⟨s.blockBase + o, 4, .write w⟩ s = { writeReg r w s with resp := some .okWrite } := by
  have halign : o % 4 = 0 := ho ▸ offset_mod_four r
  have hmap : Reg.ofOffset s.ports.length o = some r := (registerMapIsExact ..).mpr ⟨ho, hr⟩
  simp [busAccess, Access.target, halign, hmap]

theorem lt_of_regPort (hp : s.ports[p]? = some q) (hr : regPort r = some p) :
    ∀ p', regPort r = some p' → p' < s.ports.length := by
  intro p' hp'
  obtain rfl : p = p' := Option.some.inj (hr.symm.trans hp')
  exact (List.getElem?_eq_some_iff.mp hp).1

/-- The state after a write by which the record of port `p` becomes `q`. -/
def wrotePort (s : State) (p : Nat) (q : Port) : State :=
  { s with ports := s.ports.set p q, resp := some .okWrite }

theorem get_wrotePort (hp : s.ports[p]? = some q) (q' : Port) : (wrotePort s p q').ports[p]? = some q' :=
  get_set_self hp q'

/-- Two writes of one port are one. -/
theorem wrotePort_wrotePort (s : State) (p : Nat) (q q' : Port) :
    wrotePort (wrotePort s p q) p q' = wrotePort s p q' := by
  simp [wrotePort]

/-- A write of a register of port `p` that changes the port's record. -/
theorem busAccess_write_port {o : Nat} (hp : s.ports[p]? = some q) (hr : regPort r = some p)
    (hw : writeReg r w s = putPort s p q') (ho : r.offset = o) :
    busAccess ⟨s.blockBase + o, 4, .write w⟩ s = wrotePort s p q' := by
  rw [busAccess_write ho (lt_of_regPort hp hr), hw]
  rfl

theorem writeReg_dinHi (hp : s.ports[p]? = some q) (w : Word) :
    writeReg (.dinHi p) w s = putPort s p { q with dinHi := w } :=
  updPort_eq_set hp _

theorem writeReg_dinLo (hp : s.ports[p]? = some q) (w : Word) :
    writeReg (.dinLo p) w s = putPort s p { q with dinLo := w } :=
  updPort_eq_set hp _

/-- 40_command_execution.md R161. -/
theorem writeReg_cmd_idle (hp : s.ports[p]? = some q) (hph : q.phase = .idle) (w : Word) :
    writeReg (.cmd p) w s = putPort s p
      { q with cw := w, din := q.dinItem, busy := true, ovr := false, phase := .start } := by
  simp only [writeReg, writeCmd, hp, hph, if_true, accept, updPort_eq_set hp]

/-- 40_command_execution.md R162. -/
theorem writeReg_cmd_busy (hp : s.ports[p]? = some q) (hph : q.phase ≠ .idle) (w : Word) :
    writeReg (.cmd p) w s = putPort s p { q with ovr := true } := by
  simp only [writeReg, writeCmd, hp, hph, if_false, updPort_eq_set hp]

/-- Settles O13: each offset is its register's, and the register's row says what the write does. -/
theorem writesFollowTheRegisterMap : Obligations.WritesFollowTheRegisterMap := by
  intro s w
  refine ⟨?_, fun p q hp => ⟨?_, ?_, ?_, fun hph => ?_, fun hph => ?_⟩⟩
  · rintro o (rfl | rfl | rfl)
    · exact busAccess_write (r := .qword) rfl nofun
    · exact busAccess_write (r := .qcfg) rfl nofun
    · exact busAccess_write (r := .qparam) rfl nofun
  · rintro k (rfl | rfl | rfl)
    · exact busAccess_write (r := .status p) (Nat.add_right_comm ..) (lt_of_regPort hp rfl)
    · exact busAccess_write (r := .doutHi p) (Nat.add_right_comm ..) (lt_of_regPort hp rfl)
    · exact busAccess_write (r := .doutLo p) (Nat.add_right_comm ..) (lt_of_regPort hp rfl)
  · exact busAccess_write_port hp rfl (writeReg_dinHi hp w) (Nat.add_right_comm ..)
  · exact busAccess_write_port hp rfl (writeReg_dinLo hp w) (Nat.add_right_comm ..)
  · exact busAccess_write_port hp rfl (writeReg_cmd_idle hp hph w) rfl
  · exact busAccess_write_port hp rfl (writeReg_cmd_busy hp hph w) rfl

/-! ### The requester's enqueue -/

/-- A requester's `wr` to a register of port `p` (30_encoding.md R150). -/
theorem Requester.step_wr {a : Requester} (h : a.prog[a.pc]? = some (.wr r w))
    (hp : s.ports[p]? = some q) (hr : regPort r = some p) (hw : writeReg r w s = putPort s p q') :
    a.step s = ({ a with pc := a.pc + 1 }, wrotePort s p q') := by
  simp only [Requester.step, h]
  exact congrArg _ (busAccess_write_port hp hr hw rfl)

/-- A `wr` after an earlier write of the same port. -/
theorem Requester.step_wr_wrotePort {a : Requester} {x : Port} (h : a.prog[a.pc]? = some (.wr r w))
    (hp : s.ports[p]? = some q) (hr : regPort r = some p)
    (hw : writeReg r w (wrotePort s p x) = putPort (wrotePort s p x) p q') :
    a.step (wrotePort s p x) = ({ a with pc := a.pc + 1 }, wrotePort s p q') := by
  rw [Requester.step_wr h (get_wrotePort hp x) hr hw, wrotePort_wrotePort]

/-- Settles O15: the three writes change one record in turn, and the halves latched make the item again. -/
theorem pushThenCommandLatchesTheItem : Obligations.PushThenCommandLatchesTheItem := by
  intro s p q v l regs hp hph a b c
  have hwrote : ∀ x, (wrotePort s p x).ports[p]? = some x := get_wrotePort hp
  have ha : a = (⟨regs, 1, (Pseudo.enq p v).expand l⟩, wrotePort s p { q with dinHi := itemHi v }) :=
    Requester.step_wr rfl hp rfl (writeReg_dinHi hp _)
  have hb : b = (⟨regs, 2, (Pseudo.enq p v).expand l⟩,
      wrotePort s p { q with dinHi := itemHi v, dinLo := itemLo v }) := by
    simp only [b, ha]
    exact Requester.step_wr_wrotePort rfl hp rfl (writeReg_dinLo (hwrote _) _)
  have hc : c = (⟨regs, 3, (Pseudo.enq p v).expand l⟩, wrotePort s p
      { q with dinHi := itemHi v, dinLo := itemLo v, din := itemHi v ++ itemLo v, cw := encode .enq,
               busy := true, ovr := false, phase := .start }) := by
    simp only [c, hb]
    refine Requester.step_wr_wrotePort rfl hp rfl (writeReg_cmd_idle (hwrote _) ?_ _)
    exact hph
  rw [hc, itemHi_append_itemLo]
  exact ⟨rfl, rfl, rfl⟩

end Sys2Proof.Machine
end

section
/-! What a step and a turn run (40_command_execution.md R160, 20_memory.md R97): the choice on the agenda, the latched
command, START with and without a queue (R164, R165), and the yields (R167). -/

namespace Sys2Proof.Machine

open Sys2Proof Sys2Proof.Safety

variable {s : State} {p : Nat} {q : Port} {i : Instr} {ph : Phase} {ev : Event} {rest : List Event}

/-! ### The next choice -/

/-- A listed choice is taken from the agenda and made (log 1). -/
theorem step_of_agenda (h : s.agenda = ev :: rest) : step s = runEvent ev { s with agenda := rest } := by
  simp only [step, nextEvent, h]

/-- A turn of an IDLE port changes nothing (log 3). -/
theorem runTurn_of_idle (hp : s.ports[s.turn.port]? = some q) (hph : q.phase = .idle) : runTurn s = .next s := by
  rw [runTurn_eq hp, runPhase, hph]

/-- Settles O7: the listed turn is run with the latched command, which START tests. -/
theorem stepRunsTheLatchedCommand : Obligations.StepRunsTheLatchedCommand := by
  intro s p b rest h
  have hstep : step s = runTurn { s with agenda := rest, turn := ⟨p, b⟩ } := step_of_agenda h
  refine ⟨hstep, fun q hp => ⟨fun i _ hd => ?_, fun hph hill => ?_⟩⟩
  · exact hstep.trans (runTurn_eq_exec hp hd)
  · exact hstep.trans (runTurn_of_illegal ⟨hp, hph⟩ (not_exists.mpr hill))

/-- Settles O8: the head of the agenda is made, or a free choice. -/
theorem stepMakesTheNextChoice : Obligations.StepMakesTheNextChoice := by
  refine ⟨fun s a rest h => step_of_agenda h, fun s p b rest h hidle => ?_, fun s h => ?_⟩
  · refine (step_of_agenda h).trans ?_
    cases hp : s.ports[p]? with
    | none => exact runTurn_none hp
    | some q => exact runTurn_of_idle hp (hidle q hp)
  · simp only [step, nextEvent, h]

/-! ### START and the yields -/

/-- START of a legal command. -/
theorem exec_of_start (h : Running s q .start) (i : Instr) : exec i s = .next (startOf i s.turn.port s) := by
  obtain ⟨hp, hph⟩ := h
  rw [exec_eq hp, runPhase, hph]

/-- START without a queue, of every command that needs one (40_command_execution.md R164). -/
theorem startOf_of_noQueue (hv : s.valid = false) (hi : ∀ cap, i ≠ .init cap) (p : Nat) :
    startOf i p s = complete p .nullObject s := by
  cases i with
  | init cap => exact absurd rfl (hi cap)
  | destroy => simp [startOf, destroyStart, hv]
  | enq | tryenq | deq | trydeq | peek => simp [startOf, startOnQueue, hv]

/-- Settles O18: START without a queue completes with NULL_OBJECT. -/
theorem noQueueEndsWithNullObject : Obligations.NoQueueEndsWithNullObject := by
  intro s q i h hv hi
  rw [exec_of_start h, startOf_of_noQueue hv hi, complete_eq h.1]
  rfl

/-- START on a queue, of every command that goes on (40_command_execution.md R165). -/
theorem startOf_of_queue (hp : s.ports[p]? = some q) (hv : s.valid = true) (hf : firstPhase i = some ph) :
    startOf i p s = putPort s p { q with phase := ph } := by
  cases i <;> cases hf <;> simp only [startOf, startOnQueue_eq hp, hv, if_true]

/-- Settles O19: START on a queue enters the command's first phase. -/
theorem startEntersTheFirstPhase : Obligations.StartEntersTheFirstPhase := by
  intro s q h hv
  have enters : ∀ {i ph}, firstPhase i = some ph → exec i s = .next (withRunning s { q with phase := ph }) :=
    fun hf => (exec_of_start h _).trans (congrArg _ (startOf_of_queue h.1 hv hf))
  exact ⟨enters rfl, enters rfl, enters rfl, enters rfl, enters rfl⟩

/-- Settles O25: each yield is a change of phase, whatever the command. -/
theorem yieldsChangeOnlyThePhase : Obligations.YieldsChangeOnlyThePhase := by
  refine ⟨?_, ?_, ?_⟩ <;> rintro s q i ⟨hp, hph⟩ - <;> rw [exec_eq hp, runPhase, hph] <;>
    exact congrArg _ (setPhase_eq hp _)

end Sys2Proof.Machine
end

section
/-! The end of commands in endless runs (40_command_execution.md R170): what one step of a run does to the record of one
port, the way of a command that never waits, and what FAIR-PORT, FINITE-SPURIOUS and FINITE-CONTENTION (log 12)
give for PEEK and TRYDEQ. -/

namespace Sys2Proof.Safety

open Sys2Proof Sys2Proof.Machine

variable {s t : State} {e : Nat → Event} {σ : Nat → State} {p r n m k : Nat} {q q' x : Port} {i : Instr}

/-! ### One step and the record of one port -/

/-- A micro-step leaves of every other port all but its reservation (60_exceptions.md R283). -/
theorem moves_get_other (hm : Moves s r x t) (hne : p ≠ r) (hp : s.ports[p]? = some q) :
    ∃ b, t.ports[p]? = some { q with res := b } := by
  cases hm with
  | still => exact ⟨q.res, hp⟩
  | created | destroyed | reservedSlot | committed | taken =>
    exact ⟨false, (get_set_ne _ hne).trans (get_map_clear hp)⟩
  | _ => exact ⟨q.res, (get_set_ne _ hne).trans hp⟩

/-- An access leaves the phase and the latched word of a port that is not IDLE. -/
theorem get_hostOnly (h : HostOnly s t) (hp : s.ports[p]? = some q) (hq : q.phase ≠ .idle) :
    ∃ q', t.ports[p]? = some q' ∧ q'.phase = q.phase ∧ q'.cw = q.cw := by
  have hlt : p < t.ports.length := h.count ▸ (List.getElem?_eq_some_iff.mp hp).1
  obtain ⟨y, hy, ha⟩ := h.ports (List.getElem?_eq_getElem hlt)
  obtain rfl : q = y := Option.some.inj (hp.symm.trans hy)
  refine ⟨_, List.getElem?_eq_getElem hlt, ?_⟩
  obtain ⟨_, _, he | ⟨hph, _, hcw, _⟩ | ⟨hidle, _⟩⟩ := ha
  · rw [he]; exact ⟨rfl, rfl⟩
  · exact ⟨hph, hcw⟩
  · exact absurd hidle hq

/-- A step of a run and a port that is not IDLE: reset, a micro-step of the port, or a step of another agent,
which leaves its phase and its latched word. -/
theorem IsRun.next_record (hrun : IsRun e σ) (hp : At σ n p q) (hq : q.phase ≠ .idle) :
    (e n = .reset ∧ ∃ q', At σ (n + 1) p q' ∧ q'.phase = .idle) ∨
    (∃ b, e n = .port p b ∧ Moves (takeTurn p b (σ n)) p q (σ (n + 1))) ∨
    (e n ≠ .reset ∧ ¬TurnOf e n p ∧ ∃ q', At σ (n + 1) p q' ∧ q'.phase = q.phase ∧ q'.cw = q.cw) := by
  have hother : ∀ {r b}, e n = .port r b → p ≠ r → e n ≠ .reset ∧ ¬TurnOf e n p := fun he hne =>
    ⟨by simp [he], fun ⟨_, ht⟩ => hne (by cases he.symm.trans ht; rfl)⟩
  obtain ⟨a, he, ht⟩ | ⟨he, ht⟩ | ⟨r, b, he, hr, ht⟩ | ⟨r, b, x, he, hr, hm⟩ := runEvent_next (hrun n)
  · refine .inr (.inr ⟨by simp [he], by simp [TurnOf, he], ?_⟩)
    simp only [At, ht]
    exact get_hostOnly (hostOnly_busAccess a (σ n)) hp hq
  · refine .inl ⟨he, Port.reset, ?_, rfl⟩
    have hlt := (List.getElem?_eq_some_iff.mp hp).1
    simp [At, ht, resetBlock, State.resetWith, hlt]
  · have hne : p ≠ r := by rintro rfl; cases hp.symm.trans hr
    obtain ⟨hreset, hturn⟩ := hother he hne
    exact .inr (.inr ⟨hreset, hturn, q, by rw [At, ht]; exact hp, rfl, rfl⟩)
  · by_cases hne : p = r
    · subst hne
      obtain rfl : q = x := Option.some.inj (hp.symm.trans hr)
      exact .inr (.inl ⟨b, he, hm⟩)
    · obtain ⟨hreset, hturn⟩ := hother he hne
      obtain ⟨b', hq'⟩ := moves_get_other (s := takeTurn r b (σ n)) hm hne hp
      exact .inr (.inr ⟨hreset, hturn, _, hq', rfl, rfl⟩)

/-! ### Commands that never wait -/

/-- The phase PEEK or TRYDEQ goes to from a phase of its own, unless it ends there (43_dequeue.md R240, R247; 44_peek.md
R260). -/
def onward (i : Instr) (ph : Phase) : Option Phase :=
  match ph with
  | .start => firstPhase i
  | .pRdw => some .pRead
  | .dLL => some .dRead
  | .dRead => some .dSC
  | .dSC | .dYield => some .dLL
  | .idle | .e1LL | .e1SC | .e1Yield | .eWrite | .e2LL | .e2SC | .e2Yield | .pRead => none

/-- The port runs the command `i`, PEEK or TRYDEQ, and has not ended it. -/
structure Runs (i : Instr) (q : Port) : Prop where
  command : decodeWord q.cw = .ok i
  noWait : i = .peek ∨ i = .trydeq
  phase : q.phase = .start ∨ ownPhase i q.phase = true

theorem Runs.not_idle (h : Runs i q) : q.phase ≠ .idle := by
  intro hi
  obtain ⟨_, rfl | rfl, hph⟩ := h <;> simp [hi, ownPhase] at hph

/-- Such a command has no phase of the enqueue (42_enqueue.md R210). -/
theorem Runs.not_enqueue (h : Runs i q) : entryPhase q.phase ≠ .e1LL := by
  obtain ⟨_, hi, hph | hown⟩ := h
  · simp [hph, entryPhase]
  · rw [ownPhase_iff] at hown
    intro he
    obtain rfl | rfl := hi <;> simp [he, firstPhase] at hown

/-- At D_LL the command is TRYDEQ. -/
theorem Runs.trydeq_of_dLL (h : Runs i q) (hph : q.phase = .dLL) : cmdOp q.cw = 0x6#4 := by
  obtain ⟨hd, hi, hown⟩ := h
  obtain rfl | rfl := hi
  · simp [hph, ownPhase] at hown
  · exact (decodeWord_ok hd).2.1

/-- A micro-step of a command that never waits ends it or goes onward. -/
theorem moves_onward (hp : s.ports[p]? = some q) (hm : Moves s p q t) (h : Runs i q) :
    ∃ q', t.ports[p]? = some q' ∧ q'.cw = q.cw ∧ (q'.phase = .idle ∨ onward i q.phase = some q'.phase) := by
  have henq := h.not_enqueue
  cases hm with
  | still hph => exact absurd hph h.not_idle
  | startFailed | retry | noData | peeked => exact ⟨_, get_set_self hp _, rfl, .inl rfl⟩
  | created | destroyed | committed | taken => exact ⟨_, get_afterStore hp, rfl, .inl rfl⟩
  | started hph j ph hj _ hf =>
    obtain rfl : i = j := Except.ok.inj (h.command.symm.trans hj)
    exact ⟨_, get_set_self hp _, rfl, .inr (by rw [hph]; exact hf)⟩
  | taking hph | itemRead _ hph | peeking hph =>
    exact ⟨_, get_set_self hp _, rfl, .inr (by rw [hph]; rfl)⟩
  | lost ph hph | yielded ph hph =>
    obtain ⟨hph, rfl⟩ | ⟨hph, rfl⟩ | ⟨hph, rfl⟩ := hph
    · exact absurd (by rw [hph]; rfl) henq
    · exact absurd (by rw [hph]; rfl) henq
    · exact ⟨_, get_set_self hp _, rfl, .inr (by rw [hph]; rfl)⟩
  | waiting ph hph hop =>
    obtain ⟨hph, _⟩ | ⟨hph, _⟩ | ⟨hph, _⟩ := hph
    · exact absurd (by rw [hph]; rfl) henq
    · exact absurd (by rw [hph]; rfl) henq
    · exact absurd (h.trydeq_of_dLL hph) (hop.2 hph)
  | reserving hph | wrote hph | committing hph | reservedSlot hph => exact absurd (by rw [hph]; rfl) henq

/-- Past START, going onward stays behind the entry phase. -/
theorem entryPhase_onward {ph ph' : Phase} (hs : ph ≠ .start) (h : onward i ph = some ph') :
    entryPhase ph' = entryPhase ph := by
  unfold onward at h
  split at h
  case h_1 => exact absurd rfl hs
  all_goals cases h <;> rfl

theorem Runs.own_of_onward {ph : Phase} (h : Runs i q) (hon : onward i q.phase = some ph) :
    ownPhase i ph = true := by
  rw [ownPhase_iff]
  by_cases hs : q.phase = .start
  · rw [hs] at hon
    rwa [entryPhase_of_firstPhase hon]
  · rw [entryPhase_onward hs hon, ← ownPhase_iff]
    exact h.phase.resolve_left hs

theorem Runs.onward (h : Runs i q) (hcw : q'.cw = q.cw) (hon : onward i q.phase = some q'.phase) : Runs i q' :=
  ⟨hcw ▸ h.command, h.noWait, .inr (h.own_of_onward hon)⟩

theorem Runs.stays (h : Runs i q) (hcw : q'.cw = q.cw) (hph : q'.phase = q.phase) : Runs i q' :=
  ⟨hcw ▸ h.command, h.noWait, hph ▸ h.phase⟩

/-! ### A command that never ends -/

/-- From time `n` on port `p` is never IDLE. -/
def NeverIdle (σ : Nat → State) (n p : Nat) : Prop := ∀ m q, n ≤ m → At σ m p q → q.phase ≠ .idle

theorem not_endsAfter_iff : ¬EndsAfter σ n p ↔ NeverIdle σ n p := by
  simp only [EndsAfter, NeverIdle]
  push Not
  rfl

theorem NeverIdle.mono (h : NeverIdle σ n p) (hm : n ≤ m) : NeverIdle σ m p :=
  fun k q hk => h k q (hm.trans hk)

section

variable (hrun : IsRun e σ) (hbusy : NeverIdle σ n p) (hp : At σ n p q) (hq : Runs i q)
include hrun hbusy hp hq

/-- A port that never ends PEEK or TRYDEQ keeps its word, and keeps its phase or goes onward at a turn of its own. -/
theorem IsRun.next_of_neverIdle : ∃ q', At σ (n + 1) p q' ∧ q'.cw = q.cw ∧
    (¬TurnOf e n p ∧ q'.phase = q.phase ∨ TurnOf e n p ∧ onward i q.phase = some q'.phase) := by
  obtain ⟨_, q', hp', hidle⟩ | ⟨b, he, hm⟩ | ⟨_, hturn, q', hp', hph, hcw⟩ := hrun.next_record hp hq.not_idle
  · exact absurd hidle (hbusy _ _ n.le_succ hp')
  · obtain ⟨q', hp', hcw, hidle | hon⟩ := moves_onward (s := takeTurn p b (σ n)) hp hm hq
    · exact absurd hidle (hbusy _ _ n.le_succ hp')
    · exact ⟨q', hp', hcw, .inr ⟨⟨b, he⟩, hon⟩⟩
  · exact ⟨q', hp', hcw, .inl ⟨hturn, hph⟩⟩

/-- Its next turn comes, and finds it at the phase at which it stands. -/
theorem IsRun.next_turn (hfair : FairPort e σ) :
    ∃ m q', n ≤ m ∧ TurnOf e m p ∧ At σ m p q' ∧ Runs i q' ∧ q'.phase = q.phase := by
  obtain ⟨m, hm, hturn⟩ := hfair p n q hp hq.not_idle
  induction hm using Nat.decreasingInduction generalizing q with
  | self => exact ⟨m, q, le_rfl, hturn, hp, hq, rfl⟩
  | of_succ n hnm ih =>
    obtain ⟨q₁, hp₁, hcw, ⟨_, hph⟩ | ⟨hnow, _⟩⟩ := hrun.next_of_neverIdle hbusy hp hq
    · obtain ⟨m', q', hm', hrest⟩ := ih (hbusy.mono n.le_succ) hp₁ (hq.stays hcw hph)
      exact ⟨m', q', by omega, hph ▸ hrest⟩
    · exact ⟨n, q, le_rfl, hnow, hp, hq, rfl⟩

theorem IsRun.goes_onward (hfair : FairPort e σ) :
    ∃ m q', n ≤ m ∧ At σ m p q' ∧ Runs i q' ∧ onward i q.phase = some q'.phase := by
  obtain ⟨m, q₀, hm, hturn, hp₀, hq₀, hph⟩ := hrun.next_turn hbusy hp hq hfair
  obtain ⟨q', hp', hcw, ⟨hno, _⟩ | ⟨_, hon⟩⟩ := hrun.next_of_neverIdle (hbusy.mono hm) hp₀ hq₀
  · exact absurd hturn hno
  · exact ⟨m + 1, q', by omega, hp', hq₀.onward hcw hon, hph ▸ hon⟩

end

/-- Past START, a port that never ends PEEK or TRYDEQ stays at the phases of its command. -/
theorem IsRun.stays_own (hrun : IsRun e σ) (hbusy : NeverIdle σ n p) (hp : At σ n p q) (hq : Runs i q)
    (hown : ownPhase i q.phase = true) (hk : n ≤ k) :
    ∃ q', At σ k p q' ∧ Runs i q' ∧ ownPhase i q'.phase = true := by
  induction k, hk using Nat.le_induction with
  | base => exact ⟨q, hp, hq, hown⟩
  | succ k hk ih =>
    obtain ⟨q₁, hp₁, hq₁, hown₁⟩ := ih
    obtain ⟨q₂, hp₂, hcw, ⟨_, hph⟩ | ⟨_, hon⟩⟩ := hrun.next_of_neverIdle (hbusy.mono hk) hp₁ hq₁
    · exact ⟨q₂, hp₂, hq₁.stays hcw hph, hph ▸ hown₁⟩
    · exact ⟨q₂, hp₂, hq₁.onward hcw hon, hq₁.own_of_onward hon⟩

/-! ### PEEK -/

/-- Settles O56: each turn of PEEK goes onward, and nothing is onward of P_READ. -/
theorem peekEndsIfPortsAreFair : Obligations.PeekEndsIfPortsAreFair := by
  intro e σ p n q hrun hfair hp hstart hd
  by_contra hends
  have hbusy := not_endsAfter_iff.mp hends
  obtain ⟨m₁, q₁, hm₁, hp₁, hq₁, hon₁⟩ := hrun.goes_onward hbusy hp ⟨hd, .inl rfl, .inl hstart⟩ hfair
  obtain ⟨m₂, q₂, hm₂, hp₂, hq₂, hon₂⟩ := hrun.goes_onward (hbusy.mono hm₁) hp₁ hq₁ hfair
  obtain ⟨_, _, _, _, _, hon₃⟩ := hrun.goes_onward (hbusy.mono (hm₁.trans hm₂)) hp₂ hq₂ hfair
  rw [hstart] at hon₁
  rw [← Option.some.inj hon₁] at hon₂
  rw [← Option.some.inj hon₂] at hon₃
  cases hon₃

/-! ### TRYDEQ -/

/-- A port that never ends TRYDEQ enters its loop and stays there. -/
theorem IsRun.trydeq_enters (hrun : IsRun e σ) (hfair : FairPort e σ) (hbusy : NeverIdle σ n p)
    (hp : At σ n p q) (hph : q.phase = .start) (hd : decodeWord q.cw = .ok .trydeq) :
    ∃ m, n ≤ m ∧ ¬InLoop σ p .dequeue m ∧
      ∀ k, m < k → ∃ q', At σ k p q' ∧ Runs .trydeq q' ∧ ownPhase .trydeq q'.phase = true := by
  obtain ⟨m, q₀, hm, hturn, hp₀, hq₀, hph₀⟩ := hrun.next_turn hbusy hp ⟨hd, .inr rfl, .inl hph⟩ hfair
  refine ⟨m, hm, ?_, fun k hk => ?_⟩
  · rintro ⟨x, hx, hloop⟩
    obtain rfl : q₀ = x := Option.some.inj (hp₀.symm.trans hx)
    simp [hph₀, hph, loopOf] at hloop
  · obtain ⟨q₁, hp₁, hcw, ⟨hno, _⟩ | ⟨_, hon⟩⟩ := hrun.next_of_neverIdle (hbusy.mono hm) hp₀ hq₀
    · exact absurd hturn hno
    · exact hrun.stays_own (hbusy.mono (by omega)) hp₁ (hq₀.onward hcw hon) (hq₀.own_of_onward hon) hk

theorem ownPhase_trydeq_iff {ph : Phase} : ownPhase .trydeq ph = true ↔ loopOf ph = some .dequeue := by
  cases ph <;> decide

/-- The only store-conditional of TRYDEQ is D_SC (43_dequeue.md R244). -/
theorem storePhase_trydeq_iff {ph : Phase} (h : ownPhase .trydeq ph = true) :
    storePhase ph = true ↔ ph = .dSC := by
  revert h
  cases ph <;> decide

/-- How many turns of TRYDEQ stand before its next D_SC. -/
def turnsToStore (ph : Phase) : Nat :=
  match ph with
  | .dYield => 3
  | .dLL => 2
  | .dRead => 1
  | _ => 0

theorem turnsToStore_eq_zero {ph : Phase} (h : ownPhase .trydeq ph = true) :
    turnsToStore ph = 0 → ph = .dSC := by
  revert h
  cases ph <;> decide

theorem turnsToStore_onward {ph ph' : Phase} {d : Nat} (h : turnsToStore ph = d + 1)
    (hon : onward .trydeq ph = some ph') : turnsToStore ph' = d := by
  cases ph <;> cases h <;> cases hon <;> rfl

/-- A port in the loop of TRYDEQ that never ends makes a store-conditional. -/
theorem IsRun.trydeq_attempts (hrun : IsRun e σ) (hfair : FairPort e σ) (hbusy : NeverIdle σ n p)
    (hp : At σ n p q) (hq : Runs .trydeq q) (hown : ownPhase .trydeq q.phase = true) :
    ∃ m q', n ≤ m ∧ StoreAttempt e σ p m q' := by
  induction hd : turnsToStore q.phase generalizing n q with
  | zero =>
    obtain ⟨m, q', hm, hturn, hp', _, hph⟩ := hrun.next_turn hbusy hp hq hfair
    exact ⟨m, q', hm, hp', by rw [hph, turnsToStore_eq_zero hown hd]; rfl, hturn⟩
  | succ d ih =>
    obtain ⟨m, q', hm, hp', hq', hon⟩ := hrun.goes_onward hbusy hp hq hfair
    obtain ⟨k, x, hk, hx⟩ := ih (hbusy.mono hm) hp' hq' (hq.own_of_onward hon) (turnsToStore_onward hd hon)
    exact ⟨k, x, hm.trans hk, hx⟩

/-- A D_SC with its reservation and without a spurious failure ends the command (43_dequeue.md R244). -/
theorem IsRun.ends_of_held (hrun : IsRun e σ) (hp : At σ m p q) (hph : q.phase = .dSC) (hr : q.res = true)
    (he : e m = .port p false) : EndsAfter σ m p := by
  have hturn : runEvent (e m) (σ m) = .next (dSC p q (takeTurn p false (σ m))) := by
    rw [he]
    exact (runTurn_eq (s := takeTurn p false (σ m)) hp).trans (by rw [runPhase, hph]; rfl)
  have hnext := Host.Outcome.next.inj ((hrun m).symm.trans hturn)
  rw [dSC_stored (s := takeTurn p false (σ m)) hp hr rfl] at hnext
  have hport := congrArg (fun s : State => s.ports[p]?) hnext
  exact ⟨m + 1, _, m.le_succ, hport.trans (get_afterStore hp), rfl⟩

/-- So an attempt of a TRYDEQ that never ends has lost its reservation or draws `spurious`. -/
theorem IsRun.lost_or_spurious (hrun : IsRun e σ) (hbusy : NeverIdle σ m p)
    (hown : ∃ q', At σ m p q' ∧ Runs .trydeq q' ∧ ownPhase .trydeq q'.phase = true)
    (h : StoreAttempt e σ p m q) : q.res = false ∨ e m = .port p true := by
  obtain ⟨hp, hstore, b, he⟩ := h
  obtain ⟨q', hp', _, hown⟩ := hown
  obtain rfl : q = q' := Option.some.inj (hp.symm.trans hp')
  have hph : q.phase = .dSC := (storePhase_trydeq_iff hown).mp hstore
  cases b with
  | true => exact .inr he
  | false =>
    refine .inl (Bool.eq_false_iff.mpr fun hr => ?_)
    exact not_endsAfter_iff.mpr hbusy (hrun.ends_of_held hp hph hr he)

/-- Settles O57: TRYDEQ that never ends makes attempts for ever, and after the last spurious draw each has lost its
reservation. -/
theorem trydeqEndsOrIsContendedForEver : Obligations.TrydeqEndsOrIsContendedForEver := by
  intro e σ p n q hrun hfair hspurious hp hph hd
  refine or_iff_not_imp_left.mpr fun hends => ?_
  have hbusy := not_endsAfter_iff.mp hends
  obtain ⟨m, hm, _, hloop⟩ := hrun.trydeq_enters hfair hbusy hp hph hd
  obtain ⟨f, hf⟩ := hspurious p
  refine ⟨fun k => ?_, max (m + 1) f, fun k x hk hx => ?_⟩
  · obtain ⟨q', hp', hq', hown⟩ := hloop (max (m + 1) k) (by omega)
    obtain ⟨j, x, hj, hx⟩ := hrun.trydeq_attempts hfair (hbusy.mono (by omega)) hp' hq' hown
    exact ⟨j, x, by omega, hx⟩
  · obtain hlost | he := hrun.lost_or_spurious (hbusy.mono (by omega)) (hloop k (by omega)) hx
    · exact hlost
    · obtain ⟨hpx, hstore, _⟩ := hx
      exact absurd he (hf k x (by omega) hpx hstore)

/-- Settles O58: the loop that TRYDEQ enters makes an attempt, so one with its reservation, which must be
spurious if the command never ends. -/
theorem trydeqEndsOrFailsSpuriously : Obligations.TrydeqEndsOrFailsSpuriously := by
  intro e σ p n q hrun hfair hcontention hp hph hd
  refine or_iff_not_imp_left.mpr fun hends => ?_
  have hbusy := not_endsAfter_iff.mp hends
  obtain ⟨m, hm, hout, hloop⟩ := hrun.trydeq_enters hfair hbusy hp hph hd
  have hin : ∀ k, m < k → InLoop σ p .dequeue k := fun k hk =>
    let ⟨q', hp', _, hown⟩ := hloop k hk
    ⟨q', hp', ownPhase_trydeq_iff.mp hown⟩
  have hattempt : ∃ k x, AttemptOfLoop e σ p .dequeue m k x := by
    obtain ⟨q', hp', hq', hown⟩ := hloop (m + 1) m.lt_succ_self
    obtain ⟨k, x, hk, hx⟩ := hrun.trydeq_attempts hfair (hbusy.mono (by omega)) hp' hq' hown
    exact ⟨k, x, hk, fun j hj _ => hin j hj, hx⟩
  obtain ⟨k, x, ⟨hk, _, hx⟩, hr⟩ := hcontention p .dequeue m hout hattempt
  refine ⟨k, x, by omega, hx, hr, ?_⟩
  obtain hlost | he := hrun.lost_or_spurious (hbusy.mono (by omega)) (hloop k hk) hx
  · simp [hr] at hlost
  · exact he

end Sys2Proof.Safety
end

section
/-! ENQ waits while the queue is full or another enqueue is in its window, and DEQ while rc = 0
(40_command_execution.md R170, last paragraph): a blocked micro-step stays in the loop, and so does every run. -/

namespace Sys2Proof.Safety

open Sys2Proof Sys2Proof.Machine

variable {s t : State} {e : Nat → Event} {ev : Event} {σ : Nat → State} {p n m k : Nat} {q : Port} {i : Instr}
  {l : Loop}

/-! ### The conditions that block -/

/-- The commands that wait, with the loop in which they wait (42_enqueue.md R210, 43_dequeue.md R240). -/
inductive WaitsIn : Instr → Loop → Prop
  | enq : WaitsIn .enq .reserve
  | deq : WaitsIn .deq .dequeue

/-- The condition under which port `p` does not leave a loop (42_enqueue.md R213, 43_dequeue.md R242). -/
def Blocked (l : Loop) (s : State) (p : Nat) : Prop :=
  match l with
  | .reserve => FullOrInWindow s p
  | .dequeue => Qword.rc s.qword = 0
  | .commit => False

/-- A full queue, or a port in the window, fails the test of phase 1 (42_enqueue.md R213). -/
theorem FullOrInWindow.phase1Cond_eq_false (h : FullOrInWindow s p) (hf : FieldsOk s) (hw : WindowOk s) :
    phase1Cond s.cap s.qword = false := by
  rw [← Bool.not_eq_true, phase1Cond_iff]
  rintro ⟨hlt, heq⟩
  obtain hfull | ⟨r, x, _, hx, hwin⟩ := h
  · omega
  · have hgap := hw.gap hf (List.mem_of_getElem? hx) hwin
    rw [heq] at hgap
    omega

theorem deqCond_eq_false (h : Qword.rc s.qword = 0) : deqCond s.qword = false := by
  simp [deqCond, h]

/-! ### A blocked micro-step -/

/-- Only the record `q` of the port whose turn it is has changed: the port is in loop `l` now, with its command. -/
def StaysIn (l : Loop) (s : State) (q : Port) (t : State) : Prop :=
  ∃ q', t = putPort s s.turn.port q' ∧ q'.cw = q.cw ∧ loopOf q'.phase = some l

theorem QueueInv.pastStart_of_loop (h : QueueInv s) (hq : q ∈ s.ports) (hl : loopOf q.phase = some l) :
    s.valid = true ∧ FieldsOk s ∧ WindowOk s ∧ ∀ x ∈ s.ports, LatchOk s x :=
  h.pastStart hq (fun e => by simp [e, loopOf] at hl) (fun e => by simp [e, loopOf] at hl)

/-- START of a command that waits enters its loop (40_command_execution.md R165). -/
theorem start_waits (hp : s.ports[s.turn.port]? = some q) (hw : WaitsIn i l)
    (hd : decodeWord q.cw = .ok i) (hph : q.phase = .start) (hv : s.valid = true) (ht : runTurn s = .next t) :
    StaysIn l s q t := by
  rw [runTurn_eq_exec hp hd, exec_of_start ⟨hp, hph⟩] at ht
  cases ht
  cases hw <;> exact ⟨_, startOf_of_queue hp hv rfl, rfl, rfl⟩

section

variable (hQ : QueueInv s) (hp : s.ports[s.turn.port]? = some q)
include hQ hp

/-- Each micro-step of the first loop of a blocked ENQ stays in it (42_enqueue.md R212, R215, R221). -/
theorem reserve_waits (hd : decodeWord q.cw = .ok .enq) (hl : loopOf q.phase = some .reserve)
    (hB : FullOrInWindow s s.turn.port) (ht : runTurn s = .next t) :
    StaysIn .reserve s q t := by
  have hq := List.mem_of_getElem? hp
  obtain ⟨_, hf, hw, hlatch⟩ := hQ.pastStart_of_loop hq hl
  have hcond := hB.phase1Cond_eq_false hf hw
  rw [runTurn_eq_exec hp hd, exec_eq hp] at ht
  cases hph : q.phase <;> simp [hph, loopOf] at hl <;> simp only [hph, runPhase] at ht <;> cases ht
  case e1LL => exact ⟨_, e1LL_eq hp _, by simp [hcond, opcode], by simp [hcond, opcode, loopOf]⟩
  case e1SC =>
    have hres : ¬(q.res = true ∧ s.turn.spurious = false) := fun ⟨hr, _⟩ => by
      simpa [hcond] using ((hlatch q hq).phase1 hph hr).1
    exact ⟨_, e1SC_failed hp hres, rfl, rfl⟩
  case e1Yield => exact ⟨_, setPhase_eq hp _, rfl, rfl⟩

/-- Each micro-step of the loop of a blocked DEQ stays in it (43_dequeue.md R241, R244 to R246). -/
theorem dequeue_waits (hd : decodeWord q.cw = .ok .deq) (hl : loopOf q.phase = some .dequeue)
    (hB : Qword.rc s.qword = 0) (ht : runTurn s = .next t) :
    StaysIn .dequeue s q t := by
  have hq := List.mem_of_getElem? hp
  obtain ⟨_, _, _, hlatch⟩ := hQ.pastStart_of_loop hq hl
  have hcond := deqCond_eq_false hB
  rw [runTurn_eq_exec hp hd, exec_eq hp] at ht
  cases hph : q.phase <;> simp [hph, loopOf] at hl <;> simp only [hph, runPhase] at ht
  case dLL =>
    cases ht
    exact ⟨_, dLL_eq hp _, by simp [hcond, opcode], by simp [hcond, opcode, loopOf]⟩
  case dRead =>
    obtain ⟨_, d, _, rfl⟩ := slotRead_next ht
    exact ⟨_, dRead_rest hp d, rfl, rfl⟩
  case dSC =>
    cases ht
    have hres : ¬(q.res = true ∧ s.turn.spurious = false) := fun ⟨hr, _⟩ => by
      simpa [hcond] using ((hlatch q hq).dequeue (.inr hph) hr).1
    exact ⟨_, dSC_failed hp hres, rfl, rfl⟩
  case dYield =>
    cases ht
    exact ⟨_, setPhase_eq hp _, rfl, rfl⟩

/-- A turn of a blocked port that waits leaves it in its loop. -/
theorem runTurn_waits (hw : WaitsIn i l) (hd : decodeWord q.cw = .ok i) (hs : StartsOrIn s l q)
    (hB : Blocked l s s.turn.port) (ht : runTurn s = .next t) :
    StaysIn l s q t := by
  obtain ⟨hph, hv⟩ | hl := hs
  · exact start_waits hp hw hd hph hv ht
  · cases hw with
    | enq => exact reserve_waits hQ hp hd hl hB ht
    | deq => exact dequeue_waits hQ hp hd hl hB ht

end

/-! ### Every run -/

theorem runEvent_blockInv (h : BlockInv s) (ht : runEvent ev s = .next t) : BlockInv t :=
  stepKeepsTheInvariants { s with agenda := ev :: s.agenda } t h ht

theorem IsRun.blockInv (hrun : IsRun e σ) (h : BlockInv (σ n)) (hm : n ≤ m) : BlockInv (σ m) := by
  induction m, hm using Nat.le_induction with
  | base => exact h
  | succ m _ ih => exact runEvent_blockInv ih (hrun m)

theorem StartsOrIn.not_idle (h : StartsOrIn s l q) : q.phase ≠ .idle := by
  intro hi
  obtain ⟨hph, _⟩ | hl := h
  · simp [hi] at hph
  · simp [hi, loopOf] at hl

/-- While a port is not IDLE, VALID is cleared by nothing but reset and its own micro-step (10_state.md R36,
41_lifecycle.md R197). -/
theorem valid_of_busy (ht : runEvent ev s = .next t) (hreset : ev ≠ .reset) (hturn : ∀ b, ev ≠ .port p b)
    (hp : s.ports[p]? = some q) (hq : q.phase ≠ .idle) : t.valid = s.valid := by
  by_contra hv
  obtain ⟨he, _⟩ | ⟨r, b, x, he, _, _, halone, _⟩ := onlyLifecycleWritesTheConfiguration ev s t ht (.inl hv)
  · exact hreset he
  · have hne : p ≠ r := by rintro rfl; exact hturn b he
    exact hq (halone p q hne hp)

/-- One step of a run, without a reset, and a blocked port that waits. -/
theorem IsRun.next_waits (hrun : IsRun e σ) (hI : BlockInv (σ n)) (hp : At σ n p q) (hreset : e n ≠ .reset)
    (hw : WaitsIn i l) (hd : decodeWord q.cw = .ok i) (hs : StartsOrIn (σ n) l q) (hB : Blocked l (σ n) p) :
    ∃ q', At σ (n + 1) p q' ∧ q'.cw = q.cw ∧ StartsOrIn (σ (n + 1)) l q' := by
  obtain ⟨_, _, _, _, hQ, _⟩ := hI
  obtain ⟨he, _⟩ | ⟨b, he, _⟩ | ⟨_, hturn, q', hp', hph, hcw⟩ := hrun.next_record hp hs.not_idle
  · exact absurd he hreset
  · have ht := hrun n
    rw [he] at ht
    have hB' : Blocked l (takeTurn p b (σ n)) p := by cases hw <;> exact hB
    obtain ⟨q', hnext, hcw, hl⟩ := runTurn_waits (s := takeTurn p b (σ n))
      ((hostOnly_takeTurn p b (σ n)).queueInv hQ) hp hw hd hs hB' ht
    exact ⟨q', by rw [At, hnext]; exact get_set_self hp q', hcw, .inr hl⟩
  · refine ⟨q', hp', hcw, hs.imp (fun ⟨hstart, hv⟩ => ⟨hph ▸ hstart, ?_⟩) (fun hl => hph ▸ hl)⟩
    exact (valid_of_busy (hrun n) hreset (fun b he => hturn ⟨b, he⟩) hp hs.not_idle).trans hv

/-- A port that waits stays so for as long as it is blocked. -/
theorem IsRun.waits (hrun : IsRun e σ) (hI : BlockInv (σ n)) (hp : At σ n p q) (hk : n ≤ k)
    (hreset : ∀ m, n ≤ m → m < k → e m ≠ .reset) (hw : WaitsIn i l) (hd : decodeWord q.cw = .ok i)
    (hs : StartsOrIn (σ n) l q) (hB : ∀ m, n ≤ m → m < k → Blocked l (σ m) p) :
    ∃ q', At σ k p q' ∧ q'.cw = q.cw ∧ StartsOrIn (σ k) l q' := by
  induction k, hk using Nat.le_induction with
  | base => exact ⟨q, hp, rfl, hs⟩
  | succ k hk ih =>
    obtain ⟨x, hx, hcw, hsx⟩ := ih (fun m hm hlt => hreset m hm (by omega)) (fun m hm hlt => hB m hm (by omega))
    obtain ⟨q', hp', hcw', hs'⟩ := hrun.next_waits (hrun.blockInv hI hk) hx (hreset k hk k.lt_succ_self) hw
      (hcw ▸ hd) hsx (hB k hk k.lt_succ_self)
    exact ⟨q', hp', hcw'.trans hcw, hs'⟩

/-- Settles O60: a blocked micro-step stays in the loop, and no other step touches the port's phase or word. -/
theorem enqAndDeqWait : Obligations.EnqAndDeqWait := by
  intro e σ p n k q hrun hI hp hk hreset
  exact ⟨hrun.waits hI hp hk hreset .enq, hrun.waits hI hp hk hreset .deq⟩

end Sys2Proof.Safety
end

section
/-! A fair endless run in which TRYDEQ never ends (20_memory.md R101, 40_command_execution.md R170): its one attempt with
the reservation is spurious, and every later one comes after a store of another port. The run enters a cycle of
choices, so that what is said of all its times is checked at 20 places. -/

namespace Sys2Proof.Contest

open Sys2Proof Sys2Proof.Machine Sys2Proof.Safety

/-! ### The run -/

/-- One committed item in a queue of 1, and the same queue with its slot reserved but not committed. -/
def fullWord : Word := 0x01000100#32
def reservedWord : Word := 0x01000000#32

/-- Port 0, with the word of TRYDEQ. -/
def trier (ph : Phase) (res : Bool) : Port :=
  { Port.reset with busy := true, phase := ph, cw := 0x00000006#32, v := fullWord, d := 7, res := res }

/-- Port 1, which runs DEQ and ENQ in turn and so always holds the item 7. -/
def rival (cw : Word) (ph : Phase) (v vn : Word) (res : Bool) : Port :=
  { Port.reset with busy := decide (ph ≠ .idle), dinLo := 7, doutLo := 7, phase := ph, cw := cw, din := 7,
                    v := v, vn := vn, d := 7, res := res }

/-- The two ports on a queue of 1. -/
def duel (qword : Word) (turn : Turn) (a b : Port) : State :=
  { State.reset with qword := qword, valid := true, cap := 1, slots := [(0, 7)], ports := [a, b], turn := turn,
                     resp := some .okWrite }

/-- A requester's write of a command word to P[1].CMD. -/
def writeCommand (cw : Word) : Event := .access ⟨0x120, 4, .write cw⟩

/-- The states of the run with the choice made in each. Places 0 to 4: the first attempt of TRYDEQ is spurious and it
reserves again. Places 5 to 19, a cycle: DEQ and ENQ of port 1 take the item and put it back, so that the attempt of
TRYDEQ fails, and it reserves again. -/
def places : List (State × Event) :=
  let t0 : Turn := ⟨0, false⟩
  let t1 : Turn := ⟨1, false⟩
  let waits := rival 3 .idle reservedWord fullWord false
  let held := trier .dRead true
  let lost := trier .dRead false
  [ (duel fullWord t0 (trier .start false) waits, .port 0 false),
    (duel fullWord t0 (trier .dLL false) waits, .port 0 false),
    (duel fullWord t0 held waits, .port 0 false),
    (duel fullWord t0 (trier .dSC true) waits, .port 0 true),
    (duel fullWord ⟨0, true⟩ (trier .dLL false) waits, .port 0 false),
    (duel fullWord t0 held waits, writeCommand 5),
    (duel fullWord t0 held (rival 5 .start reservedWord fullWord false), .port 1 false),
    (duel fullWord t1 held (rival 5 .dLL reservedWord fullWord false), .port 1 false),
    (duel fullWord t1 held (rival 5 .dRead fullWord 0 true), .port 1 false),
    (duel fullWord t1 held (rival 5 .dSC fullWord 0 true), .port 1 false),
    (duel 0 t1 lost (rival 5 .idle fullWord 0 false), writeCommand 3),
    (duel 0 t1 lost (rival 3 .start fullWord 0 false), .port 1 false),
    (duel 0 t1 lost (rival 3 .e1LL fullWord 0 false), .port 1 false),
    (duel 0 t1 lost (rival 3 .e1SC 0 reservedWord true), .port 1 false),
    (duel reservedWord t1 lost (rival 3 .eWrite 0 reservedWord false), .port 1 false),
    (duel reservedWord t1 lost (rival 3 .e2LL 0 reservedWord false), .port 1 false),
    (duel reservedWord t1 lost (rival 3 .e2SC reservedWord fullWord true), .port 1 false),
    (duel fullWord t1 lost waits, .port 0 false),
    (duel fullWord t0 (trier .dSC false) waits, .port 0 false),
    (duel fullWord t0 (trier .dLL false) waits, .port 0 false) ]

def stateAt (i : Fin 20) : State := (places.get i).1
def choiceAt (i : Fin 20) : Event := (places.get i).2

/-- The place after a place: the last one leads back to the start of the cycle. -/
def nextPlace (i : Fin 20) : Fin 20 := if i = 19 then 5 else i + 1

/-- The place of the run at time `n`. -/
def place (n : Nat) : Fin 20 := nextPlace^[n] 0

/-- The run. -/
def states (n : Nat) : State := stateAt (place n)
def choices (n : Nat) : Event := choiceAt (place n)

theorem place_succ (n : Nat) : place (n + 1) = nextPlace (place n) := Function.iterate_succ_apply' ..

/-! ### What is checked at the places -/

theorem runEvent_place (i : Fin 20) : runEvent (choiceAt i) (stateAt i) = .next (stateAt (nextPlace i)) := by
  fin_cases i <;> rfl

theorem ports_length (i : Fin 20) : (stateAt i).ports.length = 2 := by
  fin_cases i <;> rfl

/-- Port 0 is at START at first, and in the loop of TRYDEQ from then on. -/
theorem trier_loop : ∀ i, ∀ q ∈ (stateAt i).ports[0]?, loopOf q.phase = if i = 0 then none else some .dequeue := by
  decide

theorem trier_busy : ∀ i, ∀ q ∈ (stateAt i).ports[0]?, q.phase ≠ .idle := by
  decide

/-- Port 1 holds its reservation at every store-conditional. -/
theorem rival_held : ∀ i, ∀ q ∈ (stateAt i).ports[1]?, storePhase q.phase = true → q.res = true := by
  decide

/-- Each of the two ports has a turn again. -/
theorem turn_comes : ∀ i, ∀ p : Fin 2, ∃ k : Fin 20, choiceAt (nextPlace^[k] i) = .port p false := by
  decide

/-- The cycle has no spurious draw. -/
theorem cycle_not_spurious : ∀ i : Fin 20, 5 ≤ i → ∀ p : Fin 2, choiceAt i ≠ .port p true := by
  decide

theorem cycle_closed : ∀ i : Fin 20, 5 ≤ i → 5 ≤ nextPlace i := by
  decide

theorem nextPlace_ne_zero : ∀ i, nextPlace i ≠ 0 := by
  decide

theorem blockInv_start : BlockInv (states 0) := by
  refine ⟨?_, rfl, ?_, ?_, ?_, ?_⟩
  · unfold ParamsInv; decide
  · unfold StatusInv StatusOk; decide
  · simp [CommandInv, CommandOk, states, stateAt, place, places, duel, trier, rival]
  · unfold QueueInv NoQueue FieldsOk WindowOk LatchOk; decide
  · unfold SlotInv SlotOk; decide

/-! ### The claims about all times -/

theorem isRun : IsRun choices states := by
  intro n
  rw [choices, states, states, place_succ]
  exact runEvent_place (place n)

variable {n m p : Nat} {q : Port} {l : Loop}

theorem port_lt (h : At states n p q) : p < 2 :=
  ports_length (place n) ▸ (List.getElem?_eq_some_iff.mp h).1

theorem five_le_place (h : 5 ≤ n) : 5 ≤ place n := by
  induction n, h using Nat.le_induction with
  | base => decide
  | succ n _ ih => exact place_succ n ▸ cycle_closed _ ih

theorem place_ne_zero (h : n ≠ 0) : place n ≠ 0 := by
  obtain ⟨k, rfl⟩ := Nat.exists_eq_succ_of_ne_zero h
  exact place_succ k ▸ nextPlace_ne_zero _

theorem fairPort : FairPort choices states := by
  intro p n q h _
  obtain ⟨k, hk⟩ := turn_comes (place n) ⟨p, port_lt h⟩
  refine ⟨k + n, by omega, false, ?_⟩
  rw [choices, place, Function.iterate_add_apply]
  exact hk

theorem finiteSpurious : FiniteSpurious choices states := fun p =>
  ⟨5, fun m _ hm h _ => cycle_not_spurious (place m) (five_le_place hm) ⟨p, port_lt h⟩⟩

theorem trier_inLoop (hn : n ≠ 0) : InLoop states 0 .dequeue n := by
  have hlt : 0 < (states n).ports.length := by rw [states, ports_length]; omega
  have hp : At states n 0 _ := List.getElem?_eq_getElem hlt
  exact ⟨_, hp, (trier_loop _ _ hp).trans (if_neg (place_ne_zero hn))⟩

/-- Port 0 enters its one loop at the start and holds its reservation at time 3; port 1 always holds it. -/
theorem finiteContention : FiniteContention choices states := by
  rintro p l n hout ⟨m, q, hm, hin, hp, hstore, hturn⟩
  obtain rfl | rfl : p = 0 ∨ p = 1 := by have := port_lt hp; omega
  · obtain ⟨x, hx, hl⟩ := hin m hm le_rfl
    obtain rfl : l = .dequeue := by
      have := (trier_loop _ x hx).trans (if_neg (place_ne_zero (by omega)))
      exact Option.some.inj (hl.symm.trans this)
    obtain rfl : n = 0 := by_contra fun hn => hout (trier_inLoop hn)
    exact ⟨3, trier .dSC true, ⟨by omega, fun k hk _ => trier_inLoop (by omega), rfl, rfl, true, rfl⟩, rfl⟩
  · exact ⟨m, q, ⟨hm, hin, hp, hstore, hturn⟩, rival_held _ q hp hstore⟩

/-- Settles O59: the run keeps the three assumptions, and port 0 is busy at every place. -/
theorem trydeqMayNeverEnd : Obligations.TrydeqMayNeverEnd := by
  refine ⟨choices, states, 0, trier .start false, isRun, fairPort, finiteSpurious, finiteContention, blockInv_start,
    rfl, rfl, rfl, ?_⟩
  exact not_endsAfter_iff.mpr fun n q _ h => trier_busy (place n) q h

end Sys2Proof.Contest
end

section
/-! INIT and DESTROY (41_lifecycle.md R190 to R197): each answer of their START step as one state, and what they
leave alone. -/

namespace Sys2Proof.Machine

open Sys2Proof Sys2Proof.Safety

variable {s t : State} {q : Port} {i : Instr}

/-! ### The answers -/

/-- The test of INIT and DESTROY for a busy port is the one of 41_lifecycle.md R197. -/
theorem othersBusy_turn_iff : othersBusy s.turn.port s = true ↔ ¬Alone s := by
  rw [Alone, ← othersBusy_false_iff, Bool.not_eq_false]

/-- QWORD cleared, QCFG written and the command of the running port, with the record `q`, ended with SUCCESS: what
INIT and DESTROY do when they succeed (41_lifecycle.md R191, R195). -/
def reconfigured (s : State) (q : Port) (valid : Bool) (cap : BitVec 7) : State :=
  withRunning (storedQword { s with cap := cap, valid := valid } 0x00000000#32) (ended q 0x00#8)

theorem complete_turn_eq (hp : s.ports[s.turn.port]? = some q) (c : StatusCode) :
    complete s.turn.port c s = withRunning s (ended q c.value) := complete_eq hp c

/-- The store of INIT and DESTROY, then their completion. -/
theorem complete_success_eq (hp : s.ports[s.turn.port]? = some q) (valid : Bool) (cap : BitVec 7) :
    complete s.turn.port .success
        (clearReservations { s with qword := 0x00000000#32, cap := cap, valid := valid }) =
      reconfigured s q valid cap :=
  complete_eq (s := clearReservations { s with qword := 0x00000000#32, cap := cap, valid := valid })
    (get_map_clear hp) .success

/-- START of INIT, its tests in the order of 41_lifecycle.md R191. -/
theorem initStart_eq (hp : s.ports[s.turn.port]? = some q) (cap : Nat) :
    initStart cap s.turn.port s =
      if othersBusy s.turn.port s then withRunning s (ended q 0x06#8)
      else if 127 < cap then withRunning s (ended q 0x07#8)
      else if cap = 0 then withRunning s (ended q 0x08#8)
      else reconfigured s q true (BitVec.ofNat 7 cap) := by
  have hstore := complete_success_eq hp true (BitVec.ofNat 7 cap)
  have hpack : pack 0 0 0 0 = 0x00000000#32 := by decide
  simp only [initStart, complete_turn_eq hp, hpack, hstore, StatusCode.value, Config.capMax]

/-- START of DESTROY, its tests in the order of 40_command_execution.md R164 and 41_lifecycle.md R195. -/
theorem destroyStart_eq (hp : s.ports[s.turn.port]? = some q) :
    destroyStart s.turn.port s =
      if s.valid = false then withRunning s (ended q 0x01#8)
      else if othersBusy s.turn.port s then withRunning s (ended q 0x06#8)
      else reconfigured s q false 0#7 := by
  have hstore := complete_success_eq hp false 0#7
  simp only [destroyStart, complete_turn_eq hp, BitVec.ofNat_eq_ofNat, hstore, StatusCode.value, Bool.not_eq_true']

/-- Settles O16: the word's INIT is the one that decodes (R132), and its START tests in turn. -/
theorem initAnswers : Obligations.InitAnswers := by
  intro s q cap h
  have hexec : exec (.init cap) s = .next _ := (exec_of_start h _).trans (congrArg _ (initStart_eq h.1 cap))
  refine ⟨fun hop hcap => runTurn_eq_exec h.1 (decodeWord_eq_init_iff.mpr ⟨hop, hcap⟩),
    fun hbusy => ?_, fun hidle hcap => ?_, fun hidle hcap => ?_, fun hidle h1 h127 => ?_⟩
  · rw [hexec, if_pos (othersBusy_turn_iff.mpr hbusy)]
  · rw [hexec, if_neg (othersBusy_turn_iff.mp · hidle), if_pos hcap]
  · rw [hexec, if_neg (othersBusy_turn_iff.mp · hidle), if_neg (by omega), if_pos hcap]
  · rw [hexec, if_neg (othersBusy_turn_iff.mp · hidle), if_neg (by omega), if_neg (by omega), reconfigured]

/-- Settles O17: DESTROY is the one word of its command, and its START tests in turn. -/
theorem destroyAnswers : Obligations.DestroyAnswers := by
  intro s q h
  have hexec : exec .destroy s = .next _ := (exec_of_start h _).trans (congrArg _ (destroyStart_eq h.1))
  refine ⟨fun hw => runTurn_eq_exec h.1 ((decodeWord_eq_ok_iff_eq_encode rfl).mpr hw),
    fun hv => ?_, fun hv hbusy => ?_, fun hv hidle => ?_⟩
  · rw [hexec, if_pos hv]
  · rw [hexec, if_neg (ne_false_of_eq_true hv), if_pos (othersBusy_turn_iff.mpr hbusy)]
  · rw [hexec, if_neg (ne_false_of_eq_true hv), if_neg (othersBusy_turn_iff.mp · hidle), reconfigured]

/-! ### The frame -/

/-- START of INIT or DESTROY only ends the command with a code, or succeeds and writes the configuration. -/
theorem startOf_lifecycle (hi : (∃ cap, i = .init cap) ∨ i = .destroy) (hp : s.ports[s.turn.port]? = some q) :
    (∃ code, startOf i s.turn.port s = withRunning s (ended q code)) ∨
      ∃ valid cap, startOf i s.turn.port s = reconfigured s q valid cap := by
  obtain ⟨cap, rfl⟩ | rfl := hi
  · rw [startOf, initStart_eq hp]
    split_ifs
    · exact .inl ⟨_, rfl⟩
    · exact .inl ⟨_, rfl⟩
    · exact .inl ⟨_, rfl⟩
    · exact .inr ⟨_, _, rfl⟩
  · rw [startOf, destroyStart_eq hp]
    split_ifs
    · exact .inl ⟨_, rfl⟩
    · exact .inl ⟨_, rfl⟩
    · exact .inr ⟨_, _, rfl⟩

theorem keepsOthers_refl (s : State) : KeepsOthers s s :=
  ⟨rfl, rfl, rfl, rfl, rfl, rfl, fun _ x _ hx => ⟨x.res, hx⟩⟩

/-- A store to QWORD takes only the reservations of the other ports (20_memory.md R92). -/
theorem keepsOthers_storedQword (s : State) (valid : Bool) (cap : BitVec 7) (w : Word) :
    KeepsOthers s (storedQword { s with cap := cap, valid := valid } w) :=
  ⟨rfl, rfl, rfl, rfl, rfl, List.length_map _, fun _ _ _ hx => ⟨false, get_map_clear hx⟩⟩

/-- The record of the running port is none of the others'. -/
theorem keepsOthers_withRunning (h : KeepsOthers s t) (q' : Port) : KeepsOthers s (withRunning t q') := by
  obtain ⟨hbase, hagenda, hticks, hturn, hresp, hcount, hothers⟩ := h
  refine ⟨hbase, hagenda, hticks, hturn, hresp, List.length_set.trans hcount, fun r x hr hx => ?_⟩
  obtain ⟨b, hb⟩ := hothers r x hr hx
  exact ⟨b, (get_set_ne q' (hturn ▸ hr)).trans hb⟩

/-- Settles O35: INIT and DESTROY end, and only a success stores to QWORD. -/
theorem frameOfLifecycle : Obligations.FrameOfLifecycle := by
  intro i s t q hi h ht
  obtain rfl : startOf i s.turn.port s = t := Host.Outcome.next.inj ((exec_of_start h i).symm.trans ht)
  obtain ⟨code, he⟩ | ⟨valid, cap, he⟩ := startOf_lifecycle hi h.1
  · rw [he]
    exact ⟨keepsOthers_withRunning (keepsOthers_refl s) _, fun _ => rfl, code, get_set_self h.1 _, fun _ => rfl⟩
  · rw [he]
    exact ⟨keepsOthers_withRunning (keepsOthers_storedQword s valid cap _) _, fun _ => rfl, 0x00#8,
      get_set_self (get_map_clear h.1) _, absurd rfl⟩

end Sys2Proof.Machine
end

section
/-! ENQ and TRYENQ (42_enqueue.md R210 to R226): each micro-step as one equation, what every one of them leaves alone,
the commit that always finds a gap of one, and the whole command in six turns. -/

namespace Sys2Proof.Machine

open Sys2Proof Sys2Proof.Safety

variable {s t : State} {q x y : Port} {i : Instr} {ph : Phase}

/-! ### The micro-steps -/

/-- Settles O20: E1_LL tests the word it reserves, and only TRYENQ ends on a failed test. -/
theorem enqueueReserveRead : Obligations.EnqueueReserveRead := by
  rintro s q ⟨hp, hph⟩
  have hexec : ∀ i, exec i s = .next (e1LL (opcode i) s.turn.port s) := fun i => by
    rw [exec_eq hp, runPhase, hph]
  refine ⟨fun hc i _ => ?_, fun hc => ⟨?_, ?_⟩⟩
  · rw [hexec, e1LL_eq hp, if_pos (phase1Cond_iff.mpr hc)]
    rfl
  · rw [hexec, e1LL_eq hp, if_neg (mt phase1Cond_iff.mp hc), if_neg (by decide)]
    rfl
  · rw [hexec, e1LL_eq hp, if_neg (mt phase1Cond_iff.mp hc), if_pos (by decide)]
    rfl

/-- Settles O23: E2_LL tests the gap of the word it reserves. -/
theorem enqueueCommitRead : Obligations.EnqueueCommitRead := by
  rintro s q i ⟨hp, hph⟩ -
  have hexec : exec i s = .next (e2LL s.turn.port s) := by rw [exec_eq hp, runPhase, hph]
  refine ⟨fun hgap => ?_, fun hgap => ?_⟩
  · rw [hexec, e2LL_eq hp, if_pos (phase2Cond_iff.mpr (by omega))]
    rfl
  · rw [hexec, e2LL_eq hp, if_neg (mt phase2Cond_iff.mp (by omega))]
    rfl

/-- Settles O21: E1_SC is its store-conditional, then the phase. -/
theorem enqueueReserveStore : Obligations.EnqueueReserveStore := by
  rintro s q i ⟨hp, hph⟩ -
  have hexec : exec i s = .next (e1SC s.turn.port q s) := by rw [exec_eq hp, runPhase, hph]
  refine ⟨fun ⟨hr, hs⟩ => ?_, fun hr => ?_⟩
  · exact hexec.trans (congrArg _ (e1SC_stored hp hr hs))
  · exact hexec.trans (congrArg _ (e1SC_failed hp hr))

/-- Settles O24: E2_SC is its store-conditional, then the completion or the phase. -/
theorem enqueueCommitStore : Obligations.EnqueueCommitStore := by
  rintro s q i ⟨hp, hph⟩ -
  have hexec : exec i s = .next (e2SC s.turn.port q s) := by rw [exec_eq hp, runPhase, hph]
  refine ⟨fun ⟨hr, hs⟩ => ?_, fun hr => ?_⟩
  · exact hexec.trans (congrArg _ (e2SC_stored hp hr hs))
  · exact hexec.trans (congrArg _ (e2SC_failed hp hr))

/-- The state with an item written to a slot (20_memory.md R96). -/
def wroteSlot (s : State) (a : Nat) (d : Item) : State := { s with slots := s.slots.write a d }

theorem exec_of_eWrite (h : Running s q .eWrite) (i : Instr) :
    exec i s = eWrite s.turn.port q s := by
  obtain ⟨hp, hph⟩ := h
  rw [exec_eq hp, runPhase, hph]

/-- E_WRITE of one of the 127 slots. -/
theorem exec_of_eWrite_slot (h : Running s q .eWrite) (hi : q.s.toNat < Config.nslots) (i : Instr) :
    exec i s = .next (withRunning (wroteSlot s q.s.toNat q.din) { q with phase := .e2LL }) :=
  (exec_of_eWrite h i).trans (eWrite_eq h.1 hi)

/-- Settles O22: E_WRITE is one SlotWrite, which the index 127 fails. -/
theorem enqueuePayloadWrite : Obligations.EnqueuePayloadWrite := by
  intro s q i h _
  refine ⟨fun hi => ?_, fun hi => ?_⟩
  · exact ⟨_, exec_of_eWrite_slot h (Nat.lt_succ_of_le hi) i, fun a => Memory.read_write _ _ _ _, rfl⟩
  · rw [exec_of_eWrite h, eWrite, slotWrite, hi, if_neg (by decide)]

/-! ### The frame -/

/-- What a micro-step of ENQ or TRYENQ at phase `ph` leaves of its own port's record: what it never writes, STATUS
until it ends the command, and the latches that only the load-reserves write. -/
def KeepsLatches (ph : Phase) (q q' : Port) : Prop :=
  q'.ovr = q.ovr ∧ q'.dinHi = q.dinHi ∧ q'.dinLo = q.dinLo ∧ q'.doutHi = q.doutHi ∧
  q'.doutLo = q.doutLo ∧ q'.cw = q.cw ∧ q'.din = q.din ∧ q'.d = q.d ∧
  (q'.phase ≠ .idle → q'.busy = q.busy ∧ q'.code = q.code) ∧
  (ph ≠ .e1LL → q'.s = q.s) ∧
  (ph ≠ .e1LL → ph ≠ .e2LL → q'.v = q.v ∧ q'.vn = q.vn)

/-- What a micro-step of ENQ or TRYENQ at phase `ph` does outside its own port's record: nothing, but at E_WRITE the
slot write and at the two store-conditionals the store. -/
inductive EnqueueEffect (ph : Phase) (s : State) (q : Port) : State → Prop
  | none : EnqueueEffect ph s q s
  | wrote (hph : ph = .eWrite) : EnqueueEffect ph s q (wroteSlot s q.s.toNat q.din)
  | stored (hph : ph = .e1SC ∨ ph = .e2SC) : EnqueueEffect ph s q (storedQword s q.vn)

/-- A micro-step of ENQ or TRYENQ is one of these effects and a new record of its port. -/
def EnqueueMove (ph : Phase) (s : State) (q : Port) (t : State) : Prop :=
  ∃ u q', t = withRunning u q' ∧ EnqueueEffect ph s q u ∧ KeepsLatches ph q q'

theorem keepsLatches_ended (code : Byte) : KeepsLatches ph q (ended q code) := by
  simp [KeepsLatches, ended]

theorem keepsLatches_goOn (b : Bool) (ph' : Phase) : KeepsLatches ph q { q with res := b, phase := ph' } := by
  simp [KeepsLatches]

theorem enqueueMove_of_record (hexec : exec i s = .next (withRunning s x)) (hx : KeepsLatches ph q x)
    (ht : exec i s = .next t) : EnqueueMove ph s q t :=
  ⟨s, x, Host.Outcome.next.inj (ht.symm.trans hexec), .none, hx⟩

/-- A store-conditional, with the record that a store leaves and the one that a failure leaves (20_memory.md R91). -/
theorem enqueueMove_of_store (hph : ph = .e1SC ∨ ph = .e2SC) (hx : KeepsLatches ph q x) (hy : KeepsLatches ph q y)
    (hstored : q.res = true ∧ s.turn.spurious = false → exec i s = .next (withRunning (storedQword s q.vn) x))
    (hlost : ¬(q.res = true ∧ s.turn.spurious = false) → exec i s = .next (withRunning s y))
    (ht : exec i s = .next t) : EnqueueMove ph s q t := by
  by_cases hr : q.res = true ∧ s.turn.spurious = false
  · exact ⟨_, x, Host.Outcome.next.inj (ht.symm.trans (hstored hr)), .stored hph, hx⟩
  · exact enqueueMove_of_record (hlost hr) hy ht

/-- START on a queue and without one (40_command_execution.md R164, R165). -/
theorem enqueueMove_start (hi : i = .enq ∨ i = .tryenq) (h : Running s q .start) (ht : exec i s = .next t) :
    EnqueueMove .start s q t := by
  have hstart : startOf i s.turn.port s = startOnQueue s.turn.port .e1LL s := by obtain rfl | rfl := hi <;> rfl
  have hexec := (exec_of_start h i).trans (congrArg _ (hstart.trans (startOnQueue_eq h.1 .e1LL)))
  refine enqueueMove_of_record hexec ?_ ht
  split
  · exact keepsLatches_goOn q.res .e1LL
  · exact keepsLatches_ended 0x01#8

theorem enqueueMove_e1LL (hi : i = .enq ∨ i = .tryenq) (h : Running s q .e1LL) (ht : exec i s = .next t) :
    EnqueueMove .e1LL s q t := by
  obtain ⟨hpass, hfail⟩ := enqueueReserveRead s q h
  by_cases hc : (Qword.wc s.qword).toNat < s.cap.toNat ∧ Qword.wc s.qword = Qword.rc s.qword
  · exact enqueueMove_of_record (hpass hc i hi) (by simp [KeepsLatches]) ht
  · obtain ⟨henq, htryenq⟩ := hfail hc
    obtain rfl | rfl := hi
    · exact enqueueMove_of_record henq (by simp [KeepsLatches]) ht
    · exact enqueueMove_of_record htryenq (by simp [KeepsLatches, ended]) ht

theorem enqueueMove_e2LL (hi : i = .enq ∨ i = .tryenq) (h : Running s q .e2LL) (ht : exec i s = .next t) :
    EnqueueMove .e2LL s q t := by
  obtain ⟨hpass, hfail⟩ := enqueueCommitRead s q i h hi
  obtain hgap | hgap := le_or_gt (((Qword.wc s.qword).toNat : Int) - ((Qword.rc s.qword).toNat : Int)) 1
  · exact enqueueMove_of_record (hpass hgap) (by simp [KeepsLatches]) ht
  · exact enqueueMove_of_record (hfail hgap) (by simp [KeepsLatches]) ht

theorem enqueueMove_eWrite (h : Running s q .eWrite) (ht : exec i s = .next t) : EnqueueMove .eWrite s q t := by
  obtain ⟨hslot, _⟩ := slotWrite_next ((exec_of_eWrite h i).symm.trans ht)
  have hexec := exec_of_eWrite_slot h hslot i
  exact ⟨_, _, Host.Outcome.next.inj (ht.symm.trans hexec), .wrote rfl, keepsLatches_goOn q.res .e2LL⟩

/-- Every micro-step of ENQ or TRYENQ, by its phase (42_enqueue.md R210, R211). -/
theorem enqueueMove_of_exec (hi : i = .enq ∨ i = .tryenq) (h : Running s q ph)
    (hph : ph = .start ∨ ownPhase i ph = true) (ht : exec i s = .next t) : EnqueueMove ph s q t := by
  obtain ⟨hyield1, hyield2, _⟩ := yieldsChangeOnlyThePhase
  have hown : ph = .start ∨ ownPhase .enq ph = true := by obtain rfl | rfl := hi <;> exact hph
  cases ph <;> simp [ownPhase] at hown
  case start => exact enqueueMove_start hi h ht
  case e1LL => exact enqueueMove_e1LL hi h ht
  case e1SC =>
    obtain ⟨hstored, hlost⟩ := enqueueReserveStore s q i h hi
    exact enqueueMove_of_store (.inl rfl) (keepsLatches_goOn _ _) (keepsLatches_goOn _ _) hstored hlost ht
  case e1Yield => exact enqueueMove_of_record (hyield1 s q i h hi) (keepsLatches_goOn _ _) ht
  case eWrite => exact enqueueMove_eWrite h ht
  case e2LL => exact enqueueMove_e2LL hi h ht
  case e2SC =>
    obtain ⟨hstored, hlost⟩ := enqueueCommitStore s q i h hi
    exact enqueueMove_of_store (.inr rfl) (keepsLatches_ended _) (keepsLatches_goOn _ _) hstored hlost ht
  case e2Yield => exact enqueueMove_of_record (hyield2 s q i h hi) (keepsLatches_goOn _ _) ht

/-- Settles O32: each micro-step is at most one effect outside its port, and a new record of its port. -/
theorem frameOfEnqueue : Obligations.FrameOfEnqueue := by
  intro i s t q ph hi h hph ht
  obtain ⟨u, q', rfl, heffect, hq'⟩ := enqueueMove_of_exec hi h hph ht
  cases heffect with
  | none =>
    exact ⟨keepsOthers_withRunning (keepsOthers_refl s) q', rfl, rfl, fun _ _ => rfl, fun _ _ => rfl,
      q', get_set_self h.1 q', hq'⟩
  | wrote hwrite =>
    have hothers : KeepsOthers s (wroteSlot s q.s.toNat q.din) := keepsOthers_refl s
    exact ⟨keepsOthers_withRunning hothers q', rfl, rfl, fun _ _ => rfl,
      fun a ha => Memory.read_write_ne _ _ (ha hwrite), q', get_set_self h.1 q', hq'⟩
  | stored hstore =>
    exact ⟨keepsOthers_withRunning (keepsOthers_storedQword s s.valid s.cap q.vn) q', rfl, rfl,
      fun h1 h2 => absurd hstore (not_or.mpr ⟨h1, h2⟩), fun _ _ => rfl,
      q', get_set_self (get_map_clear h.1) q', hq'⟩

end Sys2Proof.Machine

namespace Sys2Proof.Safety

open Sys2Proof Sys2Proof.Machine

variable {s t : State} {p k m : Nat} {q x y : Port} {i : Instr} {ph : Phase} {rest : List Event}

/-! ### The invariants -/

/-- Settles O46: acceptance starts a command, reset ends all, and a micro-step goes on behind its entry phase. -/
theorem stepKeepsPhasesOfTheCommand : Obligations.StepKeepsPhasesOfTheCommand := by
  intro s t h ht
  exact step_keeps (I := CommandInv) (fun hh h => hh.forall_ports h CommandOk.accessed)
    (fun _ => commandInv_resetWith) moves_commandInv h ht

/-- A port at E2_LL is in its window, so the gap is 1 (42_enqueue.md R226). -/
theorem QueueInv.gap_of_e2LL (h : QueueInv s) (hq : q ∈ s.ports) (hph : q.phase = .e2LL) :
    (Qword.wc s.qword).toNat = (Qword.rc s.qword).toNat + 1 := by
  have hwin : windowPhase q.phase = true := by rw [hph]; rfl
  obtain ⟨_, hf, hw, _⟩ := h.pastStart_of_window hq hwin
  exact hw.gap hf hq hwin

/-- No port waits in E2_YIELD. -/
def NoCommitYield (s : State) : Prop := ∀ q ∈ s.ports, q.phase ≠ .e2Yield

/-- The one way into E2_YIELD is a failed phase-2 test, which a gap of 1 passes. -/
theorem moves_noCommitYield (hp : s.ports[p]? = some q) (hm : Moves s p q t) (hQ : QueueInv s)
    (h : NoCommitYield s) : NoCommitYield t := by
  cases hm with
  | still => exact h
  | created | destroyed | reservedSlot | committed | taken => exact forall_afterStore h (by simp)
  | started _ i ph _ _ hf => exact forall_putPort h (by cases i <;> cases hf <;> simp)
  | waiting ph hph =>
    obtain ⟨_, _, rfl⟩ | ⟨hph, hc, _⟩ | ⟨_, _, rfl⟩ := hph
    · exact forall_putPort h (by simp)
    · have hgap := hQ.gap_of_e2LL (List.mem_of_getElem? hp) hph
      exact absurd (phase2Cond_iff.mpr hgap.le) (by simp [hc])
    · exact forall_putPort h (by simp)
  | lost ph hph | yielded ph hph =>
    obtain ⟨_, rfl⟩ | ⟨_, rfl⟩ | ⟨_, rfl⟩ := hph <;> exact forall_putPort h (by simp)
  | _ => exact forall_putPort h (by simp)

theorem Accessed.ne_e2Yield (ha : Accessed x y) (h : x.phase ≠ .e2Yield) : y.phase ≠ .e2Yield := by
  obtain ⟨_, _, rfl | ⟨hph, _⟩ | ⟨_, hph, _⟩⟩ := ha
  · exact h
  · rwa [hph]
  · simp [hph]

theorem noCommitYield_resetBlock (s : State) : NoCommitYield (resetBlock s) := fun q hq => by
  simp [resetBlock_ports hq, Port.reset]

/-- Settles O51: the port in the window is the gap, and so every phase-2 test passes. -/
theorem commitFindsAGapOfOne : Obligations.CommitFindsAGapOfOne := by
  refine ⟨fun s q ⟨_, _, _, _, hqueue, _⟩ ⟨hp, hph⟩ => ?_, fun s t ⟨_, _, _, _, hqueue, _⟩ hno ht => ?_⟩
  · have hgap := hqueue.gap_of_e2LL (List.mem_of_getElem? hp) hph
    refine ⟨hgap, ?_⟩
    rw [runTurn_eq hp, runPhase, hph, e2LL_eq hp, if_pos (phase2Cond_iff.mpr hgap.le)]
    rfl
  · refine (step_keeps (I := fun s => QueueInv s ∧ NoCommitYield s) ?_ ?_ ?_ ⟨hqueue, hno⟩ ht).2
    · exact fun hh ⟨hQ, h⟩ => ⟨hh.queueInv hQ, hh.forall_ports h Accessed.ne_e2Yield⟩
    · exact fun _ => ⟨queueInv_resetWith, noCommitYield_resetBlock _⟩
    · exact fun hp hm ⟨hQ, h⟩ => ⟨moves_queueInv hp hm hQ, moves_noCommitYield hp hm hQ h⟩

/-! ### The turns of one port with no other step between them -/

/-- Port `p`, with the record `x`, has the turn without a spurious failure, and the agenda gives it the next `k`
turns. -/
def withTurns (s : State) (p k : Nat) (rest : List Event) (x : Port) : State :=
  { s with
    agenda := List.replicate k (.port p false) ++ rest, turn := ⟨p, false⟩, ports := s.ports.set p x }

theorem withRunning_withTurns (x y : Port) :
    withRunning (withTurns s p k rest x) y = withTurns s p k rest y := by
  simp [withRunning, withTurns]

/-- A store by the port with the turns, which then writes its own record. -/
theorem withRunning_storedQword_withTurns (w : Word) (x y : Port) :
    withRunning (storedQword (withTurns s p k rest x) w) y = withTurns (storedQword s w) p k rest y := by
  simp [withRunning, storedQword, withTurns, List.map_set]

theorem running_withTurns (hp : s.ports[p]? = some q) (hph : x.phase = ph) :
    Running (withTurns s p k rest x) x ph :=
  ⟨get_set_self hp x, hph⟩

theorem withTurns_withTurns (j : Nat) (l : List Event) (x y : Port) :
    withTurns (withTurns s p j l x) p k rest y = withTurns s p k rest y := by
  simp [withTurns]

/-- A listed turn is taken from the agenda and made. -/
theorem step_of_turns (hp : s.ports[p]? = some q)
    (ha : s.agenda = List.replicate (k + 1) (.port p false) ++ rest) :
    step s = runTurn (withTurns s p k rest q) := by
  obtain ⟨hlt, rfl⟩ := List.getElem?_eq_some_iff.mp hp
  rw [step_of_agenda ha, withTurns, List.set_getElem_self hlt]
  rfl

/-- The first of the steps is a micro-step of the command that the port has latched. -/
theorem steps_of_turns (hp : s.ports[p]? = some q) (hd : decodeWord q.cw = .ok i)
    (ha : s.agenda = List.replicate (k + 1) (.port p false) ++ rest)
    (ht : exec i (withTurns s p k rest q) = .next t) : steps (m + 1) s = steps m t := by
  have hturn : step s = .next t :=
    (step_of_turns hp ha).trans ((runTurn_eq_exec (get_set_self hp q) hd).trans ht)
  rw [steps, hturn]

/-- So is each that follows. -/
theorem steps_withTurns (hp : s.ports[p]? = some q) (hd : decodeWord x.cw = .ok i)
    (ht : exec i (withTurns s p k rest x) = .next t) :
    steps (m + 1) (withTurns s p (k + 1) rest x) = steps m t :=
  steps_of_turns (get_set_self hp x) hd rfl (by rwa [withTurns_withTurns])

/-! ### ENQ and TRYENQ alone -/

section

variable (hp : s.ports[p]? = some q)
include hp

theorem turn_start (hi : i = .enq ∨ i = .tryenq) (hph : x.phase = .start) (hv : s.valid = true) :
    exec i (withTurns s p k rest x) = .next (withTurns s p k rest { x with phase := .e1LL }) := by
  have hget : (withTurns s p k rest x).ports[p]? = some x := get_set_self hp x
  have hf : firstPhase i = some .e1LL := by obtain rfl | rfl := hi <;> rfl
  rw [exec_of_start (running_withTurns hp hph) i]
  refine congrArg _ (Eq.trans ?_ (withRunning_withTurns x _))
  exact startOf_of_queue hget hv hf

/-- E1_LL of a queue with room and nobody in the window (42_enqueue.md R213, R214). -/
theorem turn_reserveRead (hi : i = .enq ∨ i = .tryenq) (hph : x.phase = .e1LL)
    (hc : (Qword.wc s.qword).toNat < s.cap.toNat ∧ Qword.wc s.qword = Qword.rc s.qword) :
    exec i (withTurns s p k rest x) = .next (withTurns s p k rest
      { x with res := true, v := s.qword, s := slotIndex (Qword.wp s.qword),
               vn := phase1Word s.cap s.qword, phase := .e1SC }) := by
  refine Eq.trans ?_ (congrArg _ (withRunning_withTurns x _))
  exact (enqueueReserveRead _ _ (running_withTurns hp hph)).1 hc i hi

theorem turn_reserveStore (hi : i = .enq ∨ i = .tryenq) (hph : x.phase = .e1SC) (hr : x.res = true) :
    exec i (withTurns s p k rest x) =
      .next (withTurns (storedQword s x.vn) p k rest { x with res := false, phase := .eWrite }) := by
  refine Eq.trans ?_ (congrArg _ (withRunning_storedQword_withTurns x.vn x _))
  exact (enqueueReserveStore _ _ i (running_withTurns hp hph) hi).1 ⟨hr, rfl⟩

theorem turn_write (hph : x.phase = .eWrite) (hslot : x.s.toNat < Config.nslots) :
    exec i (withTurns s p k rest x) =
      .next (withTurns (wroteSlot s x.s.toNat x.din) p k rest { x with phase := .e2LL }) := by
  refine Eq.trans ?_ (congrArg _ (withRunning_withTurns x _))
  exact exec_of_eWrite_slot (running_withTurns hp hph) hslot i

/-- E2_LL of a word with a gap of one (42_enqueue.md R218, R219). -/
theorem turn_commitRead (hi : i = .enq ∨ i = .tryenq) (hph : x.phase = .e2LL)
    (hgap : (Qword.wc s.qword).toNat = (Qword.rc s.qword).toNat + 1) :
    exec i (withTurns s p k rest x) = .next (withTurns s p k rest
      { x with res := true, v := s.qword, vn := phase2Word s.qword, phase := .e2SC }) := by
  have hle : ((Qword.wc s.qword).toNat : Int) - ((Qword.rc s.qword).toNat : Int) ≤ 1 := by omega
  refine Eq.trans ?_ (congrArg _ (withRunning_withTurns x _))
  exact (enqueueCommitRead _ _ i (running_withTurns hp hph) hi).1 hle

theorem turn_commitStore (hi : i = .enq ∨ i = .tryenq) (hph : x.phase = .e2SC) (hr : x.res = true) :
    exec i (withTurns s p k rest x) =
      .next (withTurns (storedQword s x.vn) p k rest (ended x 0x00#8)) := by
  refine Eq.trans ?_ (congrArg _ (withRunning_storedQword_withTurns x.vn x _))
  exact (enqueueCommitStore _ _ i (running_withTurns hp hph) hi).1 ⟨hr, rfl⟩

end

/-- The store word of phase 1 has a gap of one (42_enqueue.md R214). -/
theorem gap_phase1Word {cap : BitVec 7} {v : Word}
    (hc : (Qword.wc v).toNat < cap.toNat ∧ Qword.wc v = Qword.rc v) :
    (Qword.wc (phase1Word cap v)).toNat = (Qword.rc (phase1Word cap v)).toNat + 1 := by
  rw [wc_phase1Word_toNat (phase1Cond_iff.mpr hc), phase1Word, rc_pack, hc.2]

/-- The queue after a whole enqueue of the item `d`, by its two stores and its slot write. -/
def enqueued (s : State) (d : Item) : State :=
  let w := phase1Word s.cap s.qword
  storedQword (wroteSlot (storedQword s w) (slotIndex (Qword.wp s.qword)).toNat d) (phase2Word w)

theorem enqueued_eq (s : State) (d : Item) : enqueued s d =
    storedQword (wroteSlot s (slotIndex (Qword.wp s.qword)).toNat d) (phase2Word (phase1Word s.cap s.qword)) := by
  simp only [enqueued, storedQword, wroteSlot, List.map_map]
  rfl

/-- START, E1_LL, E1_SC, E_WRITE, E2_LL and E2_SC, each with the outcome that goes on. -/
theorem steps_enqueue (hp : s.ports[p]? = some q) (hph : q.phase = .start) (hv : s.valid = true)
    (hd : decodeWord q.cw = .ok i) (hi : i = .enq ∨ i = .tryenq)
    (ha : s.agenda = List.replicate 6 (.port p false) ++ rest)
    (hc : (Qword.wc s.qword).toNat < s.cap.toNat ∧ Qword.wc s.qword = Qword.rc s.qword)
    (hslot : (slotIndex (Qword.wp s.qword)).toNat < Config.nslots) :
    steps 6 s = .next (withTurns (enqueued s q.din) p 0 rest
      { ended q 0x00#8 with
        v := phase1Word s.cap s.qword, vn := phase2Word (phase1Word s.cap s.qword),
        s := slotIndex (Qword.wp s.qword) }) := by
  have hp' := get_map_clear hp
  refine Eq.trans (steps_of_turns hp hd ha (turn_start hp hi hph hv)) ?_
  refine Eq.trans (steps_withTurns hp hd (turn_reserveRead hp hi rfl hc)) ?_
  refine Eq.trans (steps_withTurns hp hd (turn_reserveStore hp hi rfl rfl)) ?_
  refine Eq.trans (steps_withTurns hp' hd (turn_write hp' rfl hslot)) ?_
  refine Eq.trans (steps_withTurns hp' hd (turn_commitRead hp' hi rfl (gap_phase1Word hc))) ?_
  exact steps_withTurns hp' hd (turn_commitStore hp' hi rfl rfl)

/-- Settles O53: the six turns, and the fields of the state they end in. -/
theorem enqueueAloneCompletes : Obligations.EnqueueAloneCompletes := by
  intro s p q rest hp hph hv hcw ha hroom heq hwp wp' w1 w2
  obtain ⟨i, hd, hi⟩ : ∃ i, decodeWord q.cw = .ok i ∧ (i = .enq ∨ i = .tryenq) := by
    obtain hcw | hcw := hcw
    · exact ⟨.enq, (decodeWord_eq_ok_iff_eq_encode rfl).mpr hcw, .inl rfl⟩
    · exact ⟨.tryenq, (decodeWord_eq_ok_iff_eq_encode rfl).mpr hcw, .inr rfl⟩
  have hslot : (slotIndex (Qword.wp s.qword)).toNat = (Qword.wp s.qword).toNat := slotIndex_toNat hwp
  have hlt : (slotIndex (Qword.wp s.qword)).toNat < Config.nslots := by
    have hcap := s.cap.isLt
    simp only [hslot, Config.nslots]
    omega
  have hw2 : phase2Word (phase1Word s.cap s.qword) = w2 := by simp [phase2Word, phase1Word, w2, wp', inc]
  refine ⟨_, steps_enqueue hp hph hv hd hi ha ⟨hroom, heq⟩ hlt, fun a => ?_, ?_⟩
  · rw [← hslot]
    exact Memory.read_write s.slots _ a q.din
  · rw [enqueued_eq, hw2]
    rfl

end Sys2Proof.Safety
end

section
/-! DEQ and TRYDEQ (43_dequeue.md R240 to R250): each micro-step as one equation, what every one of them leaves alone,
and the whole command in four turns. -/

namespace Sys2Proof.Machine

open Sys2Proof Sys2Proof.Safety

variable {s t : State} {q x : Port} {i : Instr} {ph : Phase}

/-! ### The micro-steps -/

/-- Settles O26: D_LL tests the word it reserves, and only TRYDEQ ends on a failed test. -/
theorem dequeueReserveRead : Obligations.DequeueReserveRead := by
  rintro s q ⟨hp, hph⟩
  have hexec : ∀ i, exec i s = .next (dLL (opcode i) s.turn.port s) := fun i => by
    rw [exec_eq hp, runPhase, hph]
  refine ⟨fun hc i _ => ?_, fun hc => ⟨?_, ?_⟩⟩
  · rw [hexec, dLL_eq hp, if_pos (deqCond_iff.mpr hc)]
    rfl
  · rw [hexec, dLL_eq hp, if_neg (mt deqCond_iff.mp hc.not_gt), if_neg (by decide)]
    rfl
  · rw [hexec, dLL_eq hp, if_neg (mt deqCond_iff.mp hc.not_gt), if_pos (by decide)]
    rfl

/-- 20_memory.md R95: a slot that was never written. -/
theorem slotRead_unwritten {a : Nat} (ha : a < Config.nslots) (h : s.slots.read a = none) (k : Item → State) :
    slotRead a s k = .fault (.unwrittenSlot a) := by
  simp only [slotRead, if_pos ha, h]

/-- 20_memory.md R95: an index that is no slot (log 9). -/
theorem slotRead_noSlot {a : Nat} (ha : ¬a < Config.nslots) (k : Item → State) :
    slotRead a s k = .fault (.noSuchSlot a) := if_neg ha

/-- A pointer below the capacity names a slot in the 7-bit latch. -/
theorem slotIndex_lt_nslots {cap : BitVec 7} {a : Byte} (h : a.toNat < cap.toNat) :
    (slotIndex a).toNat < Config.nslots := by
  have hcap := cap.isLt
  simp only [slotIndex_toNat h, Config.nslots]
  omega

theorem exec_of_dRead (h : Running s q .dRead) (i : Instr) : exec i s = dRead s.turn.port q s := by
  obtain ⟨hp, hph⟩ := h
  rw [exec_eq hp, runPhase, hph]

/-- D_READ of a written slot. -/
theorem exec_of_dRead_slot {d : Item} (h : Running s q .dRead) (hs : q.s.toNat < Config.nslots)
    (hd : s.slots.read q.s.toNat = some d) (i : Instr) :
    exec i s = .next (withRunning s { q with d := d, phase := .dSC }) :=
  (exec_of_dRead h i).trans ((slotRead_some hs hd _).trans (congrArg _ (dRead_rest h.1 d)))

/-- Settles O27: D_READ is one SlotRead, which an unwritten slot and the index 127 fail. -/
theorem dequeueSlotRead : Obligations.DequeueSlotRead := by
  intro s q i h _
  refine ⟨fun d hs hd => ?_, fun hs hd => ?_, fun hs => ?_⟩
  · exact exec_of_dRead_slot h (Nat.lt_succ_of_le hs) hd i
  · rw [exec_of_dRead h, dRead, slotRead_unwritten (Nat.lt_succ_of_le hs) hd]
  · rw [exec_of_dRead h, dRead, hs, slotRead_noSlot (by decide)]

/-- Settles O28: D_SC is its store-conditional, then DOUT and the completion, or the phase. -/
theorem dequeueStore : Obligations.DequeueStore := by
  rintro s q i ⟨hp, hph⟩ -
  have hexec : exec i s = .next (dSC s.turn.port q s) := by rw [exec_eq hp, runPhase, hph]
  refine ⟨fun ⟨hr, hs⟩ => ?_, fun hr => ?_⟩
  · exact hexec.trans (congrArg _ (dSC_stored hp hr hs))
  · exact hexec.trans (congrArg _ (dSC_failed hp hr))

/-! ### The frame -/

/-- What a micro-step of DEQ or TRYDEQ at phase `ph` leaves of its own port's record: what it never writes, STATUS
until it ends the command, DOUT but at the store, and the latches but where they are loaded. -/
def DequeueKeeps (ph : Phase) (q q' : Port) : Prop :=
  q'.ovr = q.ovr ∧ q'.dinHi = q.dinHi ∧ q'.dinLo = q.dinLo ∧ q'.cw = q.cw ∧ q'.din = q.din ∧
  (q'.phase ≠ .idle → q'.busy = q.busy ∧ q'.code = q.code) ∧
  (q'.phase ≠ .idle ∨ ph ≠ .dSC → q'.doutHi = q.doutHi ∧ q'.doutLo = q.doutLo) ∧
  (ph ≠ .dRead → q'.d = q.d) ∧
  (ph ≠ .dLL → q'.v = q.v ∧ q'.vn = q.vn ∧ q'.s = q.s)

theorem dequeueKeeps_goOn (b : Bool) (ph' : Phase) : DequeueKeeps ph q { q with res := b, phase := ph' } := by
  simp [DequeueKeeps]

/-- A micro-step of DEQ or TRYDEQ writes its port's record, and QWORD in one case: the store at D_SC (43_dequeue.md
R244). -/
inductive DequeueMove (ph : Phase) (s : State) (q : Port) : State → Prop
  | recorded (x : Port) (hx : DequeueKeeps ph q x) : DequeueMove ph s q (withRunning s x)
  | stored (hph : ph = .dSC) (x : Port) (hx : DequeueKeeps ph q x) :
      DequeueMove ph s q (withRunning (storedQword s q.vn) x)

theorem dequeueMove_of_record (hexec : exec i s = .next (withRunning s x)) (hx : DequeueKeeps ph q x)
    (ht : exec i s = .next t) : DequeueMove ph s q t := by
  obtain rfl := Host.Outcome.next.inj (hexec.symm.trans ht)
  exact .recorded x hx

/-- START on a queue and without one (40_command_execution.md R164, R165). -/
theorem dequeueMove_start (hi : i = .deq ∨ i = .trydeq) (h : Running s q .start) (ht : exec i s = .next t) :
    DequeueMove .start s q t := by
  have hstart : startOf i s.turn.port s = startOnQueue s.turn.port .dLL s := by obtain rfl | rfl := hi <;> rfl
  have hexec := (exec_of_start h i).trans (congrArg _ (hstart.trans (startOnQueue_eq h.1 .dLL)))
  refine dequeueMove_of_record hexec ?_ ht
  split
  · exact dequeueKeeps_goOn q.res .dLL
  · simp [DequeueKeeps]

theorem dequeueMove_dLL (hi : i = .deq ∨ i = .trydeq) (h : Running s q .dLL) (ht : exec i s = .next t) :
    DequeueMove .dLL s q t := by
  obtain ⟨hpass, hfail⟩ := dequeueReserveRead s q h
  obtain hc | hc := Nat.eq_zero_or_pos (Qword.rc s.qword).toNat
  · obtain ⟨hdeq, htrydeq⟩ := hfail hc
    obtain rfl | rfl := hi
    · exact dequeueMove_of_record hdeq (by simp [DequeueKeeps]) ht
    · exact dequeueMove_of_record htrydeq (by simp [DequeueKeeps, ended]) ht
  · exact dequeueMove_of_record (hpass hc i hi) (by simp [DequeueKeeps]) ht

theorem dequeueMove_dRead (h : Running s q .dRead) (ht : exec i s = .next t) : DequeueMove .dRead s q t := by
  obtain ⟨hslot, d, hd, _⟩ := slotRead_next ((exec_of_dRead h i).symm.trans ht)
  exact dequeueMove_of_record (exec_of_dRead_slot h hslot hd i) (by simp [DequeueKeeps]) ht

theorem dequeueMove_dSC (hi : i = .deq ∨ i = .trydeq) (h : Running s q .dSC) (ht : exec i s = .next t) :
    DequeueMove .dSC s q t := by
  obtain ⟨hstored, hlost⟩ := dequeueStore s q i h hi
  by_cases hr : q.res = true ∧ s.turn.spurious = false
  · obtain rfl := Host.Outcome.next.inj ((hstored hr).symm.trans ht)
    exact .stored rfl _ (by simp [DequeueKeeps, ended])
  · exact dequeueMove_of_record (hlost hr) (dequeueKeeps_goOn _ _) ht

/-- Every micro-step of DEQ or TRYDEQ, by its phase (43_dequeue.md R240). -/
theorem dequeueMove_of_exec (hi : i = .deq ∨ i = .trydeq) (h : Running s q ph)
    (hph : ph = .start ∨ ownPhase i ph = true) (ht : exec i s = .next t) : DequeueMove ph s q t := by
  obtain ⟨_, _, hyield⟩ := yieldsChangeOnlyThePhase
  have hown : ph = .start ∨ ownPhase .deq ph = true := by obtain rfl | rfl := hi <;> exact hph
  cases ph <;> simp [ownPhase] at hown
  case start => exact dequeueMove_start hi h ht
  case dLL => exact dequeueMove_dLL hi h ht
  case dRead => exact dequeueMove_dRead h ht
  case dSC => exact dequeueMove_dSC hi h ht
  case dYield => exact dequeueMove_of_record (hyield s q i h hi) (dequeueKeeps_goOn _ _) ht

/-- Settles O33: each micro-step is a new record of its port, after a store at D_SC only. -/
theorem frameOfDequeue : Obligations.FrameOfDequeue := by
  intro i s t q ph hi h hph ht
  cases dequeueMove_of_exec hi h hph ht with
  | recorded x hx =>
    exact ⟨keepsOthers_withRunning (keepsOthers_refl s) x, rfl, rfl, fun _ => rfl, fun _ => rfl,
      x, get_set_self h.1 x, hx⟩
  | stored hstore x hx =>
    exact ⟨keepsOthers_withRunning (keepsOthers_storedQword s s.valid s.cap q.vn) x, rfl, rfl,
      absurd hstore, fun _ => rfl, x, get_set_self (get_map_clear h.1) x, hx⟩

end Sys2Proof.Machine

namespace Sys2Proof.Safety

open Sys2Proof Sys2Proof.Machine

variable {s : State} {p k : Nat} {q x : Port} {i : Instr} {ph : Phase} {rest : List Event} {d : Item}

/-! ### DEQ and TRYDEQ alone -/

section

variable (hp : s.ports[p]? = some q)
include hp

/-- START on a queue, of any command that goes on (40_command_execution.md R165). -/
theorem turn_enters (hf : firstPhase i = some ph) (hph : x.phase = .start) (hv : s.valid = true) :
    exec i (withTurns s p k rest x) = .next (withTurns s p k rest { x with phase := ph }) := by
  have hstart := startOf_of_queue (s := withTurns s p k rest x) (get_set_self hp x) hv hf
  rw [exec_of_start (running_withTurns hp hph) i]
  exact congrArg _ (hstart.trans (withRunning_withTurns x _))

/-- D_LL of a queue with a committed item (43_dequeue.md R242, R243). -/
theorem turn_dequeueRead (hi : i = .deq ∨ i = .trydeq) (hph : x.phase = .dLL) (hc : 0 < (Qword.rc s.qword).toNat) :
    exec i (withTurns s p k rest x) = .next (withTurns s p k rest
      { x with res := true, v := s.qword, s := slotIndex (Qword.rp s.qword),
               vn := deqWord s.cap s.qword, phase := .dRead }) := by
  refine Eq.trans ?_ (congrArg _ (withRunning_withTurns x _))
  exact (dequeueReserveRead _ _ (running_withTurns hp hph)).1 hc i hi

theorem turn_dequeueSlotRead (hph : x.phase = .dRead) (hs : x.s.toNat < Config.nslots)
    (hd : s.slots.read x.s.toNat = some d) :
    exec i (withTurns s p k rest x) = .next (withTurns s p k rest { x with d := d, phase := .dSC }) := by
  refine Eq.trans ?_ (congrArg _ (withRunning_withTurns x _))
  exact exec_of_dRead_slot (running_withTurns hp hph) hs hd i

theorem turn_dequeueStore (hi : i = .deq ∨ i = .trydeq) (hph : x.phase = .dSC) (hr : x.res = true) :
    exec i (withTurns s p k rest x) = .next (withTurns (storedQword s x.vn) p k rest
      { ended x 0x00#8 with doutHi := itemHi x.d, doutLo := itemLo x.d }) := by
  refine Eq.trans ?_ (congrArg _ (withRunning_storedQword_withTurns x.vn x _))
  exact (dequeueStore _ _ i (running_withTurns hp hph) hi).1 ⟨hr, rfl⟩

/-- START, D_LL, D_READ and D_SC, each with the outcome that goes on. -/
theorem steps_dequeue (hph : q.phase = .start) (hv : s.valid = true) (hd : decodeWord q.cw = .ok i)
    (hi : i = .deq ∨ i = .trydeq) (ha : s.agenda = List.replicate 4 (.port p false) ++ rest)
    (hc : 0 < (Qword.rc s.qword).toNat) (hs : (slotIndex (Qword.rp s.qword)).toNat < Config.nslots)
    (hread : s.slots.read (slotIndex (Qword.rp s.qword)).toNat = some d) :
    steps 4 s = .next (withTurns (storedQword s (deqWord s.cap s.qword)) p 0 rest
      { ended q 0x00#8 with
        v := s.qword, vn := deqWord s.cap s.qword, s := slotIndex (Qword.rp s.qword), d := d,
        doutHi := itemHi d, doutLo := itemLo d }) := by
  have hf : firstPhase i = some .dLL := by obtain rfl | rfl := hi <;> rfl
  refine Eq.trans (steps_of_turns hp hd ha (turn_enters hp hf hph hv)) ?_
  refine Eq.trans (steps_withTurns hp hd (turn_dequeueRead hp hi rfl hc)) ?_
  refine Eq.trans (steps_withTurns hp hd (turn_dequeueSlotRead hp rfl hs hread)) ?_
  exact steps_withTurns hp hd (turn_dequeueStore hp hi rfl rfl)

end

/-- Settles O54: the four turns, and the slot index that fits its latch. -/
theorem dequeueAloneCompletes : Obligations.DequeueAloneCompletes := by
  intro s p q rest d hp hph hv hcw ha hc hrp hread rp' w
  obtain ⟨i, hd, hi⟩ : ∃ i, decodeWord q.cw = .ok i ∧ (i = .deq ∨ i = .trydeq) := by
    obtain hcw | hcw := hcw
    · exact ⟨.deq, (decodeWord_eq_ok_iff_eq_encode rfl).mpr hcw, .inl rfl⟩
    · exact ⟨.trydeq, (decodeWord_eq_ok_iff_eq_encode rfl).mpr hcw, .inr rfl⟩
  have hslot : (slotIndex (Qword.rp s.qword)).toNat = (Qword.rp s.qword).toNat := slotIndex_toNat hrp
  exact steps_dequeue hp hph hv hd hi ha hc (slotIndex_lt_nslots hrp) (hslot ▸ hread)

end Sys2Proof.Safety
end

section
/-! PEEK (44_peek.md R260 to R264): each micro-step as one equation, what every one of them leaves alone, and the whole
command in three turns. -/

namespace Sys2Proof.Machine

open Sys2Proof Sys2Proof.Safety

variable {s t : State} {q : Port} {ph : Phase}

/-! ### The micro-steps -/

/-- Settles O29: P_RDW tests the word it reads. -/
theorem peekWordRead : Obligations.PeekWordRead := by
  rintro s q ⟨hp, hph⟩
  have hexec : exec .peek s = .next (pRdw s.turn.port s) := by rw [exec_eq hp, runPhase, hph]
  refine ⟨fun hc => ?_, fun hc => ?_⟩
  · rw [hexec, pRdw_eq hp, if_pos hc]
    rfl
  · rw [hexec, pRdw_eq hp, if_neg hc]
    rfl

theorem exec_of_pRead (h : Running s q .pRead) (i : Instr) : exec i s = pRead s.turn.port q s := by
  obtain ⟨hp, hph⟩ := h
  rw [exec_eq hp, runPhase, hph]

/-- The record of a port whose PEEK has ended with the item `d` (44_peek.md R262). -/
def peekedItem (q : Port) (d : Item) : Port :=
  { ended q 0x00#8 with d := d, doutHi := itemHi d, doutLo := itemLo d }

/-- P_READ of a written slot. -/
theorem exec_of_pRead_slot {d : Item} (h : Running s q .pRead) (hs : q.s.toNat < Config.nslots)
    (hd : s.slots.read q.s.toNat = some d) (i : Instr) :
    exec i s = .next (withRunning s (peekedItem q d)) :=
  (exec_of_pRead h i).trans ((slotRead_some hs hd _).trans (congrArg _ (pRead_rest h.1 d)))

/-- Settles O30: P_READ is one SlotRead, which an unwritten slot and the index 127 fail. -/
theorem peekSlotRead : Obligations.PeekSlotRead := by
  intro s q h
  refine ⟨fun d hs hd => ?_, fun hs hd => ?_, fun hs => ?_⟩
  · exact exec_of_pRead_slot h (Nat.lt_succ_of_le hs) hd .peek
  · rw [exec_of_pRead h, pRead, slotRead_unwritten (Nat.lt_succ_of_le hs) hd]
  · rw [exec_of_pRead h, pRead, hs, slotRead_noSlot (by decide)]

/-! ### The frame -/

/-- What a micro-step of PEEK at phase `ph` leaves of its own port's record: what it never writes, the reservation,
which it never takes, STATUS until it ends the command, and DOUT and the latches but where they are loaded. -/
def PeekKeeps (ph : Phase) (q q' : Port) : Prop :=
  q'.ovr = q.ovr ∧ q'.dinHi = q.dinHi ∧ q'.dinLo = q.dinLo ∧ q'.cw = q.cw ∧ q'.din = q.din ∧
  q'.vn = q.vn ∧ (q'.res = true → q.res = true) ∧
  (q'.phase ≠ .idle → q'.busy = q.busy ∧ q'.code = q.code ∧ q'.res = q.res) ∧
  (ph ≠ .pRead → q'.doutHi = q.doutHi ∧ q'.doutLo = q.doutLo ∧ q'.d = q.d) ∧
  (ph ≠ .pRdw → q'.v = q.v ∧ q'.s = q.s)

/-- START on a queue and without one (40_command_execution.md R164, R165). -/
theorem peek_start_keeps (h : Running s q .start) :
    ∃ x, exec .peek s = .next (withRunning s x) ∧ PeekKeeps .start q x := by
  cases hv : s.valid with
  | false => exact ⟨_, noQueueEndsWithNullObject s q .peek h hv nofun, by simp [PeekKeeps, ended]⟩
  | true =>
    obtain ⟨_, _, _, _, hpeek⟩ := startEntersTheFirstPhase s q h hv
    exact ⟨_, hpeek, by simp [PeekKeeps]⟩

theorem peek_pRdw_keeps (h : Running s q .pRdw) :
    ∃ x, exec .peek s = .next (withRunning s x) ∧ PeekKeeps .pRdw q x := by
  obtain ⟨hempty, hitem⟩ := peekWordRead s q h
  by_cases hc : (Qword.rc s.qword).toNat = 0
  · exact ⟨_, hempty hc, by simp [PeekKeeps, ended]⟩
  · exact ⟨_, hitem hc, by simp [PeekKeeps]⟩

theorem peek_pRead_keeps (h : Running s q .pRead) (ht : exec .peek s = .next t) :
    ∃ x, exec .peek s = .next (withRunning s x) ∧ PeekKeeps .pRead q x := by
  obtain ⟨hs, d, hd, _⟩ := slotRead_next ((exec_of_pRead h .peek).symm.trans ht)
  exact ⟨_, exec_of_pRead_slot h hs hd .peek, by simp [PeekKeeps, peekedItem, ended]⟩

/-- Every micro-step of PEEK, by its phase, writes its port's record only (44_peek.md R260). -/
theorem peek_keeps (h : Running s q ph) (hph : ph = .start ∨ ownPhase .peek ph = true)
    (ht : exec .peek s = .next t) : ∃ x, t = withRunning s x ∧ PeekKeeps ph q x := by
  have hkeeps : ∃ x, exec .peek s = .next (withRunning s x) ∧ PeekKeeps ph q x := by
    cases ph <;> simp [ownPhase] at hph
    case start => exact peek_start_keeps h
    case pRdw => exact peek_pRdw_keeps h
    case pRead => exact peek_pRead_keeps h ht
  obtain ⟨x, hexec, hx⟩ := hkeeps
  exact ⟨x, Host.Outcome.next.inj (ht.symm.trans hexec), hx⟩

/-- Settles O34: each micro-step is a new record of its port. -/
theorem frameOfPeek : Obligations.FrameOfPeek := by
  intro s t q ph h hph ht
  obtain ⟨x, rfl, hx⟩ := peek_keeps h hph ht
  exact ⟨keepsOthers_withRunning (keepsOthers_refl s) x, rfl, rfl, rfl, fun _ => rfl,
    fun _ hr => get_set_ne x hr, x, get_set_self h.1 x, hx⟩

end Sys2Proof.Machine

namespace Sys2Proof.Safety

open Sys2Proof Sys2Proof.Machine

variable {s : State} {p k : Nat} {q x : Port} {rest : List Event} {d : Item}

/-! ### PEEK alone -/

section

variable (hp : s.ports[p]? = some q)
include hp

/-- P_RDW of a queue with a committed item (44_peek.md R261). -/
theorem turn_peekRead (hph : x.phase = .pRdw) (hc : (Qword.rc s.qword).toNat ≠ 0) :
    exec .peek (withTurns s p k rest x) = .next (withTurns s p k rest
      { x with v := s.qword, s := slotIndex (Qword.rp s.qword), phase := .pRead }) := by
  refine Eq.trans ?_ (congrArg _ (withRunning_withTurns x _))
  exact (peekWordRead _ _ (running_withTurns hp hph)).2 hc

theorem turn_peekSlotRead (hph : x.phase = .pRead) (hs : x.s.toNat < Config.nslots)
    (hd : s.slots.read x.s.toNat = some d) :
    exec .peek (withTurns s p k rest x) = .next (withTurns s p k rest (peekedItem x d)) := by
  refine Eq.trans ?_ (congrArg _ (withRunning_withTurns x _))
  exact exec_of_pRead_slot (running_withTurns hp hph) hs hd .peek

end

/-- Settles O55: START, P_RDW and P_READ, and the slot index that fits its latch. -/
theorem peekAloneCompletes : Obligations.PeekAloneCompletes := by
  intro s p q rest d hp hph hv hcw ha hc hrp hread
  have hd : decodeWord q.cw = .ok .peek := (decodeWord_eq_ok_iff_eq_encode rfl).mpr hcw
  have hslot : (slotIndex (Qword.rp s.qword)).toNat = (Qword.rp s.qword).toNat := slotIndex_toNat hrp
  refine Eq.trans (steps_of_turns hp hd ha (turn_enters hp rfl hph hv)) ?_
  refine Eq.trans (steps_withTurns hp hd (turn_peekRead hp rfl hc.ne')) ?_
  exact steps_withTurns hp hd (turn_peekSlotRead hp rfl (slotIndex_lt_nslots hrp) (hslot ▸ hread))

end Sys2Proof.Safety
end

section
/-! Completion (60_exceptions.md R272, R274): the codes each command can end with, and a failure's effect, which is on
its port's record alone. -/

namespace Sys2Proof.Machine

open Sys2Proof Sys2Proof.Safety

variable {s t u : State} {q x y : Port} {i : Instr} {ph : Phase} {op : BitVec 4} {code : Byte} {codes : List Byte}

/-! ### How a micro-step ends a command -/

/-- If the micro-step from `s` to `t` ends the command of the running port, with the record `q`, it does so with
SUCCESS, or with one of the failure codes `codes`; a failure changes that record only, and there the latch `v` at
most beside the completion. -/
def EndsBy (codes : List Byte) (s : State) (q : Port) (t : State) : Prop :=
  ∀ q', t.ports[s.turn.port]? = some q' → q'.phase = .idle →
    q'.code = 0x00#8 ∨ q'.code ∈ codes ∧ ∃ v, t = withRunning s (ended { q with v := v } q'.code)

/-- A micro-step after which the command goes on or has ended with SUCCESS, whatever else it did. -/
theorem endsBy_putPort (hu : u.ports[s.turn.port]? = some y) (hx : x.phase = .idle → x.code = 0x00#8) :
    EndsBy codes s q (putPort u s.turn.port x) := by
  intro q' hq' hidle
  obtain rfl : x = q' := Option.some.inj ((get_set_self hu x).symm.trans hq')
  exact .inl (hx hidle)

theorem endsBy_setPhase (hp : s.ports[s.turn.port]? = some q) (hph : ph ≠ .idle) :
    EndsBy codes s q (setPhase s.turn.port ph s) := by
  rw [setPhase_eq hp]
  exact endsBy_putPort hp (absurd · hph)

theorem endsBy_ended (hp : s.ports[s.turn.port]? = some q) (hc : code ∈ codes) (v : Word) :
    EndsBy codes s q (withRunning s (ended { q with v := v } code)) := by
  intro q' hq' _
  obtain rfl : ended { q with v := v } code = q' := Option.some.inj ((get_set_self hp _).symm.trans hq')
  exact .inr ⟨hc, v, rfl⟩

/-- A store-conditional whose store, if it is made, ends the command with SUCCESS or lets it go on. -/
theorem endsBy_store (hp : s.ports[s.turn.port]? = some q)
    (hstored : q.res = true → s.turn.spurious = false → t = afterStore s s.turn.port q.vn x)
    (hlost : ¬(q.res = true ∧ s.turn.spurious = false) → t = putPort s s.turn.port y)
    (hx : x.phase = .idle → x.code = 0x00#8) (hy : y.phase ≠ .idle) : EndsBy codes s q t := by
  by_cases hr : q.res = true ∧ s.turn.spurious = false
  · rw [hstored hr.1 hr.2]
    exact endsBy_putPort (u := { s with qword := q.vn, ports := _ }) (get_map_clear hp) hx
  · rw [hlost hr]
    exact endsBy_putPort hp (absurd · hy)

/-- The failure codes of a command's START step (40_command_execution.md R164, 41_lifecycle.md R191, R195). -/
def startFailures (i : Instr) : List Byte :=
  match i with
  | .init _ => [0x06#8, 0x07#8, 0x08#8]
  | .destroy => [0x01#8, 0x06#8]
  | .enq | .tryenq | .deq | .trydeq | .peek => [0x01#8]

theorem startOf_endsBy (hp : s.ports[s.turn.port]? = some q) (i : Instr) :
    EndsBy (startFailures i) s q (startOf i s.turn.port s) := by
  have queue : ∀ ph, ph ≠ .idle → EndsBy [0x01#8] s q (startOnQueue s.turn.port ph s) := fun ph hph => by
    rw [startOnQueue_eq hp]
    split
    · exact endsBy_putPort hp (absurd · hph)
    · exact endsBy_ended hp (List.mem_singleton_self _) q.v
  have store : ∀ codes valid cap, EndsBy codes s q (reconfigured s q valid cap) := fun _ _ _ =>
    endsBy_putPort (get_map_clear hp) fun _ => rfl
  cases i with
  | init cap =>
    rw [startOf, initStart_eq hp]
    split_ifs
    · exact endsBy_ended hp (by simp [startFailures]) q.v
    · exact endsBy_ended hp (by simp [startFailures]) q.v
    · exact endsBy_ended hp (by simp [startFailures]) q.v
    · exact store _ _ _
  | destroy =>
    rw [startOf, destroyStart_eq hp]
    split_ifs
    · exact endsBy_ended hp (by simp [startFailures]) q.v
    · exact endsBy_ended hp (by simp [startFailures]) q.v
    · exact store _ _ _
  | enq | tryenq => exact queue .e1LL nofun
  | deq | trydeq => exact queue .dLL nofun
  | peek => exact queue .pRdw nofun

/-- The failure codes of the micro-step at a phase, for a command whose OP is `op` and whose START fails with
`starts`. -/
def failures (op : BitVec 4) (starts : List Byte) (ph : Phase) : List Byte :=
  match ph with
  | .start => starts
  | .e1LL => if op = opcode .tryenq then [0x03#8] else []
  | .dLL => if op = opcode .trydeq then [0x03#8] else []
  | .pRdw => [0x04#8]
  | _ => []

/-- Every micro-step, by its phase. -/
theorem runPhase_endsBy {starts : List Byte} {onStart : State} (hp : s.ports[s.turn.port]? = some q)
    (hph : q.phase = ph) (hbusy : ph ≠ .idle) (hstart : EndsBy starts s q onStart)
    (ht : runPhase op onStart s.turn.port q s = .next t) : EndsBy (failures op starts ph) s q t := by
  rw [runPhase, hph] at ht
  cases ph
  case idle => exact absurd rfl hbusy
  case start => cases ht; exact hstart
  case e1LL =>
    cases ht
    rw [e1LL_eq hp]
    split_ifs with _ hop
    · exact endsBy_putPort hp nofun
    · exact endsBy_ended hp (by simp [failures, opcode, hop]) s.qword
    · exact endsBy_putPort hp nofun
  case e1SC => cases ht; exact endsBy_store hp (e1SC_stored hp) (e1SC_failed hp) nofun nofun
  case e1Yield | e2Yield | dYield => cases ht; exact endsBy_setPhase hp nofun
  case eWrite =>
    obtain ⟨hslot, _⟩ := slotWrite_next ht
    cases ht.symm.trans (eWrite_eq hp hslot)
    exact endsBy_putPort (u := wroteSlot s q.s.toNat q.din) (x := { q with phase := .e2LL }) hp nofun
  case e2LL =>
    cases ht
    rw [e2LL_eq hp]
    split_ifs
    · exact endsBy_putPort hp nofun
    · exact endsBy_putPort hp nofun
  case e2SC => cases ht; exact endsBy_store hp (e2SC_stored hp) (e2SC_failed hp) (fun _ => rfl) nofun
  case dLL =>
    cases ht
    rw [dLL_eq hp]
    split_ifs with _ hop
    · exact endsBy_putPort hp nofun
    · exact endsBy_ended hp (by simp [failures, opcode, hop]) s.qword
    · exact endsBy_putPort hp nofun
  case dRead =>
    obtain ⟨_, d, _, rfl⟩ := slotRead_next ht
    exact dRead_rest hp d ▸ endsBy_putPort hp nofun
  case dSC => cases ht; exact endsBy_store hp (dSC_stored hp) (dSC_failed hp) (fun _ => rfl) nofun
  case pRdw =>
    cases ht
    rw [pRdw_eq hp]
    split_ifs
    · exact endsBy_ended hp (List.mem_singleton_self _) s.qword
    · exact endsBy_putPort hp nofun
  case pRead =>
    obtain ⟨_, d, _, rfl⟩ := slotRead_next ht
    exact pRead_rest hp d ▸ endsBy_putPort hp fun _ => rfl

/-! ### The codes of each command -/

/-- The table of 60_exceptions.md R272. -/
def commandCodes (i : Instr) : List Byte :=
  match i with
  | .init _ => [0x00#8, 0x06#8, 0x07#8, 0x08#8]
  | .destroy => [0x00#8, 0x01#8, 0x06#8]
  | .enq => [0x00#8, 0x01#8]
  | .tryenq => [0x00#8, 0x01#8, 0x03#8]
  | .deq => [0x00#8, 0x01#8]
  | .trydeq => [0x00#8, 0x01#8, 0x03#8]
  | .peek => [0x00#8, 0x01#8, 0x04#8]

theorem success_mem_commandCodes (i : Instr) : 0x00#8 ∈ commandCodes i := by
  cases i <;> exact List.mem_cons_self

/-- Each failure of a command stands in its row of the table. -/
theorem failures_subset_commandCodes (h : ph = .start ∨ ownPhase i ph = true) :
    failures (opcode i) (startFailures i) ph ⊆ commandCodes i := by
  obtain rfl | hown := h
  · cases i <;> simp [failures, startFailures, commandCodes]
  · cases i <;> cases ph <;> simp [ownPhase] at hown <;> decide

/-- Settles O39: a micro-step ends its command with SUCCESS or a failure of its phase. -/
theorem codesOfEachCommand : Obligations.CodesOfEachCommand := by
  rintro i s t q ph q' ⟨hp, hph⟩ hown ht hq' hidle
  have hbusy : ph ≠ .idle := by
    rintro rfl
    cases i <;> simp [ownPhase] at hown
  have hends := runPhase_endsBy hp hph hbusy (startOf_endsBy hp i) ((exec_eq hp i).symm.trans ht)
  have hcode : q'.code ∈ commandCodes i := by
    obtain hsuccess | ⟨hfailure, _⟩ := hends q' hq' hidle
    · exact hsuccess ▸ success_mem_commandCodes i
    · exact failures_subset_commandCodes hown hfailure
  exact hcode

/-! ### A failure -/

/-- START of any latched word, legal or not (40_command_execution.md R163). -/
theorem startWord_endsBy (hp : s.ports[s.turn.port]? = some q) (w : Word) :
    ∃ starts, EndsBy starts s q (startWord w s.turn.port s) := by
  unfold startWord
  split
  · exact ⟨_, startOf_endsBy hp _⟩
  · exact ⟨[0x09#8], complete_turn_eq hp .illegalCmd ▸ endsBy_ended hp (List.mem_singleton_self _) q.v⟩

theorem phase_of_mem_failures {starts : List Byte} (h : code ∈ failures op starts ph) :
    ph = .start ∨ ph = .e1LL ∨ ph = .dLL ∨ ph = .pRdw := by
  cases ph <;> simp [failures] at h ⊢

/-- Settles O40: a failure is one of the failures of its phase, and only completes its port's record. -/
theorem failuresLeaveTheQueueAlone : Obligations.FailuresLeaveTheQueueAlone := by
  intro p b s t q q' ht hp hbusy hq' hidle hcode
  have hturn : (takeTurn p b s).ports[(takeTurn p b s).turn.port]? = some q := hp
  obtain ⟨starts, hstart⟩ := startWord_endsBy hturn q.cw
  have hends := runPhase_endsBy hturn rfl hbusy hstart ((runTurn_eq hturn).symm.trans ht)
  obtain hsuccess | ⟨hfailure, v, rfl⟩ := hends q' hq' hidle
  · exact absurd hsuccess hcode
  have hrecord : ended { q with v := v } q'.code = q' := Option.some.inj ((get_set_self hp _).symm.trans hq')
  exact ⟨phase_of_mem_failures hfailure, rfl, rfl, rfl, rfl, (congrArg Port.doutHi hrecord.symm :),
    (congrArg Port.doutLo hrecord.symm :), fun _ hr => get_set_ne _ hr⟩

end Sys2Proof.Machine
end

section
/-! Non-interference (60_exceptions.md R279, R283): a micro-step commutes with a change of another port's record that
leaves the phase, and the clearing of the reservation, as they are. -/

namespace Sys2Proof.Machine

open Sys2Proof

variable {s a b : State} {p r : Nat} {q x y : Port} {f : Port → Port} {w : Word}

/-! ### Another port's record -/

/-- A change of a record that leaves what other ports' micro-steps touch of it: they read its phase and clear its
reservation (41_lifecycle.md R197, 20_memory.md R92). -/
structure KeepsControl (f : Port → Port) : Prop where
  phase : ∀ x, (f x).phase = x.phase
  clear : ∀ x, f { x with res := false } = { f x with res := false }

/-- A result with its next state, if it is one, changed by `g`. -/
def onNext (g : State → State) (a : Result) : Result :=
  match a with
  | .next t => .next (g t)
  | .fault e => .fault e
  | .refused e => .refused e

theorem get_updPort_ne (s : State) (f : Port → Port) (hne : p ≠ r) : (updPort s r f).ports[p]? = s.ports[p]? :=
  List.getElem?_modify_ne f _ hne.symm

theorem modify_set_ne (l : List Port) (f : Port → Port) (x : Port) (hne : p ≠ r) :
    (l.set p x).modify r f = (l.modify r f).set p x := by
  apply List.ext_getElem?
  intro k
  by_cases hk : p = k
  · simp [← hk, hne.symm, List.getElem?_set]
  · simp [hk, List.getElem?_modify, List.getElem?_set_ne]

theorem modify_map_clear (hf : KeepsControl f) (l : List Port) (r : Nat) :
    (l.map (fun q => { q with res := false })).modify r f = (l.modify r f).map (fun q => { q with res := false }) := by
  apply List.ext_getElem?
  intro k
  by_cases hk : r = k
  · simp [hk, Function.comp_def, hf.clear]
  · simp [hk]

theorem othersBusy_updPort (hf : KeepsControl f) (s : State) (p r : Nat) :
    othersBusy p (updPort s r f) = othersBusy p s := by
  rw [Bool.eq_iff_iff, othersBusy_iff, othersBusy_iff]
  refine exists_congr fun k => ?_
  by_cases hk : r = k
  · simp [hk, hf.phase]
  · simp [hk]

/-! ### Updates that commute with the change -/

/-- One new record of port `p`. -/
theorem eq_updPort_of_record (hne : p ≠ r) (ha : a = putPort s p x) (hb : b = putPort (updPort s r f) p x) :
    b = updPort a r f := by
  rw [ha, hb]
  simp only [updPort, modify_set_ne _ f x hne]

/-- One store to QWORD by port `p`. -/
theorem eq_updPort_of_store (hf : KeepsControl f) (hne : p ≠ r) (ha : a = afterStore s p w x)
    (hb : b = afterStore (updPort s r f) p w x) : b = updPort a r f := by
  rw [ha, hb]
  simp only [afterStore, updPort, modify_set_ne _ f x hne, modify_map_clear hf]

/-- One store-conditional by port `p`, which stores or does not (20_memory.md R91). -/
theorem eq_updPort_of_scw (hf : KeepsControl f) (hne : p ≠ r)
    (ha : q.res = true → s.turn.spurious = false → a = afterStore s p w x)
    (hb : q.res = true → s.turn.spurious = false → b = afterStore (updPort s r f) p w x)
    (ha' : ¬(q.res = true ∧ s.turn.spurious = false) → a = putPort s p y)
    (hb' : ¬(q.res = true ∧ s.turn.spurious = false) → b = putPort (updPort s r f) p y) : b = updPort a r f := by
  by_cases hr : q.res = true ∧ s.turn.spurious = false
  · exact eq_updPort_of_store hf hne (ha hr.1 hr.2) (hb hr.1 hr.2)
  · exact eq_updPort_of_record hne (ha' hr) (hb' hr)

theorem slotRead_updPort {k k' : Item → State} (hk : ∀ d, k' d = updPort (k d) r f) (i : Nat) (s : State) :
    slotRead i (updPort s r f) k' = onNext (updPort · r f) (slotRead i s k) := by
  simp only [slotRead, updPort_slots]
  split
  · split
    · exact congrArg _ (hk _)
    · rfl
  · rfl

theorem slotWrite_updPort {k : State → State} {i : Nat} {d : Item}
    (hk : k (updPort { s with slots := s.slots.write i d } r f) =
      updPort (k { s with slots := s.slots.write i d }) r f) :
    slotWrite i d (updPort s r f) k = onNext (updPort · r f) (slotWrite i d s k) := by
  unfold slotWrite
  split
  · exact congrArg _ hk
  · rfl

/-! ### The micro-steps -/

/-- The completion of INIT and DESTROY after their store. -/
theorem complete_clearReservations_eq (hp : s.ports[p]? = some q) (c : StatusCode) :
    complete p c (clearReservations s) =
      afterStore s p s.qword { q with code := c.value, busy := false, res := false, phase := .idle } :=
  complete_eq (s := clearReservations s) (get_map_clear hp) c

theorem setPhase_updPort (hne : p ≠ r) (hp : s.ports[p]? = some q) (ph : Phase) :
    setPhase p ph (updPort s r f) = updPort (setPhase p ph s) r f :=
  eq_updPort_of_record hne (setPhase_eq hp ph) (setPhase_eq ((get_updPort_ne s f hne).trans hp) ph)

section

variable (hf : KeepsControl f) (hne : p ≠ r) (hp : s.ports[p]? = some q)
include hf hne hp

theorem startOf_updPort (i : Instr) : startOf i p (updPort s r f) = updPort (startOf i p s) r f := by
  have hp' := (get_updPort_ne s f hne).trans hp
  have hcomplete : ∀ c, complete p c (updPort s r f) = updPort (complete p c s) r f := fun c =>
    eq_updPort_of_record hne (complete_eq hp c) (complete_eq hp' c)
  have hstore : ∀ t : State, t.ports[p]? = some q →
      complete p .success (clearReservations (updPort t r f)) =
        updPort (complete p .success (clearReservations t)) r f := fun t ht =>
    eq_updPort_of_store hf hne (complete_clearReservations_eq ht .success)
      (complete_clearReservations_eq ((get_updPort_ne t f hne).trans ht) .success)
  have hqueue : ∀ ph, startOnQueue p ph (updPort s r f) = updPort (startOnQueue p ph s) r f := fun ph =>
    eq_updPort_of_record hne (startOnQueue_eq hp ph) (startOnQueue_eq hp' ph)
  cases i with
  | init cap =>
    simp only [startOf, initStart, othersBusy_updPort hf]
    split_ifs
    · exact hcomplete .busy
    · exact hcomplete .tooMany
    · exact hcomplete .badParam
    · exact hstore { s with qword := pack 0 0 0 0, cap := BitVec.ofNat 7 cap, valid := true } hp
  | destroy =>
    simp only [startOf, destroyStart, othersBusy_updPort hf, updPort_valid]
    split_ifs
    · exact hcomplete .nullObject
    · exact hcomplete .busy
    · exact hstore { s with qword := 0x00000000#32, cap := 0, valid := false } hp
  | enq | tryenq | deq | trydeq | peek => exact hqueue _

theorem startWord_updPort (w : Word) : startWord w p (updPort s r f) = updPort (startWord w p s) r f := by
  have hp' := (get_updPort_ne s f hne).trans hp
  unfold startWord
  split
  · exact startOf_updPort hf hne hp _
  · exact eq_updPort_of_record hne (complete_eq hp _) (complete_eq hp' _)

/-- Every micro-step, by its phase. -/
theorem runPhase_updPort (op : BitVec 4) (onStart : State) :
    runPhase op (updPort onStart r f) p q (updPort s r f) =
      onNext (updPort · r f) (runPhase op onStart p q s) := by
  have hp' := (get_updPort_ne s f hne).trans hp
  unfold runPhase
  cases q.phase
  case idle | start => rfl
  case e1LL => exact congrArg _ (eq_updPort_of_record hne (e1LL_eq hp op) (e1LL_eq hp' op))
  case e1SC =>
    exact congrArg _
      (eq_updPort_of_scw hf hne (e1SC_stored hp) (e1SC_stored hp') (e1SC_failed hp) (e1SC_failed hp'))
  case e1Yield => exact congrArg _ (setPhase_updPort hne hp .e1LL)
  case eWrite =>
    exact slotWrite_updPort (setPhase_updPort (s := wroteSlot s q.s.toNat q.din) hne hp .e2LL)
  case e2LL => exact congrArg _ (eq_updPort_of_record hne (e2LL_eq hp) (e2LL_eq hp'))
  case e2SC =>
    exact congrArg _
      (eq_updPort_of_scw hf hne (e2SC_stored hp) (e2SC_stored hp') (e2SC_failed hp) (e2SC_failed hp'))
  case e2Yield => exact congrArg _ (setPhase_updPort hne hp .e2LL)
  case dLL => exact congrArg _ (eq_updPort_of_record hne (dLL_eq hp op) (dLL_eq hp' op))
  case dRead => exact slotRead_updPort (fun d => eq_updPort_of_record hne (dRead_rest hp d) (dRead_rest hp' d)) _ s
  case dSC =>
    exact congrArg _
      (eq_updPort_of_scw hf hne (dSC_stored hp) (dSC_stored hp') (dSC_failed hp) (dSC_failed hp'))
  case dYield => exact congrArg _ (setPhase_updPort hne hp .dLL)
  case pRdw => exact congrArg _ (eq_updPort_of_record hne (pRdw_eq hp) (pRdw_eq hp'))
  case pRead => exact slotRead_updPort (fun d => eq_updPort_of_record hne (pRead_rest hp d) (pRead_rest hp' d)) _ s

end

/-! ### The turn -/

theorem runTurn_updPort (hf : KeepsControl f) (hne : s.turn.port ≠ r) :
    runTurn (updPort s r f) = onNext (updPort · r f) (runTurn s) := by
  have hget := get_updPort_ne s f hne
  cases hp : s.ports[s.turn.port]? with
  | none => rw [runTurn_none hp, runTurn_none (hget.trans hp), onNext]
  | some q =>
    rw [runTurn_eq hp, runTurn_eq (hget.trans hp), updPort_turn, startWord_updPort hf hne hp,
      runPhase_updPort hf hne hp]

/-- Settles O42: DIN, DOUT and the item latches are nothing of what other ports' micro-steps touch. -/
theorem portsCannotSeeEachOthersData : Obligations.PortsCannotSeeEachOthersData := by
  intro s p r b h l h' l' x y hne f
  have hf : KeepsControl f := ⟨fun _ => rfl, fun _ => rfl⟩
  exact runTurn_updPort (s := takeTurn p b s) hf hne

end Sys2Proof.Machine
end

section
/-! The reset step (70_reset_and_hazards.md R300): a listed reset makes `resetBlock` of the state, with the choice
taken from the agenda. -/

namespace Sys2Proof.Machine

open Sys2Proof

/-- A listed reset is made, whatever the state. -/
theorem step_of_agenda_reset {s : State} {rest : List Event} (h : s.agenda = .reset :: rest) :
    step s = .next (resetBlock { s with agenda := rest }) :=
  step_of_agenda h

/-- Settles O10: the step makes `resetBlock`, whose ports are as many as there were, each as at reset. -/
theorem resetStepRestoresTheBlock : Obligations.ResetStepRestoresTheBlock := by
  intro s rest h
  obtain ⟨hcount, hbase⟩ := resetBlock_sameParams { s with agenda := rest }
  refine ⟨_, step_of_agenda_reset h, rfl, rfl, rfl, fun _ => rfl, hcount, hbase, rfl, rfl, rfl, rfl, fun q hq => ?_⟩
  obtain rfl : q = Port.reset := resetBlock_ports hq
  exact ⟨rfl, rfl, rfl, rfl, rfl, rfl, rfl, rfl, rfl⟩

end Sys2Proof.Machine
end
